-- ==== Sys2Proof/Word.lean ====
section
/-! DEFINITION. The word types of the block (00_scope R10, R11; 20_memory R40). -/

namespace Sys2Proof

/-- A register value, a bus word or a command word: 32 bits (R10). -/
abbrev Word := BitVec 32

/-- A byte of MSGMEM, a byte lane of a bus word, or one channel of a pixel (R32, R40). -/
abbrev Byte := BitVec 8

/-- A pixel word `A ++ B ++ G ++ R` (R40). -/
abbrev Pixel := BitVec 32

end Sys2Proof
end

