-- ==== Sys2Proof/Syntax.lean ====
section
/-! DEFINITION. The commands of the block: one constructor per row of the opcode table (30_encoding R55).
A command carries no register numbers and no immediates (R54), so no constructor has an argument. -/

namespace Sys2Proof

/-- The eight defined commands, in the order of R55. -/
inductive Instr where
  | nop
  | encode
  | decode
  | capchk
  | embed
  | extract
  | encrypt
  | decrypt
deriving DecidableEq, Repr

end Sys2Proof
end

