-- ==== Sys2Proof/WellFormed.lean ====
section
/-! DEFINITION. Well-formedness: of a command word (30_encoding R54, R55, R56) and of a command.
The well-formedness of a host statement is `Input.wf` in Machine/Bus.lean. -/

namespace Sys2Proof

/-- The field OP of a command word, bits 3:0 (R54). -/
def opField (w : Word) : BitVec 4 := w.extractLsb' 0 4

/-- The field MBZ of a command word, bits 31:4 (R54). -/
def mbzField (w : Word) : BitVec 28 := w.extractLsb' 4 28

/-- Check 1 of a command word: MBZ must be zero (R54). -/
def mbzClear (w : Word) : Bool := mbzField w == 0

/-- Check 2 of a command word: OP is one of the eight defined opcodes (R55, R56). -/
def opDefined (w : Word) : Bool := decide ((opField w).toNat < 8)

/-- A command word that R55 defines: both checks pass (R56). -/
def commandWordWf (w : Word) : Bool := mbzClear w && opDefined w

/-- A command has no operand field, so there is nothing to check on it (R54): "every operand is a named
register or memory range fixed by the opcode". -/
def Instr.wf : Instr → Bool
  | .nop => true
  | .encode => true
  | .decode => true
  | .capchk => true
  | .embed => true
  | .extract => true
  | .encrypt => true
  | .decrypt => true

end Sys2Proof
end

