-- ==== Sys2Proof/Decode.lean ====
section
/-! DEFINITION. The decoder, total on every 32-bit word and rejecting by name (30_encoding R57), and the encoder,
both written from the opcode map R55. -/

namespace Sys2Proof

/-- Why a word is no command (R56). -/
inductive DecodeError where
  /-- Bits 31:4 are not zero. -/
  | mbzNonzero
  /-- Bits 31:4 are zero and the opcode is 0x8 to 0xF. -/
  | opReserved (op : BitVec 4)
deriving DecidableEq, Repr

/-- The opcode map of R57 on the field OP. -/
def decodeOp (op : BitVec 4) : Except DecodeError Instr :=
  match op.toNat with
  | 0x0 => .ok .nop
  | 0x1 => .ok .encode
  | 0x2 => .ok .decode
  | 0x3 => .ok .capchk
  | 0x4 => .ok .embed
  | 0x5 => .ok .extract
  | 0x6 => .ok .encrypt
  | 0x7 => .ok .decrypt
  | _ => .error (.opReserved op)

/-- `decode(w)` of R57: MBZ first, then the opcode. -/
def decode (w : Word) : Except DecodeError Instr :=
  if mbzField w ≠ 0 then .error .mbzNonzero else decodeOp (opField w)

/-- The word of a command (R55, column "word"). -/
def encode : Instr → Word
  | .nop => 0x00000000#32
  | .encode => 0x00000001#32
  | .decode => 0x00000002#32
  | .capchk => 0x00000003#32
  | .embed => 0x00000004#32
  | .extract => 0x00000005#32
  | .encrypt => 0x00000006#32
  | .decrypt => 0x00000007#32

/-- The command word whose bits are `w`, of which the first `nbits` are given and the others are 0. A command is
one 32-bit word written to CMD, so no bytes are laid out in a memory (R15, R54). -/
def tableWord (nbits w : Nat) : Word := BitVec.ofNat 32 (w % 2 ^ nbits)

/-- The command the decoder reads from a table row's bits; none where it refuses, or where the row is longer than
the one word a command has (R54). -/
def decodeTableWord (nbits w : Nat) : Option Instr :=
  if nbits ≤ 32 then
    match decode (tableWord nbits w) with
    | .ok i => some i
    | .error _ => none
  else none

end Sys2Proof
end

