-- ==== Sys2Proof/Config.lean ====
section
/-! DEFINITION. What an implementation fixes (00_scope R8, R9) and the free values: opaque constants
without a body, for what the spec leaves unspecified (93_implementation_defined I1, I2). -/

namespace Sys2Proof

/-- The parameters of the block that no source fixes (R9). LAT is left out: no rule depends on it (R102; log 12). -/
structure Config where
  /-- BASE: bus address of the block's offset 0. -/
  base : Nat
  /-- MAX_MSG_BYTES: bytes in MSGMEM, and bytes in BITMEM. -/
  maxMsgBytes : Nat
  /-- PIX_WORDS: pixel words in PIXMEM. -/
  pixWords : Nat
deriving DecidableEq, Repr

/-- MAX_BITS, the number of bits BITMEM holds (R9). -/
def Config.maxBits (c : Config) : Nat := 8 * c.maxMsgBytes

/-- The legal ranges of R9. -/
def Config.wf (c : Config) : Bool :=
  decide (c.base % 0x2000000 = 0) &&
  (decide (1 ≤ c.maxMsgBytes) && decide (c.maxMsgBytes ≤ 65536)) &&
  (decide (1 ≤ c.pixWords) && decide (c.pixWords ≤ 4194304))

/-- The reference configuration of R9, which every test vector of 95_test_vectors uses (log 1: DESIGN CHOICE). -/
def Config.reference : Config := { base := 0, maxMsgBytes := 256, pixWords := 4096 }

/-- Which of the three on-block memories a location belongs to (R12). -/
inductive Space where
  | msg
  | bit
  | pix
deriving DecidableEq, Repr

/-- What MSGMEM byte `i` holds after power-on number `p` until it is written: a free value (R91, I1; log 3). -/
opaque Config.powerOnMsg (p i : Nat) : Byte

/-- What BITMEM bit `i` holds after power-on number `p` until it is written: a free value (R91, I1; log 3). -/
opaque Config.powerOnBit (p i : Nat) : Bool

/-- What PIXMEM word `i` holds after power-on number `p` until it is written: a free value (R91, I1; log 3). -/
opaque Config.powerOnPix (p i : Nat) : Pixel

/-- Whether abort number `a` leaves location `i` of a memory with the value the aborted command would have written
(true) or with the value at the command's start (false): a free draw per location (R93, I2; log 5). -/
opaque Config.abortKeepsNew (a : Nat) (sp : Space) (i : Nat) : Bool

end Sys2Proof
end

