-- ==== Sys2Proof/Machine/State.lean ====
section
/-! DEFINITION. The state of the block and of its host as plain data, the reasons a step can stop, and the state right
after power-on reset (10_state; 70_reset_and_hazards R91). -/

namespace Sys2Proof.Machine

open Sys2Proof

/-- A memory: pairs of an index and the unit stored there, indices strictly rising. An index not listed has not been
written since the last power-on reset (R91, I1; log 2). MSGMEM is then a list of `Host.Cell`. -/
abbrev Mem (α : Type) := List (Nat × α)

/-- The engine's phase (R35); the BUSY phase carries the command word it holds for the command's duration (R15, R75). -/
inductive Engine where
  | idle
  | busy (command : Word)
deriving DecidableEq, Repr

/-- The two agents (R7). -/
inductive Agent where
  | host
  | engine
deriving DecidableEq, Repr

/-- The width of a bus access; only `word` is in the bus contract (R43). -/
inductive AccessWidth where
  | byte
  | half
  | word
deriving DecidableEq, Repr

/-- What the outside world does next: the statements of a host script after expansion (R58, R59) and edges of the reset
input (R36). Addresses are bus addresses, BASE plus the offset (R9, R39). -/
inductive Input where
  /-- `RD`: a read; the script records the value. -/
  | read (width : AccessWidth) (addr : Nat)
  /-- `WR`: a write. -/
  | write (width : AccessWidth) (addr : Nat) (value : Word)
  /-- `WAIT`: read STATUS again and again until bit 0 of the value read is 0. -/
  | wait
  /-- The RST input goes to a level. -/
  | rst (level : Bool)
deriving DecidableEq, Repr

/-- The errors that end a command, in the order of the codes 1 to 7 (R81). -/
inductive CmdError where
  | encodingError
  | rangeError
  | notFoundError
  | capacityError
  | formatError
  | configError
  | illegalCommand
deriving DecidableEq, Repr

/-- The whole state. -/
structure State where
  /-- The hardwired parameters: PARAM_MSG, PARAM_PIX and BASE (R9, R31). No step changes them. -/
  cfg : Config
  /-- The engine: IDLE, or BUSY with its command word (R35). STATUS.BUSY is read from here. -/
  engine : Engine
  /-- CTRL.IRQ_EN (R18). -/
  irqEn : Bool
  /-- STATUS.DONE (R20). -/
  done : Bool
  /-- STATUS.ERR (R20). -/
  err : Bool
  /-- STATUS.CMD_DROPPED (R20). -/
  cmdDropped : Bool
  /-- ERR_CODE bits 3:0 (R21). -/
  errCode : BitVec 4
  /-- ERR_INFO (R22). -/
  errInfo : Word
  /-- WIDTH bits 15:0 (R23). -/
  width : BitVec 16
  /-- HEIGHT bits 15:0 (R24). -/
  height : BitVec 16
  /-- MSG_LEN (R25). -/
  msgLen : Word
  /-- BIT_COUNT (R26). -/
  bitCount : Word
  /-- TOTAL_BITS (R27). -/
  totalBits : Word
  /-- FILE_SIZE (R28). -/
  fileSize : Word
  /-- OUT_LEN (R29). -/
  outLen : Word
  /-- EMBED_COUNT (R30). -/
  embedCount : Word
  /-- MSGMEM by byte (R32). -/
  msg : Mem Byte
  /-- BITMEM by bit (R33). -/
  bit : Mem Bool
  /-- PIXMEM by pixel word (R34). -/
  pix : Mem Pixel
  /-- The level of the RST input (R36, R91). -/
  rst : Bool
  /-- What the outside world has still to do, first item first (R58, R103). -/
  inputs : List Input
  /-- The values the script has read, latest first: offset and value (R58). -/
  reads : List (Nat × Word)
  /-- MODEL's own: which agent moves next, first item first (R47, R85; log 6). -/
  turns : List Agent
  /-- MODEL's own: number of power-on resets, the argument of the free power-on contents (log 3). -/
  powerOns : Nat
  /-- MODEL's own: number of aborted commands, the argument of the free abort draws (log 5). -/
  aborts : Nat
deriving DecidableEq, Repr

/-- Why the model stops with a fault. -/
inductive Fault where
  /-- Raised by ENCODE and ENCRYPT when MSGMEM byte `i`, which they read, was not written since power-on (R94, D36).
  Safe: the block goes on with an unspecified value. -/
  | unwrittenMsg (i : Nat)
  /-- Raised by DECODE and EMBED when BITMEM bit `i`, which they read, was not written since power-on (R94, D36).
  Safe: the block goes on with an unspecified value. -/
  | unwrittenBit (i : Nat)
  /-- Raised by EMBED, EXTRACT, ENCRYPT and DECRYPT when PIXMEM word `i`, which they read, was not written since
  power-on (R94, D36). Safe: the block goes on with an unspecified value. -/
  | unwrittenPix (i : Nat)
  /-- Raised by a host access at a bus address outside the block's 32 MiB range (R39; log 9).
  Safe: such an access does not reach the block. -/
  | outsideBlock (addr : Nat)
deriving DecidableEq, Repr

/-- Why the model has no transition. -/
inductive Refusal where
  /-- An instruction with no meaning in the model; no arm of `exec` answers it. Safe. -/
  | notModelled (mnemonic : String)
  /-- A host access that is not an aligned 32-bit access: "a model ... refuses it" (R43, D13). Raised by the host's
  turn. Safe: a proof assumes the access does not happen. -/
  | accessForm (width : AccessWidth) (offset : Nat)
deriving DecidableEq, Repr

/-- The machine right after power-on reset (R38, R91): every register at the reset value of R16, the engine idle, the
memories not written. The parameters are those of the reference configuration (log 1); the host has nothing to do yet
and has read nothing (log 11, log 13). -/
def State.reset : State where
  cfg := Config.reference
  engine := .idle
  irqEn := false
  done := false
  err := false
  cmdDropped := false
  errCode := 0
  errInfo := 0
  width := 0
  height := 0
  msgLen := 0
  bitCount := 0
  totalBits := 0
  fileSize := 0
  outLen := 0
  embedCount := 0
  msg := []
  bit := []
  pix := []
  rst := false
  inputs := []
  reads := []
  turns := []
  powerOns := 0
  aborts := 0

end Sys2Proof.Machine
end

