-- ==== Sys2Proof/Machine/Ops.lean ====
section
/-! DEFINITION. The named operations over memories and registers: reading and writing a memory, starting a command,
its successful end, its error end (the block's taking of an error, 60_exceptions R82), the register part of a reset and
the power-on reset. -/

namespace Sys2Proof.Machine

open Sys2Proof

/-! ### Memories -/

/-- The unit stored at index `i`, none where nothing was written since power-on. -/
def Mem.read? {α : Type} : Mem α → Nat → Option α
  | [], _ => none
  | (k, v) :: m, i => if k = i then some v else Mem.read? m i

/-- Store `v` at index `i`, keeping the indices strictly rising. -/
def Mem.write {α : Type} : Mem α → Nat → α → Mem α
  | [], i, v => [(i, v)]
  | (k, x) :: m, i, v =>
    if i < k then (i, v) :: (k, x) :: m
    else if i = k then (i, v) :: m
    else (k, x) :: Mem.write m i v

/-- Store the units of a list at index `i` and after. -/
def Mem.writeRun {α : Type} : Mem α → Nat → List α → Mem α
  | m, _, [] => m
  | m, i, v :: vs => Mem.writeRun (Mem.write m i v) (i + 1) vs

/-- Every listed index is above `lo`, and they rise strictly. -/
def Mem.risesFrom {α : Type} : Nat → Mem α → Bool
  | _, [] => true
  | lo, (k, _) :: m => decide (lo < k) && Mem.risesFrom k m

/-- The canonical form: indices strictly rising. Nothing else is asked, since an unlisted index reads as "not written",
which no listed entry equals. -/
def Mem.wf {α : Type} : Mem α → Bool
  | [] => true
  | (k, _) :: m => Mem.risesFrom k m

/-- Every listed index is below `n`. -/
def Mem.below {α : Type} (n : Nat) (m : Mem α) : Bool := m.all (fun c => decide (c.1 < n))

/-- Read units `i`, `i+1`, ..., `i+n-1` in that order through `at?`; the index of the first one that is not there
otherwise. -/
def readRun {α : Type} (at? : Nat → Option α) : Nat → Nat → Except Nat (List α)
  | _, 0 => .ok []
  | i, n + 1 =>
    match at? i with
    | none => .error i
    | some v =>
      match readRun at? (i + 1) n with
      | .error k => .error k
      | .ok vs => .ok (v :: vs)

/-! ### How the engine reads a memory -/

/-- The engine's way of reading a location. -/
structure Reader where
  msg : Mem Byte → Nat → Option Byte
  bit : Mem Bool → Nat → Option Bool
  pix : Mem Pixel → Nat → Option Pixel

/-- A command's reads: a location not written since power-on is not there, and the command faults (R94, D36). -/
def Reader.strict : Reader where
  msg := Mem.read?
  bit := Mem.read?
  pix := Mem.read?

/-- The reads of a command that is being aborted: a location not written since power-on holds the free value that a
host read of it returns (R93, I1; log 5). -/
def Reader.settled (p : Nat) : Reader where
  msg m i := some ((Mem.read? m i).getD (Config.powerOnMsg p i))
  bit m i := some ((Mem.read? m i).getD (Config.powerOnBit p i))
  pix m i := some ((Mem.read? m i).getD (Config.powerOnPix p i))

/-! ### Registers and the life of a command -/

/-- STATUS.BUSY: the engine is running a command (R20, R35). -/
def State.busy (s : State) : Bool :=
  match s.engine with
  | .idle => false
  | .busy _ => true

/-- The start event (R75): BUSY set with the word latched, DONE, ERR, ERR_CODE and ERR_INFO cleared, CMD_DROPPED kept. -/
def State.startCommand (w : Word) (s : State) : State :=
  { s with engine := .busy w, done := false, err := false, errCode := 0, errInfo := 0 }

/-- The successful end (R76): BUSY cleared, DONE set. -/
def State.complete (s : State) : State :=
  { s with engine := .idle, done := true }

/-- The code of an error (R81). -/
def CmdError.code : CmdError → BitVec 4
  | .encodingError => 1
  | .rangeError => 2
  | .notFoundError => 3
  | .capacityError => 4
  | .formatError => 5
  | .configError => 6
  | .illegalCommand => 7

/-- The error latch (R82): ERR_CODE, ERR_INFO and ERR written, BUSY cleared, nothing else saved or changed. -/
def State.latchError (e : CmdError) (info : Word) (s : State) : State :=
  { s with engine := .idle, err := true, errCode := e.code, errInfo := info }

/-- The register part of a reset (R38, R92): every register at its reset value, the engine idle. -/
def State.resetRegs (s : State) : State :=
  { s with
    engine := .idle, irqEn := false, done := false, err := false, cmdDropped := false, errCode := 0, errInfo := 0,
    width := 0, height := 0, msgLen := 0, bitCount := 0, totalBits := 0, fileSize := 0, outLen := 0, embedCount := 0 }

/-- Power-on reset (R91): the registers reset, a running command abandoned with no end event, and the memories
unspecified again (nothing written since this power-on). -/
def State.powerOn (s : State) : State :=
  { s.resetRegs with msg := [], bit := [], pix := [], powerOns := s.powerOns + 1 }

/-- The RST input goes to a level: each edge is a power-on reset, a level that does not change is no event
(R91; log 8). -/
def State.setRst (level : Bool) (s : State) : State :=
  if s.rst = level then s else { s.powerOn with rst := level }

/-! ### What one step of a command answers -/

/-- The end of a primitive step or of a composite command (R77): done; an error with the state the steps before it
left; or a fault of the model. -/
inductive StepResult where
  | done (s : State)
  | raised (e : CmdError) (info : Word) (s : State)
  | fault (f : Fault)
deriving DecidableEq, Repr

/-- The next step of a composite runs only after the one before it is done (R77). -/
def StepResult.andThen (r : StepResult) (f : State → StepResult) : StepResult :=
  match r with
  | .done s => f s
  | .raised e info s => .raised e info s
  | .fault x => .fault x

/-- The end of a command: `complete` (R76), or the error latch on the state the earlier steps left (R82). -/
def StepResult.finish : StepResult → Host.Outcome State Fault Refusal
  | .done s => .next s.complete
  | .raised e info s => .next (s.latchError e info)
  | .fault x => .fault x

end Sys2Proof.Machine
end

