-- ==== Sys2Proof/Machine/Operands.lean ====
section
/-! DEFINITION. The operand forms: bits of a byte, lanes of a bus word, the channel codec and the pixel lane operations
(40_channel_codec), the traversal and its address function (43_traversal_and_embed), the operand registers as numbers,
and the bus address map (20_memory R39). -/

namespace Sys2Proof.Machine

open Sys2Proof

/-! ### Bits of a byte -/

/-- The eight stream bits of a byte, most significant bit first (R33, R65): bit `j` is `b[7-j]`. -/
def byteBits (b : Byte) : List Bool := (List.range 8).map (fun j => b.getLsbD (7 - j))

/-- The byte of a chunk of eight stream bits: the sum of `bit j * 2^(7-j)` (R66). -/
def bitsByte (bs : List Bool) : Byte :=
  BitVec.ofNat 8 ((List.range 8).map (fun j => (bs.getD j false).toNat * 2 ^ (7 - j))).sum

/-- The bits of a text, the concatenation of its bytes' bits (R65). -/
def textBits : List Byte → List Bool
  | [] => []
  | b :: bs => byteBits b ++ textBits bs

/-! ### Channel codec and pixel lanes -/

/-- `toBinary(v)`: character `k` of the 8-character string is `v[7-k]` (R60). -/
def toBinary (v : Byte) : List Bool := byteBits v

/-- `fromBinary(s)`: the sum of `s[k] * 2^(7-k)` (R60). -/
def fromBinary (bs : List Bool) : Byte := bitsByte bs

/-- `lsb(v) = v[0]` (R62). -/
def lsb (v : Byte) : Bool := v.getLsbD 0

/-- `setlsb(v, b) = v[7:1] ++ b` (R62). -/
def setlsb (v : Byte) (b : Bool) : Byte := v.extractLsb' 1 7 ++ BitVec.ofBool b

/-- Byte lane `t` of a bus or pixel word: bits `8t+7 : 8t` (R40, R41). -/
def lane (p : Word) (t : Nat) : Byte := p.extractLsb' (8 * t) 8

/-- The word of four byte lanes, lane 0 least significant (R40, R41). -/
def ofLanes (b0 b1 b2 b3 : Byte) : Word := b3 ++ b2 ++ b1 ++ b0

/-- `pack(p, b0, b1, b2)` (R63): the LSBs of R, G and B overwritten, everything else kept. -/
def pack (p : Pixel) (b0 b1 b2 : Bool) : Pixel :=
  ofLanes (setlsb (lane p 0) b0) (setlsb (lane p 1) b1) (setlsb (lane p 2) b2) (lane p 3)

/-- `unpack(p)` (R64): the LSBs of R, G and B, in that order. -/
def unpack (p : Pixel) : Bool × Bool × Bool := (lsb (lane p 0), lsb (lane p 1), lsb (lane p 2))

/-! ### Traversal -/

/-- `column(n) = n / H` (R69). -/
def column (h n : Nat) : Nat := n / h

/-- `row(n) = n % H` (R69). -/
def row (h n : Nat) : Nat := n % h

/-- The address function `a(n) = row(n) * W + column(n)` (R70). -/
def pixIndex (w h n : Nat) : Nat := row h n * w + column h n

/-- The number of groups of a grid command: `min(bits / 3, W * H)` (R71, R73). -/
def groups (bits w h : Nat) : Nat := min (bits / 3) (w * h)

/-! ### Operand registers as numbers (R10) -/

/-- `W = WIDTH[15:0]`. -/
def State.gridW (s : State) : Nat := s.width.toNat

/-- `H = HEIGHT[15:0]`. -/
def State.gridH (s : State) : Nat := s.height.toNat

/-- The group count of EMBED: `G = min(BIT_COUNT / 3, W * H)` (R71). -/
def State.embedGroups (s : State) : Nat := groups s.bitCount.toNat s.gridW s.gridH

/-- The group count of EXTRACT: `G = min(TOTAL_BITS / 3, W * H)` (R73). -/
def State.extractGroups (s : State) : Nat := groups s.totalBits.toNat s.gridW s.gridH

/-- The ERR_INFO of a geometry check (R83): the offset of WIDTH. -/
def infoGeometry : Word := 0x018

/-- The ERR_INFO of a MSG_LEN check (R83). -/
def infoMsgLen : Word := 0x020

/-- The ERR_INFO of a BIT_COUNT check (R83). -/
def infoBitCount : Word := 0x024

/-- The ERR_INFO of a TOTAL_BITS check (R83). -/
def infoTotalBits : Word := 0x028

/-! ### Bus address map -/

/-- The registers of R16. -/
inductive RegName where
  | id
  | ctrl
  | cmd
  | status
  | errCode
  | errInfo
  | width
  | height
  | msgLen
  | bitCount
  | totalBits
  | fileSize
  | outLen
  | embedCount
  | paramMsg
  | paramPix
deriving DecidableEq, Repr

/-- The offset of a register (R16). -/
def RegName.offset : RegName → Nat
  | .id => 0x000
  | .ctrl => 0x004
  | .cmd => 0x008
  | .status => 0x00C
  | .errCode => 0x010
  | .errInfo => 0x014
  | .width => 0x018
  | .height => 0x01C
  | .msgLen => 0x020
  | .bitCount => 0x024
  | .totalBits => 0x028
  | .fileSize => 0x02C
  | .outLen => 0x030
  | .embedCount => 0x034
  | .paramMsg => 0x038
  | .paramPix => 0x03C

/-- The register at word index `j` of the register block; none at a reserved offset (R16, R31). -/
def regAt : Nat → Option RegName
  | 0 => some .id
  | 1 => some .ctrl
  | 2 => some .cmd
  | 3 => some .status
  | 4 => some .errCode
  | 5 => some .errInfo
  | 6 => some .width
  | 7 => some .height
  | 8 => some .msgLen
  | 9 => some .bitCount
  | 10 => some .totalBits
  | 11 => some .fileSize
  | 12 => some .outLen
  | 13 => some .embedCount
  | 14 => some .paramMsg
  | 15 => some .paramPix
  | _ => none

/-- What an offset selects (R39): a register, word `j` of a byte window, pixel word `i`, or nothing. -/
inductive Target where
  | reg (r : RegName)
  | msg (j : Nat)
  | bit (j : Nat)
  | pix (i : Nat)
  | reserved
deriving DecidableEq, Repr

/-- First offset of the MSG window (R39). -/
def msgWindow : Nat := 0x10000

/-- First offset of the BIT window (R39). -/
def bitWindow : Nat := 0x20000

/-- First offset of the PIX window (R39). -/
def pixWindow : Nat := 0x1000000

/-- Size of the block's address range: a 25-bit byte offset (R39). -/
def blockBytes : Nat := 0x2000000

/-- The target of an aligned offset (R39). -/
def targetOf (off : Nat) : Target :=
  if off < 0x1000 then
    match regAt (off / 4) with
    | some r => .reg r
    | none => .reserved
  else if off < msgWindow then .reserved
  else if off < bitWindow then .msg ((off - msgWindow) / 4)
  else if off < 0x30000 then .bit ((off - bitWindow) / 4)
  else if off < pixWindow then .reserved
  else if off < blockBytes then .pix ((off - pixWindow) / 4)
  else .reserved

/-- The offset a bus address has in the block: the block decodes 25 bits from BASE (R9, R39); none outside. -/
def offsetOf (c : Config) (addr : Nat) : Option Nat :=
  if c.base ≤ addr ∧ addr - c.base < blockBytes then some (addr - c.base) else none

end Sys2Proof.Machine
end

