-- ==== Sys2Proof/Machine/Flags.lean ====
section
/-! DEFINITION. The flags: the STATUS and CTRL words as the host reads them, the W1C write of STATUS, and the interrupt
output (10_state R18, R20, R37; 60_exceptions R86). -/

namespace Sys2Proof.Machine

open Sys2Proof

/-- STATUS as read: BUSY, DONE, ERR and CMD_DROPPED in bits 0 to 3, the rest 0 (R20). -/
def State.statusWord (s : State) : Word :=
  (BitVec.ofBool s.cmdDropped ++ BitVec.ofBool s.err ++ BitVec.ofBool s.done ++ BitVec.ofBool s.busy).setWidth 32

/-- CTRL as read: IRQ_EN in bit 0, the rest 0; SOFT_RESET reads 0 (R18). -/
def State.ctrlWord (s : State) : Word := (BitVec.ofBool s.irqEn).setWidth 32

/-- A host write to STATUS: 1 clears DONE, ERR or CMD_DROPPED, 0 leaves it; BUSY is not writable (R20). -/
def State.w1cStatus (v : Word) (s : State) : State :=
  { s with
    done := s.done && !v.getLsbD 1
    err := s.err && !v.getLsbD 2
    cmdDropped := s.cmdDropped && !v.getLsbD 3 }

/-- `IRQ = CTRL.IRQ_EN AND (STATUS.DONE OR STATUS.ERR)` (R86). -/
def State.irq (s : State) : Bool := s.irqEn && (s.done || s.err)

/-- A CMD write while BUSY sets CMD_DROPPED (R19, R46). -/
def State.dropCommand (s : State) : State := { s with cmdDropped := true }

end Sys2Proof.Machine
end

