-- ==== Sys2Proof/Machine/Capacity.lean ====
section
/-! DEFINITION. The capacity comparator: CAPCHK (42_capacity_guard R67). -/

namespace Sys2Proof.Machine

open Sys2Proof

/-- The step CAPCHK (R67): the two products compared as exact integers. -/
def capchkStep (s : State) : StepResult :=
  if 3 * s.fileSize.toNat ≤ 8 * s.msgLen.toNat then .raised .capacityError 0 s else .done s

/-- CAPCHK (R67). -/
def execCapchk (s : State) : Host.Outcome State Fault Refusal := (capchkStep s).finish

end Sys2Proof.Machine
end

