-- ==== Sys2Proof/Machine/Converter.lean ====
section
/-! DEFINITION. The ASCII-to-bitstream converter: ENCODE and DECODE (41_text_converter R65, R66). -/

namespace Sys2Proof.Machine

open Sys2Proof

/-- What pass 1 of ENCODE finds: the text, the lowest index with a byte at or above 128, or a byte not written since
power-on before either (R65; log 15). -/
inductive Scan where
  | text (bytes : List Byte)
  | nonAscii (i : Nat)
  | unwritten (i : Nat)
deriving DecidableEq, Repr

/-- Pass 1 of ENCODE over `MSG[i .. i+n-1]`, lowest index first. -/
def scanText (at? : Nat → Option Byte) : Nat → Nat → Scan
  | _, 0 => .text []
  | i, n + 1 =>
    match at? i with
    | none => .unwritten i
    | some b =>
      if 128 ≤ b.toNat then .nonAscii i
      else
        match scanText at? (i + 1) n with
        | .text bs => .text (b :: bs)
        | .nonAscii k => .nonAscii k
        | .unwritten k => .unwritten k

/-- The step ENCODE (R65). -/
def encodeStep (r : Reader) (s : State) : StepResult :=
  if s.cfg.maxMsgBytes < s.msgLen.toNat then .raised .configError infoMsgLen s
  else
    match scanText (r.msg s.msg) 0 s.msgLen.toNat with
    | .unwritten i => .fault (.unwrittenMsg i)
    | .nonAscii i => .raised .encodingError (BitVec.ofNat 32 i) s
    | .text bs =>
      .done { s with
        bit := s.bit.writeRun 0 (textBits bs)
        bitCount := BitVec.ofNat 32 (8 * s.msgLen.toNat) }

/-- The bytes of `n` chunks of eight stream bits from chunk `k` on; the first unwritten bit's index otherwise (R66). -/
def readChunks (at? : Nat → Option Bool) : Nat → Nat → Except Nat (List Byte)
  | _, 0 => .ok []
  | k, n + 1 =>
    match readRun at? (8 * k) 8 with
    | .error i => .error i
    | .ok bs =>
      match readChunks at? (k + 1) n with
      | .error i => .error i
      | .ok rest => .ok (bitsByte bs :: rest)

/-- The step DECODE (R66). -/
def decodeStep (r : Reader) (s : State) : StepResult :=
  if s.cfg.maxBits < s.bitCount.toNat then .raised .configError infoBitCount s
  else if s.bitCount.toNat % 8 ≠ 0 then .raised .formatError s.bitCount s
  else
    match readChunks (r.bit s.bit) 0 (s.bitCount.toNat / 8) with
    | .error i => .fault (.unwrittenBit i)
    | .ok bytes =>
      .done { s with
        msg := s.msg.writeRun 0 bytes
        outLen := BitVec.ofNat 32 (s.bitCount.toNat / 8) }

/-- ENCODE (R65). -/
def execEncode (s : State) : Host.Outcome State Fault Refusal := (encodeStep .strict s).finish

/-- DECODE (R66). -/
def execDecode (s : State) : Host.Outcome State Fault Refusal := (decodeStep .strict s).finish

end Sys2Proof.Machine
end

