-- ==== Sys2Proof/Machine/Packer.lean ====
section
/-! DEFINITION. The LSB packer and unpacker over the shared traversal: EMBED (43_traversal_and_embed R71) and EXTRACT
(44_extractor R73). -/

namespace Sys2Proof.Machine

open Sys2Proof

/-- Visits `n`, `n+1`, ..., `n+g-1` of EMBED (R71): each reads its three stream bits, then its pixel word, and packs the
word in place. -/
def embedLoop (bitAt? : Nat → Option Bool) (pixAt? : Mem Pixel → Nat → Option Pixel) (w h : Nat) :
    Nat → Nat → Mem Pixel → Except Fault (Mem Pixel)
  | _, 0, m => .ok m
  | n, g + 1, m =>
    match bitAt? (3 * n), bitAt? (3 * n + 1), bitAt? (3 * n + 2), pixAt? m (pixIndex w h n) with
    | some b0, some b1, some b2, some p =>
      embedLoop bitAt? pixAt? w h (n + 1) g (m.write (pixIndex w h n) (pack p b0 b1 b2))
    | some _, some _, some _, none => .error (.unwrittenPix (pixIndex w h n))
    | some _, some _, none, _ => .error (.unwrittenBit (3 * n + 2))
    | some _, none, _, _ => .error (.unwrittenBit (3 * n + 1))
    | none, _, _, _ => .error (.unwrittenBit (3 * n))

/-- The step EMBED (R71). -/
def embedStep (r : Reader) (s : State) : StepResult :=
  if s.cfg.pixWords < s.gridW * s.gridH then .raised .configError infoGeometry s
  else if s.cfg.maxBits < s.bitCount.toNat then .raised .configError infoBitCount s
  else
    match embedLoop (r.bit s.bit) r.pix s.gridW s.gridH 0 s.embedGroups s.pix with
    | .error f => .fault f
    | .ok m => .done { s with pix := m, embedCount := BitVec.ofNat 32 (3 * s.embedGroups) }

/-- Visits `n`, `n+1`, ..., `n+g-1` of EXTRACT (R73): the bits read, in stream order; the index of the first unwritten
pixel word otherwise. -/
def extractLoop (pixAt? : Nat → Option Pixel) (w h : Nat) : Nat → Nat → Except Nat (List Bool)
  | _, 0 => .ok []
  | n, g + 1 =>
    match pixAt? (pixIndex w h n) with
    | none => .error (pixIndex w h n)
    | some p =>
      match extractLoop pixAt? w h (n + 1) g with
      | .error i => .error i
      | .ok bs => .ok ((unpack p).1 :: (unpack p).2.1 :: (unpack p).2.2 :: bs)

/-- The step EXTRACT (R73). -/
def extractStep (r : Reader) (s : State) : StepResult :=
  if s.cfg.pixWords < s.gridW * s.gridH then .raised .configError infoGeometry s
  else if s.cfg.maxBits < s.totalBits.toNat then .raised .configError infoTotalBits s
  else
    match extractLoop (r.pix s.pix) s.gridW s.gridH 0 s.extractGroups with
    | .error i => .fault (.unwrittenPix i)
    | .ok bs =>
      .done { s with
        bit := s.bit.writeRun 0 bs
        bitCount := BitVec.ofNat 32 (3 * s.extractGroups) }

/-- EMBED (R71). -/
def execEmbed (s : State) : Host.Outcome State Fault Refusal := (embedStep .strict s).finish

/-- EXTRACT (R73). -/
def execExtract (s : State) : Host.Outcome State Fault Refusal := (extractStep .strict s).finish

end Sys2Proof.Machine
end

