-- ==== Sys2Proof/Machine/Orchestration.lean ====
section
/-! DEFINITION. NOP and the composite commands ENCRYPT and DECRYPT (45_orchestration R78 to R80). -/

namespace Sys2Proof.Machine

open Sys2Proof

/-- NOP (R78): `complete` and nothing else. -/
def execNop (s : State) : Host.Outcome State Fault Refusal := (StepResult.done s).finish

/-- The two checks before the first step of a composite (R79, R80): MSG_LEN, then the geometry. -/
def compositeChecks (s : State) : StepResult :=
  if s.cfg.maxMsgBytes < s.msgLen.toNat then .raised .configError infoMsgLen s
  else if s.cfg.pixWords < s.gridW * s.gridH then .raised .configError infoGeometry s
  else .done s

/-- The composite ENCRYPT (R79): checks, CAPCHK, ENCODE, EMBED. -/
def encryptStep (r : Reader) (s : State) : StepResult :=
  (((compositeChecks s).andThen capchkStep).andThen (encodeStep r)).andThen (embedStep r)

/-- `TOTAL_BITS <- 8 * MSG_LEN` (R80). -/
def State.setBudget (s : State) : State := { s with totalBits := BitVec.ofNat 32 (8 * s.msgLen.toNat) }

/-- The composite DECRYPT (R80): checks, the bit budget, EXTRACT, DECODE. -/
def decryptStep (r : Reader) (s : State) : StepResult :=
  ((compositeChecks s).andThen (fun t => extractStep r t.setBudget)).andThen (decodeStep r)

/-- ENCRYPT (R79). -/
def execEncrypt (s : State) : Host.Outcome State Fault Refusal := (encryptStep .strict s).finish

/-- DECRYPT (R80). -/
def execDecrypt (s : State) : Host.Outcome State Fault Refusal := (decryptStep .strict s).finish

end Sys2Proof.Machine
end

