-- ==== Sys2Proof/Machine/Abort.lean ====
section
/-! DEFINITION. Soft reset, and the abort of a running command (70_reset_and_hazards R92, R93). -/

namespace Sys2Proof.Machine

open Sys2Proof

/-- What a command would do from this state, read through `r`. -/
def commandBody (r : Reader) (i : Instr) (s : State) : StepResult :=
  match i with
  | .nop => .done s
  | .encode => encodeStep r s
  | .decode => decodeStep r s
  | .capchk => capchkStep s
  | .embed => embedStep r s
  | .extract => extractStep r s
  | .encrypt => encryptStep r s
  | .decrypt => decryptStep r s

/-- The state whose memories hold every write the command would have made: those of all its steps, up to the error
that would have ended it (R93). -/
def StepResult.written (r : StepResult) (start : State) : State :=
  match r with
  | .done s => s
  | .raised _ _ s => s
  | .fault _ => start

/-- The state the running command would have left; an illegal word writes nothing (R56). -/
def State.wouldWrite (w : Word) (s : State) : State :=
  match decode w with
  | .ok i => (commandBody (Reader.settled s.powerOns) i s).written s
  | .error _ => s

/-- Each location independently: its value in `new` where the draw says so, otherwise its value in `old` (R93). -/
def Mem.blend {α : Type} (keepsNew : Nat → Bool) (old new : Mem α) : Mem α :=
  new.filterMap (fun c => if keepsNew c.1 then some c else (Mem.read? old c.1).map (fun v => (c.1, v)))

/-- The memories after an abort (R93, I2). -/
def State.abortMemories (w : Word) (s : State) : State :=
  { s with
    msg := Mem.blend (Config.abortKeepsNew s.aborts .msg) s.msg (s.wouldWrite w).msg
    bit := Mem.blend (Config.abortKeepsNew s.aborts .bit) s.bit (s.wouldWrite w).bit
    pix := Mem.blend (Config.abortKeepsNew s.aborts .pix) s.pix (s.wouldWrite w).pix
    aborts := s.aborts + 1 }

/-- Soft reset (R92): the registers at their reset values and the engine idle; the memories kept, except those a
running command would have written (R93). -/
def State.softReset (s : State) : State :=
  match s.engine with
  | .idle => s.resetRegs
  | .busy w => (s.abortMemories w).resetRegs

end Sys2Proof.Machine
end

