-- ==== Sys2Proof/Machine/Bus.lean ====
section
/-! DEFINITION. The host's bus accesses: what a read returns and what a write does, with the gating while BUSY = 1
(10_state R16 to R31; 20_memory R39 to R46). -/

namespace Sys2Proof.Machine

open Sys2Proof

/-- The constant of the ID register (R17). -/
def idValue : Word := 0x4C534231

/-! ### Reads -/

/-- The registers that read normally while BUSY = 1 (R46); every other one reads 0 then. -/
def RegName.readableBusy : RegName → Bool
  | .id => true
  | .ctrl => true
  | .status => true
  | .paramMsg => true
  | .paramPix => true
  | .cmd => false
  | .errCode => false
  | .errInfo => false
  | .width => false
  | .height => false
  | .msgLen => false
  | .bitCount => false
  | .totalBits => false
  | .fileSize => false
  | .outLen => false
  | .embedCount => false

/-- A register's value, not gated (R16 to R31). -/
def State.regValue (s : State) : RegName → Word
  | .id => idValue
  | .ctrl => s.ctrlWord
  | .cmd => 0
  | .status => s.statusWord
  | .errCode => s.errCode.setWidth 32
  | .errInfo => s.errInfo
  | .width => s.width.setWidth 32
  | .height => s.height.setWidth 32
  | .msgLen => s.msgLen
  | .bitCount => s.bitCount
  | .totalBits => s.totalBits
  | .fileSize => s.fileSize
  | .outLen => s.outLen
  | .embedCount => s.embedCount
  | .paramMsg => BitVec.ofNat 32 s.cfg.maxMsgBytes
  | .paramPix => BitVec.ofNat 32 s.cfg.pixWords

/-- What MSGMEM byte `k` holds: the byte written, or its power-on contents (R91, I1). -/
def State.msgByte (s : State) (k : Nat) : Byte := (s.msg.read? k).getD (Config.powerOnMsg s.powerOns k)

/-- What BITMEM bit `i` holds (R91, I1). -/
def State.streamBit (s : State) (i : Nat) : Bool := (s.bit.read? i).getD (Config.powerOnBit s.powerOns i)

/-- What PIXMEM word `i` holds (R91, I1). -/
def State.pixWord (s : State) (i : Nat) : Pixel := (s.pix.read? i).getD (Config.powerOnPix s.powerOns i)

/-- BITMEM byte `k`: stream bit `8k + j` is its bit `7 - j` (R33, R42). -/
def State.bitByte (s : State) (k : Nat) : Byte :=
  bitsByte ((List.range 8).map (fun j => s.streamBit (8 * k + j)))

/-- The bus word of word `j` of a byte window: byte `4j + t` in lane `t`, a lane past the memory reads 0 (R41, R44). -/
def windowWord (c : Config) (byteAt : Nat → Byte) (j : Nat) : Word :=
  let f := fun k => if k < c.maxMsgBytes then byteAt k else 0
  ofLanes (f (4 * j)) (f (4 * j + 1)) (f (4 * j + 2)) (f (4 * j + 3))

/-- A target's value, not gated. -/
def State.targetValue (s : State) : Target → Word
  | .reg r => s.regValue r
  | .msg j => windowWord s.cfg s.msgByte j
  | .bit j => windowWord s.cfg s.bitByte j
  | .pix i => if i < s.cfg.pixWords then s.pixWord i else 0
  | .reserved => 0

/-- The targets that read normally while BUSY = 1 (R46). -/
def Target.readableBusy : Target → Bool
  | .reg r => r.readableBusy
  | .msg _ => false
  | .bit _ => false
  | .pix _ => false
  | .reserved => false

/-- A host read of an aligned word at an offset: 0 while RST is high (R91), 0 for what R46 gates while BUSY = 1. -/
def State.busRead (s : State) (off : Nat) : Word :=
  if s.rst then 0
  else if s.busy && !(targetOf off).readableBusy then 0
  else s.targetValue (targetOf off)

/-! ### Writes -/

/-- A write to an operand register or a window takes effect only while BUSY = 0 (R46). -/
def State.whenIdle (s : State) (t : State) : State := if s.busy then s else t

/-- A host write to CTRL (R18): bit 1 is the soft reset, which discards the rest of the word; otherwise bit 0 is
IRQ_EN. Writable while BUSY = 1 (R46). -/
def State.writeCtrl (v : Word) (s : State) : State :=
  if v.getLsbD 1 then s.softReset else { s with irqEn := v.getLsbD 0 }

/-- A host write to CMD (R19): starts a command, or is dropped while BUSY = 1. -/
def State.writeCmd (v : Word) (s : State) : State :=
  if s.busy then s.dropCommand else s.startCommand v

/-- A host write to a register (R16 to R31, R46). -/
def State.writeReg (v : Word) (s : State) : RegName → State
  | .id => s
  | .ctrl => s.writeCtrl v
  | .cmd => s.writeCmd v
  | .status => s.w1cStatus v
  | .errCode => s
  | .errInfo => s
  | .width => s.whenIdle { s with width := v.extractLsb' 0 16 }
  | .height => s.whenIdle { s with height := v.extractLsb' 0 16 }
  | .msgLen => s.whenIdle { s with msgLen := v }
  | .bitCount => s.whenIdle { s with bitCount := v }
  | .totalBits => s.whenIdle { s with totalBits := v }
  | .fileSize => s.whenIdle { s with fileSize := v }
  | .outLen => s
  | .embedCount => s
  | .paramMsg => s
  | .paramPix => s

/-- Lane `t` of the bus word into MSGMEM byte `4j + t`; ignored past the memory (R41, R44). -/
def msgLane (c : Config) (j : Nat) (v : Word) (m : Mem Byte) (t : Nat) : Mem Byte :=
  if 4 * j + t < c.maxMsgBytes then m.write (4 * j + t) (lane v t) else m

/-- Lane `t` of the bus word into the eight bits of BITMEM byte `4j + t`; ignored past the memory (R41, R42, R44). -/
def bitLane (c : Config) (j : Nat) (v : Word) (m : Mem Bool) (t : Nat) : Mem Bool :=
  if 4 * j + t < c.maxMsgBytes then m.writeRun (8 * (4 * j + t)) (byteBits (lane v t)) else m

/-- A write to a target. -/
def State.writeTarget (v : Word) (s : State) : Target → State
  | .reg r => s.writeReg v r
  | .msg j => s.whenIdle { s with msg := [0, 1, 2, 3].foldl (msgLane s.cfg j v) s.msg }
  | .bit j => s.whenIdle { s with bit := [0, 1, 2, 3].foldl (bitLane s.cfg j v) s.bit }
  | .pix i => s.whenIdle (if i < s.cfg.pixWords then { s with pix := s.pix.write i v } else s)
  | .reserved => s

/-- A host write of an aligned word at an offset; ignored while RST is high (R91). -/
def State.busWrite (s : State) (off : Nat) (v : Word) : State :=
  if s.rst then s else s.writeTarget v (targetOf off)

/-! ### Well-formed host statements -/

/-- An access is in the bus contract: inside the block, 32 bits wide, aligned (R39, R43). -/
def accessWf (c : Config) (width : AccessWidth) (addr : Nat) : Bool :=
  match offsetOf c addr with
  | none => false
  | some off => decide (width = .word) && decide (off % 4 = 0)

/-- A host statement the step does not stop on. -/
def Input.wf (c : Config) : Input → Bool
  | .read width addr => accessWf c width addr
  | .write width addr _ => accessWf c width addr
  | .wait => true
  | .rst _ => true

end Sys2Proof.Machine
end

