-- ==== Sys2Proof/Machine/Turn.lean ====
section
/-! DEFINITION. One move of each agent: the engine ends its command (45_orchestration R75, R76; 60_exceptions R82), the
host issues its next statement (30_encoding R58, R59); and which of the two moves (20_memory R47; 70_reset_and_hazards
R102; log 6). -/

namespace Sys2Proof.Machine

open Sys2Proof

/-- The end event of a command (R75): decode the latched word and perform its rule, or raise IllegalCommand. -/
def endCommand (w : Word) (s : State) : Host.Outcome State Fault Refusal :=
  match decode w with
  | .ok i => exec i s
  | .error _ => .next (s.latchError .illegalCommand w)

/-- The engine's move: it ends its command; it does nothing while idle or while RST is high (R91). -/
def engineTurn (s : State) : Host.Outcome State Fault Refusal :=
  if s.rst then .next s
  else
    match s.engine with
    | .idle => .next s
    | .busy w => endCommand w s

/-- `RD`: the script records the value read (R58); the block's state does not change (R45). -/
def State.recordRead (s : State) (off : Nat) : State := { s with reads := (off, s.busRead off) :: s.reads }

/-- An access in the bus contract has its effect; another stops by name (R39, R43; log 9, log 10). -/
def access (width : AccessWidth) (addr : Nat) (f : Nat → State) (s : State) : Host.Outcome State Fault Refusal :=
  match offsetOf s.cfg addr with
  | none => .fault (.outsideBlock addr)
  | some off => if width = .word ∧ off % 4 = 0 then .next (f off) else .refused (.accessForm width off)

/-- `WAIT`: one read of STATUS; the statement stays first in the script while bit 0 of the value is 1 (R59). -/
def waitStep (s : State) : State :=
  let t := s.recordRead RegName.status.offset
  if (s.busRead RegName.status.offset).getLsbD 0 then { t with inputs := .wait :: t.inputs } else t

/-- One statement, already taken off the script. -/
def perform (i : Input) (s : State) : Host.Outcome State Fault Refusal :=
  match i with
  | .read width addr => access width addr s.recordRead s
  | .write width addr v => access width addr (fun off => s.busWrite off v) s
  | .wait => .next (waitStep s)
  | .rst level => .next (s.setRst level)

/-- The outside world's move: its next statement; nothing when the script is at its end. -/
def hostTurn (s : State) : Host.Outcome State Fault Refusal :=
  match s.inputs with
  | [] => .next s
  | i :: rest => perform i { s with inputs := rest }

/-- Who moves: the next agent listed; when none is listed, the engine if it runs a command, else the host. So a started
command ends (R102), and every order of a command's end against the host's statements is some list (R47, R85). -/
def State.mover (s : State) : Agent :=
  match s.turns with
  | a :: _ => a
  | [] => if s.busy && !s.rst then .engine else .host

/-- The turn is used up. -/
def State.popTurn (s : State) : State := { s with turns := s.turns.tail }

/-- One event of the total order of R47. -/
def event (s : State) : Host.Outcome State Fault Refusal :=
  match s.mover with
  | .engine => engineTurn s.popTurn
  | .host => hostTurn s.popTurn

/-- The word `w` as the engine's command, and the engine's turn next: what a host write of `w` to CMD does in an idle
block (R75), with RST low (log 11). -/
def State.placeCommand (w : Word) (s : State) : State :=
  { s.startCommand w with rst := false, turns := .engine :: s.turns }

end Sys2Proof.Machine
end

