-- ==== Sys2Proof/Machine/Step.lean ====
section
/-! DEFINITION. The step, and how the host of this pipeline places a command word where the next step runs it. -/

namespace Sys2Proof.Machine

open Sys2Proof

/-- One step: one event of the total order of 20_memory R47. -/
def step (s : State) : Host.Outcome State Fault Refusal := event s

/-- The state whose very next step runs the command word with bits `w` (log 11): the block has no fetch, a command is
started by a CMD write (R15, R75). -/
def State.withFetchWord (s : State) (nbits w : Nat) : State := s.placeCommand (tableWord nbits w)

end Sys2Proof.Machine
end

