-- ==== Sys2Proof/Machine/Script.lean ====
section
/-! DEFINITION. The statements of a host script and their expansion into bus accesses (30_encoding R58, R59). -/

namespace Sys2Proof.Machine

open Sys2Proof

/-- `<dst>` (R58): a register name, a window position, or an offset. -/
inductive Dst where
  | reg (r : RegName)
  /-- `MSG+<k>`, `k` a multiple of 4. -/
  | msg (k : Nat)
  /-- `BIT+<k>`, `k` a multiple of 4. -/
  | bit (k : Nat)
  /-- `PIX+<i>`. -/
  | pix (i : Nat)
  /-- A hexadecimal offset. -/
  | off (o : Nat)
deriving DecidableEq, Repr

/-- The offset of a `<dst>` (R58). -/
def Dst.offset : Dst → Nat
  | .reg r => r.offset
  | .msg k => msgWindow + k
  | .bit k => bitWindow + k
  | .pix i => pixWindow + 4 * i
  | .off o => o

/-- The statements and pseudo-statements of R58 and R59. -/
inductive Stmt where
  | wr (d : Dst) (v : Word)
  | rd (d : Dst)
  | cmd (i : Instr)
  | wait
  | issue (i : Instr)
  | clr
  | ldmsg (text : List Byte)
  | ldpix (i : Nat) (values : List Pixel)
  | rdpix (i count : Nat)
  | rdmsg (count : Nat)
deriving DecidableEq, Repr

/-- One 32-bit write at a `<dst>`. -/
def wrInput (c : Config) (d : Dst) (v : Word) : Input := .write .word (c.base + d.offset) v

/-- One 32-bit read at a `<dst>`. -/
def rdInput (c : Config) (d : Dst) : Input := .read .word (c.base + d.offset)

/-- The words of `LDMSG`: four characters a word, lane 0 first, 0x00 past the text's end (R59). -/
def textWord (text : List Byte) (j : Nat) : Word :=
  ofLanes (text.getD (4 * j) 0) (text.getD (4 * j + 1) 0) (text.getD (4 * j + 2) 0) (text.getD (4 * j + 3) 0)

/-- The number of words that hold `n` bytes: `ceil(n / 4)` (R59). -/
def wordsFor (n : Nat) : Nat := (n + 3) / 4

/-- The bus accesses of a statement (R58, R59). -/
def Stmt.expand (c : Config) : Stmt → List Input
  | .wr d v => [wrInput c d v]
  | .rd d => [rdInput c d]
  | .cmd i => [wrInput c (.reg .cmd) (encode i)]
  | .wait => [.wait]
  | .issue i => [wrInput c (.reg .cmd) (encode i), .wait]
  | .clr => [wrInput c (.reg .status) 0x0000000E]
  | .ldmsg text =>
    (List.range (wordsFor text.length)).map (fun j => wrInput c (.msg (4 * j)) (textWord text j)) ++
      [wrInput c (.reg .msgLen) (BitVec.ofNat 32 text.length)]
  | .ldpix i values => values.mapIdx (fun k v => wrInput c (.pix (i + k)) v)
  | .rdpix i count => (List.range count).map (fun k => rdInput c (.pix (i + k)))
  | .rdmsg count => (List.range (wordsFor count)).map (fun j => rdInput c (.msg (4 * j)))

/-- The accesses of a script, statement by statement (R58). -/
def expandScript (c : Config) (p : List Stmt) : List Input := p.flatMap (Stmt.expand c)

/-- A run starts with the whole script still to issue (R103; log 11). -/
def State.loadScript (p : List Stmt) (s : State) : State := { s with inputs := expandScript s.cfg p }

end Sys2Proof.Machine
end

