-- ==== Sys2Proof/Safety.lean ====
section
/-! DEFINITION. What the statements speak of: a step that does not stop, which locations are written, the invariant of
the block, the end of a run, and the host's contract (10_state R20; 70_reset_and_hazards R94 to R97, R103). -/

namespace Sys2Proof.Machine

open Sys2Proof

/-! ### Stops -/

/-- The state after an outcome, none where the model stops. -/
def nextState? (o : Host.Outcome State Fault Refusal) : Option State :=
  match o with
  | .next t => some t
  | .fault _ => none
  | .refused _ => none

/-- The next step has an effect: no fault and no refusal. -/
def State.goesOn (s : State) : Bool := (nextState? (step s)).isSome

/-! ### Written locations: what R94 asks of the host before a command -/

/-- The first `n` indices of a memory are all written. -/
def Mem.writtenTo {α : Type} (m : Mem α) (n : Nat) : Bool := (List.range n).all (fun i => (m.read? i).isSome)

/-- The pixel words of the first `g` visits are all written. -/
def State.visitedWritten (s : State) (g : Nat) : Bool :=
  (List.range g).all (fun n => (s.pix.read? (pixIndex s.gridW s.gridH n)).isSome)

/-- Every byte of the message is written and below 128. -/
def State.asciiText (s : State) : Bool :=
  (List.range s.msgLen.toNat).all (fun i => (s.msg.read? i).any (fun b => decide (b.toNat < 128)))

/-! ### The invariant of the block -/

/-- The three memories have their canonical form and lie inside their sizes (R32 to R34). -/
def State.memOk (s : State) : Bool :=
  (s.msg.wf && s.bit.wf && s.pix.wf) &&
  (s.msg.below s.cfg.maxMsgBytes && s.bit.below s.cfg.maxBits && s.pix.below s.cfg.pixWords)

/-- DONE and ERR are never both 1, and while BUSY = 1 both are 0 (R20). -/
def State.statusOk (s : State) : Bool := !(s.done && s.err) && (!s.busy || (!s.done && !s.err))

/-- ERR_CODE holds 0 or a code that some command raises; codes 2, 3 and 8 to 15 never occur (R81, I5). The record is
clear while a command runs and after a successful end (R21, R22, R75, R76); ERR is 1 only with a code; ERR_INFO is 0
where the code is (R22). -/
def State.errorOk (s : State) : Bool :=
  (s.errCode == 0 || s.errCode == 1 || s.errCode == 4 || s.errCode == 5 || s.errCode == 6 || s.errCode == 7) &&
  (!(s.busy || s.done) || s.errCode == 0) && (!s.err || s.errCode != 0) && (s.errCode != 0 || s.errInfo == 0)

/-- EMBED_COUNT is a multiple of 3 and fits BITMEM (R30, R71), and OUT_LEN fits MSGMEM (R29, R66). -/
def State.countsOk (s : State) : Bool :=
  decide (s.embedCount.toNat % 3 = 0) && decide (s.embedCount.toNat ≤ s.cfg.maxBits) &&
  decide (s.outLen.toNat ≤ s.cfg.maxMsgBytes)

/-- The invariant of the block. -/
abbrev State.Inv (s : State) : Prop :=
  s.cfg.wf = true ∧ s.memOk = true ∧ s.statusOk = true ∧ s.errorOk = true ∧ s.countsOk = true

/-! ### The host's contract and the end of a run -/

/-- The next host statement keeps the contract of R95 to R97: no CMD write and no operand or window write while
BUSY = 1. -/
def State.contractKept (s : State) : Bool :=
  match s.inputs with
  | [] => true
  | .read _ _ :: _ => true
  | .wait :: _ => true
  | .rst _ :: _ => true
  | .write _ addr _ :: _ =>
    match offsetOf s.cfg addr with
    | none => false
    | some off => !s.busy || targetOf off == .reg .ctrl || targetOf off == .reg .status

/-- A run has ended: its last statement is done and a read of STATUS returns BUSY = 0 (R103). -/
def State.runEnded (s : State) : Bool := s.inputs.isEmpty && !(s.busRead RegName.status.offset).getLsbD 0

end Sys2Proof.Machine
end

