-- ==== Sys2Proof/Certificates/Slice0/Obligations.lean ====
section
/-! DEFINITION. The statements for the provers, from the numbered rules of spec/. OBLIGATIONS.json lists them with their
rules and quotes. Offsets are those of 10_state R16 and 20_memory R39. -/

open Sys2Proof Sys2Proof.Machine

/-! ### Encoding -/

/-- The eight words of R55 and two illegal words, read by the decoder. -/
def Obligations.CommandWordsDecode : Prop :=
  decode 0x00000000#32 = .ok .nop ∧ decode 0x00000001#32 = .ok .encode ∧ decode 0x00000002#32 = .ok .decode ∧
  decode 0x00000003#32 = .ok .capchk ∧ decode 0x00000004#32 = .ok .embed ∧ decode 0x00000005#32 = .ok .extract ∧
  decode 0x00000006#32 = .ok .encrypt ∧ decode 0x00000007#32 = .ok .decrypt ∧
  decode 0x00000008#32 = .error (.opReserved 8) ∧ decode 0x00000010#32 = .error .mbzNonzero

/-- R55: a command is selected by the whole 32-bit word; the decoder reads command `i` from the word of `i` and from no
other word. -/
def Obligations.OnlyItsOwnWordSelectsACommand : Prop :=
  ∀ (w : Word) (i : Instr), decode w = .ok i ↔ w = encode i

/-- R57: the decoder on every word, by its MBZ field (bits 31:4) and its OP field (bits 3:0). -/
def Obligations.DecoderFollowsTheOpcodeMap : Prop :=
  ∀ w : Word,
    (w.extractLsb' 4 28 ≠ 0 → ∃ e, decode w = .error e) ∧
    (w.extractLsb' 4 28 = 0 →
      (w.extractLsb' 0 4 = 0x0 → decode w = .ok .nop) ∧ (w.extractLsb' 0 4 = 0x1 → decode w = .ok .encode) ∧
      (w.extractLsb' 0 4 = 0x2 → decode w = .ok .decode) ∧ (w.extractLsb' 0 4 = 0x3 → decode w = .ok .capchk) ∧
      (w.extractLsb' 0 4 = 0x4 → decode w = .ok .embed) ∧ (w.extractLsb' 0 4 = 0x5 → decode w = .ok .extract) ∧
      (w.extractLsb' 0 4 = 0x6 → decode w = .ok .encrypt) ∧ (w.extractLsb' 0 4 = 0x7 → decode w = .ok .decrypt) ∧
      (8 ≤ (w.extractLsb' 0 4).toNat → ∃ e, decode w = .error e))

/-! ### The life of a command -/

/-- A step in which the engine has the turn (log 6) runs the command its latched word decodes to, on the state with the
turn used up, or raises IllegalCommand; and the step after `withFetchWord` (log 11) does the same with the word placed,
with RST low, as a CMD write would have started it. -/
def Obligations.StepRunsTheLatchedCommand : Prop :=
  (∀ (s : State) (w : Word), s.rst = false → s.engine = .busy w → (s.turns = [] ∨ s.turns.head? = some .engine) →
    (∀ i, decode w = .ok i → step s = exec i { s with turns := s.turns.tail }) ∧
    (∀ e, decode w = .error e → step s =
      .next { s with turns := s.turns.tail, engine := .idle, err := true, errCode := 7, errInfo := w })) ∧
  (∀ (s : State) (nbits w : Nat) (i : Instr), decodeTableWord nbits w = some i →
    step (s.withFetchWord nbits w) =
      exec i { s with engine := .busy (encode i), done := false, err := false, errCode := 0, errInfo := 0,
                      rst := false }) ∧
  (∀ (s : State) (nbits w : Nat), nbits ≤ 32 → decodeTableWord nbits w = none →
    step (s.withFetchWord nbits w) =
      .next { s with engine := .idle, done := false, err := true, errCode := 7,
                     errInfo := BitVec.ofNat 32 (w % 2 ^ nbits), rst := false })

/-- R75: what a CMD write does while BUSY = 0, and that the engine then decodes the word and performs the command's rule
or raises IllegalCommand. -/
def Obligations.CommandStartEvent : Prop :=
  ∀ (s : State) (w : Word), s.rst = false → s.engine = .idle →
    s.busWrite 0x008 w =
      { s with engine := .busy w, done := false, err := false, errCode := 0, errInfo := 0 } ∧
    (∀ i, decode w = .ok i → engineTurn (s.busWrite 0x008 w) = exec i (s.busWrite 0x008 w)) ∧
    (∀ e, decode w = .error e → engineTurn (s.busWrite 0x008 w) =
      .next { s with engine := .idle, done := false, err := true, errCode := 7, errInfo := w })

/-- R56: every word outside R55's table, written to CMD while BUSY = 0, ends with IllegalCommand and ERR_INFO = the
word, and nothing but STATUS, ERR_CODE and ERR_INFO differs from before the write. -/
def Obligations.IllegalWordEndsWithIllegalCommand : Prop :=
  ∀ (s : State) (w : Word), (w.extractLsb' 4 28 ≠ 0 ∨ 8 ≤ (w.extractLsb' 0 4).toNat) → s.rst = false →
    s.engine = .idle →
    engineTurn (s.busWrite 0x008 w) =
      .next { s with engine := .idle, done := false, err := true, errCode := 7, errInfo := w }

/-- R19: CMD reads 0; a write while BUSY = 0 starts a command with the written word; a write while BUSY = 1 starts
nothing and sets CMD_DROPPED. -/
def Obligations.CmdRegister : Prop :=
  ∀ (s : State) (v : Word), s.busRead 0x008 = 0 ∧
    (s.rst = false → s.engine = .idle → (s.busWrite 0x008 v).engine = .busy v) ∧
    (∀ w, s.rst = false → s.engine = .busy w → s.busWrite 0x008 v = { s with cmdDropped := true })

/-- R102, with log 6: a running command ends within a bounded number of steps when RST stays low and the host has
nothing left to do: at most one more than the turns listed. -/
def Obligations.StartedCommandEnds : Prop :=
  ∀ (s : State), s.rst = false → s.busy = true → s.inputs = [] →
    ∃ k, k ≤ s.turns.length + 1 ∧
      match Host.Core.run core k s with
      | .next t => (show State from t).busy = false
      | .fault _ => True
      | .refused _ => False

/-! ### The commands: results, errors and frames -/

/-- R78: NOP, word 0, completes, and changes nothing but STATUS. -/
def Obligations.NopCompletes : Prop :=
  decode 0x00000000#32 = .ok .nop ∧ ∀ s : State, exec .nop s = .next { s with engine := .idle, done := true }

/-- R65: ENCODE, word 1. The two errors with their ERR_INFO, and the stream written most significant bit first;
everything not named is unchanged. -/
def Obligations.EncodeFollowsItsRule : Prop :=
  decode 0x00000001#32 = .ok .encode ∧ ∀ s : State,
    (s.cfg.maxMsgBytes < s.msgLen.toNat →
      exec .encode s = .next { s with engine := .idle, err := true, errCode := 6, errInfo := 0x020 }) ∧
    (∀ i, s.msgLen.toNat ≤ s.cfg.maxMsgBytes → i < s.msgLen.toNat →
      (∃ b, s.msg.read? i = some b ∧ 128 ≤ b.toNat) →
      (∀ k, k < i → ∃ b, s.msg.read? k = some b ∧ b.toNat < 128) →
      exec .encode s = .next { s with engine := .idle, err := true, errCode := 1, errInfo := BitVec.ofNat 32 i }) ∧
    (s.msgLen.toNat ≤ s.cfg.maxMsgBytes →
      (∀ i, i < s.msgLen.toNat → ∃ b, s.msg.read? i = some b ∧ b.toNat < 128) →
      ∃ t, exec .encode s = .next t ∧
        t = { s with bit := t.bit, bitCount := BitVec.ofNat 32 (8 * s.msgLen.toNat), engine := .idle, done := true } ∧
        (∀ i j, i < s.msgLen.toNat → j < 8 →
          t.bit.read? (8 * i + j) = (s.msg.read? i).map (fun b => b.getLsbD (7 - j))) ∧
        (∀ n, 8 * s.msgLen.toNat ≤ n → t.bit.read? n = s.bit.read? n))

/-- R66: DECODE, word 2. The two errors with their ERR_INFO, and the bytes of the chunks, first bit in bit 7, values 128
to 255 included; everything not named is unchanged. -/
def Obligations.DecodeFollowsItsRule : Prop :=
  decode 0x00000002#32 = .ok .decode ∧ ∀ s : State,
    (s.cfg.maxBits < s.bitCount.toNat →
      exec .decode s = .next { s with engine := .idle, err := true, errCode := 6, errInfo := 0x024 }) ∧
    (s.bitCount.toNat ≤ s.cfg.maxBits → s.bitCount.toNat % 8 ≠ 0 →
      exec .decode s = .next { s with engine := .idle, err := true, errCode := 5, errInfo := s.bitCount }) ∧
    (s.bitCount.toNat ≤ s.cfg.maxBits → s.bitCount.toNat % 8 = 0 →
      (∀ i, i < s.bitCount.toNat → ∃ b, s.bit.read? i = some b) →
      ∃ t, exec .decode s = .next t ∧
        t = { s with msg := t.msg, outLen := BitVec.ofNat 32 (s.bitCount.toNat / 8), engine := .idle, done := true } ∧
        (∀ k, k < s.bitCount.toNat / 8 → ∃ b, t.msg.read? k = some b ∧
          ∀ j, j < 8 → s.bit.read? (8 * k + j) = some (b.getLsbD (7 - j))) ∧
        (∀ k, s.bitCount.toNat / 8 ≤ k → t.msg.read? k = s.msg.read? k))

/-- R67: CAPCHK, word 3, compares `8 * MSG_LEN` with `3 * FILE_SIZE` as exact integers; it accepts or raises
CapacityError, and changes nothing but STATUS and the error record. -/
def Obligations.CapchkFollowsItsRule : Prop :=
  decode 0x00000003#32 = .ok .capchk ∧ ∀ s : State,
    (3 * s.fileSize.toNat ≤ 8 * s.msgLen.toNat →
      exec .capchk s = .next { s with engine := .idle, err := true, errCode := 4, errInfo := 0 }) ∧
    (8 * s.msgLen.toNat < 3 * s.fileSize.toNat → exec .capchk s = .next { s with engine := .idle, done := true })

/-- R71: EMBED, word 4. The two errors in their order, the visited words packed with their groups, EMBED_COUNT; every
other pixel word and everything not named is unchanged. -/
def Obligations.EmbedFollowsItsRule : Prop :=
  decode 0x00000004#32 = .ok .embed ∧ ∀ s : State,
    (s.cfg.pixWords < s.width.toNat * s.height.toNat →
      exec .embed s = .next { s with engine := .idle, err := true, errCode := 6, errInfo := 0x018 }) ∧
    (s.width.toNat * s.height.toNat ≤ s.cfg.pixWords → s.cfg.maxBits < s.bitCount.toNat →
      exec .embed s = .next { s with engine := .idle, err := true, errCode := 6, errInfo := 0x024 }) ∧
    (∀ g, g = min (s.bitCount.toNat / 3) (s.width.toNat * s.height.toNat) →
      s.width.toNat * s.height.toNat ≤ s.cfg.pixWords → s.bitCount.toNat ≤ s.cfg.maxBits →
      (∀ i, i < 3 * g → ∃ b, s.bit.read? i = some b) →
      (∀ n, n < g → ∃ p, s.pix.read? (pixIndex s.width.toNat s.height.toNat n) = some p) →
      ∃ t, exec .embed s = .next t ∧
        t = { s with pix := t.pix, embedCount := BitVec.ofNat 32 (3 * g), engine := .idle, done := true } ∧
        (∀ n, n < g → ∃ b0 b1 b2 p, s.bit.read? (3 * n) = some b0 ∧ s.bit.read? (3 * n + 1) = some b1 ∧
          s.bit.read? (3 * n + 2) = some b2 ∧ s.pix.read? (pixIndex s.width.toNat s.height.toNat n) = some p ∧
          t.pix.read? (pixIndex s.width.toNat s.height.toNat n) = some (pack p b0 b1 b2)) ∧
        (∀ a, (∀ n, n < g → pixIndex s.width.toNat s.height.toNat n ≠ a) → t.pix.read? a = s.pix.read? a))

/-- R73: EXTRACT, word 5. The two errors in their order, the bits of the visited words in R, G, B order, BIT_COUNT;
every other bit and everything not named is unchanged. -/
def Obligations.ExtractFollowsItsRule : Prop :=
  decode 0x00000005#32 = .ok .extract ∧ ∀ s : State,
    (s.cfg.pixWords < s.width.toNat * s.height.toNat →
      exec .extract s = .next { s with engine := .idle, err := true, errCode := 6, errInfo := 0x018 }) ∧
    (s.width.toNat * s.height.toNat ≤ s.cfg.pixWords → s.cfg.maxBits < s.totalBits.toNat →
      exec .extract s = .next { s with engine := .idle, err := true, errCode := 6, errInfo := 0x028 }) ∧
    (∀ g, g = min (s.totalBits.toNat / 3) (s.width.toNat * s.height.toNat) →
      s.width.toNat * s.height.toNat ≤ s.cfg.pixWords → s.totalBits.toNat ≤ s.cfg.maxBits →
      (∀ n, n < g → ∃ p, s.pix.read? (pixIndex s.width.toNat s.height.toNat n) = some p) →
      ∃ t, exec .extract s = .next t ∧
        t = { s with bit := t.bit, bitCount := BitVec.ofNat 32 (3 * g), engine := .idle, done := true } ∧
        (∀ n, n < g → ∃ p, s.pix.read? (pixIndex s.width.toNat s.height.toNat n) = some p ∧
          t.bit.read? (3 * n) = some (p.getLsbD 0) ∧ t.bit.read? (3 * n + 1) = some (p.getLsbD 8) ∧
          t.bit.read? (3 * n + 2) = some (p.getLsbD 16)) ∧
        (∀ i, 3 * g ≤ i → t.bit.read? i = s.bit.read? i))

/-- R79: ENCRYPT, word 6. Its four errors in their order, each changing nothing but STATUS and the error record; and on
success exactly ENCODE then EMBED. The configuration is legal (R9), so that BIT_COUNT holds 8L. -/
def Obligations.EncryptFollowsItsRule : Prop :=
  decode 0x00000006#32 = .ok .encrypt ∧ ∀ s : State, s.cfg.wf = true →
    (s.cfg.maxMsgBytes < s.msgLen.toNat →
      exec .encrypt s = .next { s with engine := .idle, err := true, errCode := 6, errInfo := 0x020 }) ∧
    (s.msgLen.toNat ≤ s.cfg.maxMsgBytes → s.cfg.pixWords < s.width.toNat * s.height.toNat →
      exec .encrypt s = .next { s with engine := .idle, err := true, errCode := 6, errInfo := 0x018 }) ∧
    (s.msgLen.toNat ≤ s.cfg.maxMsgBytes → s.width.toNat * s.height.toNat ≤ s.cfg.pixWords →
      3 * s.fileSize.toNat ≤ 8 * s.msgLen.toNat →
      exec .encrypt s = .next { s with engine := .idle, err := true, errCode := 4, errInfo := 0 }) ∧
    (∀ i, s.msgLen.toNat ≤ s.cfg.maxMsgBytes → s.width.toNat * s.height.toNat ≤ s.cfg.pixWords →
      8 * s.msgLen.toNat < 3 * s.fileSize.toNat → i < s.msgLen.toNat →
      (∃ b, s.msg.read? i = some b ∧ 128 ≤ b.toNat) →
      (∀ k, k < i → ∃ b, s.msg.read? k = some b ∧ b.toNat < 128) →
      exec .encrypt s = .next { s with engine := .idle, err := true, errCode := 1, errInfo := BitVec.ofNat 32 i }) ∧
    (∀ g, g = min (8 * s.msgLen.toNat / 3) (s.width.toNat * s.height.toNat) →
      s.msgLen.toNat ≤ s.cfg.maxMsgBytes → s.width.toNat * s.height.toNat ≤ s.cfg.pixWords →
      8 * s.msgLen.toNat < 3 * s.fileSize.toNat →
      (∀ i, i < s.msgLen.toNat → ∃ b, s.msg.read? i = some b ∧ b.toNat < 128) →
      (∀ n, n < g → ∃ p, s.pix.read? (pixIndex s.width.toNat s.height.toNat n) = some p) →
      ∃ u t, exec .encode s = .next u ∧ exec .embed u = .next t ∧ exec .encrypt s = .next t ∧
        t = { s with bit := u.bit, bitCount := BitVec.ofNat 32 (8 * s.msgLen.toNat), pix := t.pix,
                     embedCount := BitVec.ofNat 32 (3 * g), engine := .idle, done := true })

/-- R80: DECRYPT, word 7. ConfigError changes nothing but STATUS and the error record; otherwise TOTAL_BITS is 8L and
EXTRACT's writes stand; when the extracted count is no multiple of 8, FormatError with that count; else exactly EXTRACT
then DECODE. The configuration is legal (R9). -/
def Obligations.DecryptFollowsItsRule : Prop :=
  decode 0x00000007#32 = .ok .decrypt ∧ ∀ s : State, s.cfg.wf = true →
    (s.cfg.maxMsgBytes < s.msgLen.toNat →
      exec .decrypt s = .next { s with engine := .idle, err := true, errCode := 6, errInfo := 0x020 }) ∧
    (s.msgLen.toNat ≤ s.cfg.maxMsgBytes → s.cfg.pixWords < s.width.toNat * s.height.toNat →
      exec .decrypt s = .next { s with engine := .idle, err := true, errCode := 6, errInfo := 0x018 }) ∧
    (∀ g, g = min (8 * s.msgLen.toNat / 3) (s.width.toNat * s.height.toNat) →
      s.msgLen.toNat ≤ s.cfg.maxMsgBytes → s.width.toNat * s.height.toNat ≤ s.cfg.pixWords →
      (∀ n, n < g → ∃ p, s.pix.read? (pixIndex s.width.toNat s.height.toNat n) = some p) →
      ∃ u, exec .extract { s with totalBits := BitVec.ofNat 32 (8 * s.msgLen.toNat) } = .next u ∧
        u.bitCount = BitVec.ofNat 32 (3 * g) ∧
        (3 * g % 8 ≠ 0 → exec .decrypt s =
          .next { u with done := s.done, err := true, errCode := 5, errInfo := BitVec.ofNat 32 (3 * g) }) ∧
        (3 * g % 8 = 0 → ∃ t, exec .decode u = .next t ∧ exec .decrypt s = .next t ∧
          t = { s with totalBits := BitVec.ofNat 32 (8 * s.msgLen.toNat), bit := u.bit,
                       bitCount := BitVec.ofNat 32 (3 * g), msg := t.msg, outLen := BitVec.ofNat 32 (3 * g / 8),
                       engine := .idle, done := true }))

/-- R53: what no command touches, and which memory each command may write. -/
def Obligations.CommandsTouchOnlyTheirLocations : Prop :=
  ∀ (i : Instr) (s t : State), exec i s = .next t →
    t = { s with engine := .idle, done := t.done, err := t.err, errCode := t.errCode, errInfo := t.errInfo, msg := t.msg,
                 bit := t.bit, pix := t.pix, bitCount := t.bitCount, totalBits := t.totalBits, outLen := t.outLen,
                 embedCount := t.embedCount } ∧
    ((i ≠ .decode ∧ i ≠ .decrypt) → t.msg = s.msg ∧ t.outLen = s.outLen) ∧
    ((i ≠ .encode ∧ i ≠ .extract ∧ i ≠ .encrypt ∧ i ≠ .decrypt) → t.bit = s.bit ∧ t.bitCount = s.bitCount) ∧
    ((i ≠ .embed ∧ i ≠ .encrypt) → t.pix = s.pix ∧ t.embedCount = s.embedCount) ∧
    (i ≠ .decrypt → t.totalBits = s.totalBits) ∧
    (∀ a, s.width.toNat * s.height.toNat ≤ a → t.pix.read? a = s.pix.read? a)

/-- R81, R61: which codes a command that ends with an error can leave, by the column "raised by"; the reserved codes are
among none of them. -/
def Obligations.ErrorCodesByCommand : Prop :=
  ∀ (i : Instr) (s t : State), exec i s = .next t → s.err = false → t.err = true →
    match i with
    | .nop => False
    | .encode => t.errCode = 6 ∨ t.errCode = 1
    | .decode => t.errCode = 6 ∨ t.errCode = 5
    | .capchk => t.errCode = 4
    | .embed => t.errCode = 6
    | .extract => t.errCode = 6
    | .encrypt => t.errCode = 6 ∨ t.errCode = 4 ∨ t.errCode = 1
    | .decrypt => t.errCode = 6 ∨ t.errCode = 5

/-- R77, R82: a command other than DECRYPT that ends with an error has written nothing: only STATUS, ERR_CODE and
ERR_INFO differ. DECRYPT that ends with ConfigError the same. -/
def Obligations.ErrorEndsWriteNothing : Prop :=
  ∀ (i : Instr) (s t : State), exec i s = .next t → s.err = false → t.err = true → (i ≠ .decrypt ∨ t.errCode = 6) →
    t = { s with engine := .idle, err := true, errCode := t.errCode, errInfo := t.errInfo }

/-- R94, D36, with log 15: a command that reaches a location not written since power-on faults, by name, with the
location's index, when everything its pseudocode reads before it is written: the first such byte of a text, the first such
bit of a stream, the first such bit or pixel word of the visits, bits before the word. The composites past their checks,
in a legal configuration (R9) where their group count is 8L's. -/
def Obligations.UnwrittenReadsFault : Prop :=
  ∀ s : State,
    (∀ i, s.msgLen.toNat ≤ s.cfg.maxMsgBytes → i < s.msgLen.toNat → s.msg.read? i = none →
      (∀ k, k < i → ∃ b, s.msg.read? k = some b ∧ b.toNat < 128) → exec .encode s = .fault (.unwrittenMsg i)) ∧
    (∀ i, s.bitCount.toNat ≤ s.cfg.maxBits → s.bitCount.toNat % 8 = 0 → i < s.bitCount.toNat → s.bit.read? i = none →
      (∀ k, k < i → ∃ b, s.bit.read? k = some b) → exec .decode s = .fault (.unwrittenBit i)) ∧
    (∀ i, s.width.toNat * s.height.toNat ≤ s.cfg.pixWords → s.bitCount.toNat ≤ s.cfg.maxBits →
      i < 3 * min (s.bitCount.toNat / 3) (s.width.toNat * s.height.toNat) → s.bit.read? i = none →
      (∀ k, k < i → ∃ b, s.bit.read? k = some b) →
      (∀ n, n < i / 3 → ∃ p, s.pix.read? (pixIndex s.width.toNat s.height.toNat n) = some p) →
      exec .embed s = .fault (.unwrittenBit i)) ∧
    (∀ n, s.width.toNat * s.height.toNat ≤ s.cfg.pixWords → s.bitCount.toNat ≤ s.cfg.maxBits →
      n < min (s.bitCount.toNat / 3) (s.width.toNat * s.height.toNat) →
      s.pix.read? (pixIndex s.width.toNat s.height.toNat n) = none →
      (∀ k, k < 3 * n + 3 → ∃ b, s.bit.read? k = some b) →
      (∀ k, k < n → ∃ p, s.pix.read? (pixIndex s.width.toNat s.height.toNat k) = some p) →
      exec .embed s = .fault (.unwrittenPix (pixIndex s.width.toNat s.height.toNat n))) ∧
    (∀ n, s.width.toNat * s.height.toNat ≤ s.cfg.pixWords → s.totalBits.toNat ≤ s.cfg.maxBits →
      n < min (s.totalBits.toNat / 3) (s.width.toNat * s.height.toNat) →
      s.pix.read? (pixIndex s.width.toNat s.height.toNat n) = none →
      (∀ k, k < n → ∃ p, s.pix.read? (pixIndex s.width.toNat s.height.toNat k) = some p) →
      exec .extract s = .fault (.unwrittenPix (pixIndex s.width.toNat s.height.toNat n))) ∧
    (∀ i, s.msgLen.toNat ≤ s.cfg.maxMsgBytes → s.width.toNat * s.height.toNat ≤ s.cfg.pixWords →
      8 * s.msgLen.toNat < 3 * s.fileSize.toNat → i < s.msgLen.toNat → s.msg.read? i = none →
      (∀ k, k < i → ∃ b, s.msg.read? k = some b ∧ b.toNat < 128) → exec .encrypt s = .fault (.unwrittenMsg i)) ∧
    (∀ n, s.cfg.wf = true → s.msgLen.toNat ≤ s.cfg.maxMsgBytes → s.width.toNat * s.height.toNat ≤ s.cfg.pixWords →
      8 * s.msgLen.toNat < 3 * s.fileSize.toNat →
      (∀ i, i < s.msgLen.toNat → ∃ b, s.msg.read? i = some b ∧ b.toNat < 128) →
      n < min (8 * s.msgLen.toNat / 3) (s.width.toNat * s.height.toNat) →
      s.pix.read? (pixIndex s.width.toNat s.height.toNat n) = none →
      (∀ k, k < n → ∃ p, s.pix.read? (pixIndex s.width.toNat s.height.toNat k) = some p) →
      exec .encrypt s = .fault (.unwrittenPix (pixIndex s.width.toNat s.height.toNat n))) ∧
    (∀ n, s.cfg.wf = true → s.msgLen.toNat ≤ s.cfg.maxMsgBytes → s.width.toNat * s.height.toNat ≤ s.cfg.pixWords →
      n < min (8 * s.msgLen.toNat / 3) (s.width.toNat * s.height.toNat) →
      s.pix.read? (pixIndex s.width.toNat s.height.toNat n) = none →
      (∀ k, k < n → ∃ p, s.pix.read? (pixIndex s.width.toNat s.height.toNat k) = some p) →
      exec .decrypt s = .fault (.unwrittenPix (pixIndex s.width.toNat s.height.toNat n)))

/-- R94, D36, R53: in a legal configuration a command is never refused; it faults on nothing but an unwritten location that
its own row of R53 reads; and where it answers a next state the engine is idle and DONE or ERR is set. -/
def Obligations.CommandsFaultOnlyOnUnwrittenReads : Prop :=
  ∀ (i : Instr) (s : State), s.cfg.wf = true →
    (∀ r, exec i s ≠ .refused r) ∧
    (∀ t, exec i s = .next t → t.engine = .idle ∧ (t.done = true ∨ t.err = true)) ∧
    (∀ f, exec i s = .fault f →
      (∃ k, f = .unwrittenMsg k ∧ (i = .encode ∨ i = .encrypt) ∧ k < s.msgLen.toNat ∧ s.msg.read? k = none) ∨
      (∃ k, f = .unwrittenBit k ∧ s.bit.read? k = none ∧
        ((i = .decode ∧ k < s.bitCount.toNat) ∨
         (i = .embed ∧ k < 3 * min (s.bitCount.toNat / 3) (s.width.toNat * s.height.toNat)))) ∨
      (∃ n, f = .unwrittenPix (pixIndex s.width.toNat s.height.toNat n) ∧
        s.pix.read? (pixIndex s.width.toNat s.height.toNat n) = none ∧
        ((i = .embed ∧ n < min (s.bitCount.toNat / 3) (s.width.toNat * s.height.toNat)) ∨
         (i = .extract ∧ n < min (s.totalBits.toNat / 3) (s.width.toNat * s.height.toNat)) ∨
         ((i = .encrypt ∨ i = .decrypt) ∧
          n < min (8 * s.msgLen.toNat / 3) (s.width.toNat * s.height.toNat)))))

/-! ### The codec and the traversal -/

/-- R60: the channel codec is the identity on the eight bits; the string's characters are the bits, most significant
first; `fromBinary` is the weighted sum. -/
def Obligations.ChannelCodecIsIdentity : Prop :=
  (∀ v : Byte, fromBinary (toBinary v) = v ∧ (toBinary v).length = 8 ∧
    ∀ k, k < 8 → (toBinary v)[k]? = some (v.getLsbD (7 - k))) ∧
  (∀ b0 b1 b2 b3 b4 b5 b6 b7 : Bool, (fromBinary [b0, b1, b2, b3, b4, b5, b6, b7]).toNat =
    b0.toNat * 128 + b1.toNat * 64 + b2.toNat * 32 + b3.toNat * 16 + b4.toNat * 8 + b5.toNat * 4 + b6.toNat * 2 + b7.toNat)

/-- R62: `setlsb` changes bit 0 only and sets it. -/
def Obligations.SetlsbChangesBitZeroOnly : Prop :=
  ∀ (v : Byte) (b : Bool), setlsb v b = (v &&& 0xFE) ||| (BitVec.ofBool b).setWidth 8 ∧ lsb v = v.getLsbD 0 ∧
    (setlsb v b).extractLsb' 1 7 = v.extractLsb' 1 7 ∧ lsb (setlsb v b) = b ∧ setlsb v (lsb v) = v

/-- R63: `pack` in the rule's two forms, and the alpha lane kept. -/
def Obligations.PackFormula : Prop :=
  ∀ (p : Pixel) (b0 b1 b2 : Bool),
    pack p b0 b1 b2 =
      p.extractLsb' 24 8 ++ setlsb (p.extractLsb' 16 8) b2 ++ setlsb (p.extractLsb' 8 8) b1 ++
        setlsb (p.extractLsb' 0 8) b0 ∧
    pack p b0 b1 b2 =
      (p &&& 0xFFFEFEFE) ||| ((BitVec.ofBool b2).setWidth 32 <<< 16) ||| ((BitVec.ofBool b1).setWidth 32 <<< 8) |||
        (BitVec.ofBool b0).setWidth 32 ∧
    (pack p b0 b1 b2).extractLsb' 24 8 = p.extractLsb' 24 8

/-- R64: `unpack` gives bits 0, 8 and 16 in that order, and gives back what `pack` wrote. -/
def Obligations.UnpackReadsRedGreenBlue : Prop :=
  ∀ (p : Pixel) (b0 b1 b2 : Bool),
    unpack p = (p.getLsbD 0, p.getLsbD 8, p.getLsbD 16) ∧ unpack (pack p b0 b1 b2) = (b0, b1, b2)

/-- R70: the address function, and that it is a bijection of the visits onto the grid's words. -/
def Obligations.TraversalVisitsEveryPixelOnce : Prop :=
  ∀ w h : Nat,
    (∀ n, pixIndex w h n = n % h * w + n / h) ∧
    (∀ n, n < w * h → pixIndex w h n < w * h) ∧
    (∀ n k, n < w * h → k < w * h → pixIndex w h n = pixIndex w h k → n = k) ∧
    (∀ a, a < w * h → ∃ n, n < w * h ∧ pixIndex w h n = a)

/-- R72: the laws of EMBED. The count; group `k` in the LSBs of the pixel at column `k / H`, row `k % H`; every pixel
word's other bits unchanged; a second EMBED changes nothing more. -/
def Obligations.EmbedLaws : Prop :=
  ∀ s t : State, s.Inv → exec .embed s = .next t → t.err = false →
    t.embedCount.toNat = 3 * min (s.bitCount.toNat / 3) (s.width.toNat * s.height.toNat) ∧
    (∀ k, k < min (s.bitCount.toNat / 3) (s.width.toNat * s.height.toNat) →
      ∃ q, t.pix.read? (k % s.height.toNat * s.width.toNat + k / s.height.toNat) = some q ∧
        s.bit.read? (3 * k) = some (q.getLsbD 0) ∧ s.bit.read? (3 * k + 1) = some (q.getLsbD 8) ∧
        s.bit.read? (3 * k + 2) = some (q.getLsbD 16)) ∧
    (∀ a, (t.pix.read? a).map (fun q => q &&& 0xFFFEFEFE) = (s.pix.read? a).map (fun p => p &&& 0xFFFEFEFE)) ∧
    exec .embed t = .next t

/-- R74: a message below 128 through ENCODE, EMBED and EXTRACT with TOTAL_BITS = 8L, and the DECODE that follows, in its
three cases. The commands follow one another with no write between; their start events, which clear only flags and the
error record (`CommandStartEvent`), are left out, so DONE and ERR stay as they were. The configuration is legal (R9). -/
def Obligations.RoundTrip : Prop :=
  ∀ s : State, s.Inv → s.msgLen.toNat ≤ s.cfg.maxMsgBytes → s.width.toNat * s.height.toNat ≤ s.cfg.pixWords →
    (∀ i, i < s.msgLen.toNat → ∃ b, s.msg.read? i = some b ∧ b.toNat < 128) →
    (∀ a, a < s.width.toNat * s.height.toNat → ∃ p, s.pix.read? a = some p) →
    ∃ e m x : State, exec .encode s = .next e ∧ exec .embed e = .next m ∧
      exec .extract { m with totalBits := BitVec.ofNat 32 (8 * s.msgLen.toNat) } = .next x ∧
      x.bitCount.toNat = 3 * min (8 * s.msgLen.toNat / 3) (s.width.toNat * s.height.toNat) ∧
      (∀ i, i < x.bitCount.toNat → x.bit.read? i = e.bit.read? i) ∧
      (s.msgLen.toNat % 3 = 0 → 8 * s.msgLen.toNat / 3 ≤ s.width.toNat * s.height.toNat →
        ∃ d, exec .decode x = .next d ∧ d.err = x.err ∧ d.outLen = s.msgLen ∧
          ∀ k, k < s.msgLen.toNat → d.msg.read? k = s.msg.read? k) ∧
      (s.msgLen.toNat % 3 ≠ 0 → 8 * s.msgLen.toNat / 3 ≤ s.width.toNat * s.height.toNat →
        exec .decode x = .next
          { x with
            engine := .idle, err := true, errCode := 5
            errInfo := BitVec.ofNat 32 (8 * s.msgLen.toNat - 8 * s.msgLen.toNat % 3) }) ∧
      (s.width.toNat * s.height.toNat < 8 * s.msgLen.toNat / 3 → s.width.toNat * s.height.toNat % 8 ≠ 0 →
        exec .decode x = .next
          { x with
            engine := .idle, err := true, errCode := 5
            errInfo := BitVec.ofNat 32 (3 * (s.width.toNat * s.height.toNat)) }) ∧
      (s.width.toNat * s.height.toNat < 8 * s.msgLen.toNat / 3 → s.width.toNat * s.height.toNat % 8 = 0 →
        ∃ d, exec .decode x = .next d ∧ d.err = x.err ∧
          d.outLen.toNat = 3 * (s.width.toNat * s.height.toNat) / 8 ∧
          ∀ k, k < 3 * (s.width.toNat * s.height.toNat) / 8 → d.msg.read? k = s.msg.read? k)

/-! ### Registers, flags and the interrupt -/

/-- R16, R38: what the machine right after power-on reset reads as, at every register, and IRQ low. The two parameters
are the model's choice of configuration (log 1). -/
def Obligations.ResetRegisterValues : Prop :=
  State.reset.busRead 0x000 = 0x4C534231 ∧
  [0x004, 0x008, 0x00C, 0x010, 0x014, 0x018, 0x01C, 0x020, 0x024, 0x028, 0x02C, 0x030, 0x034].all
    (fun off => State.reset.busRead off == 0) = true ∧
  State.reset.busRead 0x038 = BitVec.ofNat 32 State.reset.cfg.maxMsgBytes ∧
  State.reset.busRead 0x03C = BitVec.ofNat 32 State.reset.cfg.pixWords ∧
  State.reset.engine = .idle ∧ State.reset.irq = false

/-- R17, R31: ID and the two parameters read their constants whenever RST is low, a write to them changes nothing, and
no step changes a parameter. -/
def Obligations.HardwiredRegisters : Prop :=
  (∀ s : State, s.rst = false → s.busRead 0x000 = 0x4C534231 ∧ s.busRead 0x038 = BitVec.ofNat 32 s.cfg.maxMsgBytes ∧
    s.busRead 0x03C = BitVec.ofNat 32 s.cfg.pixWords) ∧
  (∀ (s : State) (v : Word), s.busWrite 0x000 v = s ∧ s.busWrite 0x038 v = s ∧ s.busWrite 0x03C v = s) ∧
  (∀ s t : State, step s = .next t → t.cfg = s.cfg)

/-- R18: CTRL reads IRQ_EN in bit 0 and 0 elsewhere; a write with bit 1 = 0 sets IRQ_EN from bit 0; a write with bit 1 =
1 is the soft reset, which leaves IRQ_EN = 0 whatever bit 0 held. -/
def Obligations.CtrlRegister : Prop :=
  ∀ (s : State) (v : Word), s.rst = false →
    s.busRead 0x004 = (if s.irqEn then 1 else 0) ∧
    (v.getLsbD 1 = false → s.busWrite 0x004 v = { s with irqEn := v.getLsbD 0 }) ∧
    (v.getLsbD 1 = true → s.busWrite 0x004 v = s.softReset ∧ (s.busWrite 0x004 v).irqEn = false)

/-- R20: the four bits of STATUS as read, and its W1C write, in which BUSY is not writable. -/
def Obligations.StatusRegister : Prop :=
  ∀ (s : State) (v : Word), s.rst = false →
    (s.busRead 0x00C).getLsbD 0 = s.busy ∧ (s.busRead 0x00C).getLsbD 1 = s.done ∧
    (s.busRead 0x00C).getLsbD 2 = s.err ∧ (s.busRead 0x00C).getLsbD 3 = s.cmdDropped ∧
    (s.busRead 0x00C).extractLsb' 4 28 = 0 ∧
    s.busWrite 0x00C v = { s with done := if v.getLsbD 1 then false else s.done,
                                  err := if v.getLsbD 2 then false else s.err,
                                  cmdDropped := if v.getLsbD 3 then false else s.cmdDropped }

/-- R23 to R28: what a write to an operand register stores while BUSY = 0, and what a read of it returns: WIDTH and
HEIGHT keep 16 bits. -/
def Obligations.OperandRegisters : Prop :=
  ∀ (s : State) (v : Word), s.rst = false → s.engine = .idle →
    (s.busWrite 0x018 v = { s with width := v.setWidth 16 } ∧ s.busRead 0x018 = s.width.setWidth 32) ∧
    (s.busWrite 0x01C v = { s with height := v.setWidth 16 } ∧ s.busRead 0x01C = s.height.setWidth 32) ∧
    (s.busWrite 0x020 v = { s with msgLen := v } ∧ s.busRead 0x020 = s.msgLen) ∧
    (s.busWrite 0x024 v = { s with bitCount := v } ∧ s.busRead 0x024 = s.bitCount) ∧
    (s.busWrite 0x028 v = { s with totalBits := v } ∧ s.busRead 0x028 = s.totalBits) ∧
    (s.busWrite 0x02C v = { s with fileSize := v } ∧ s.busRead 0x02C = s.fileSize)

/-- R21, R22, R29, R30: the read-only result registers, as read while BUSY = 0, and that a write to them changes
nothing. -/
def Obligations.ResultRegistersReadOnly : Prop :=
  ∀ (s : State) (v : Word),
    (s.rst = false → s.engine = .idle → s.busRead 0x010 = s.errCode.setWidth 32 ∧ s.busRead 0x014 = s.errInfo ∧
      s.busRead 0x030 = s.outLen ∧ s.busRead 0x034 = s.embedCount) ∧
    s.busWrite 0x010 v = s ∧ s.busWrite 0x014 v = s ∧ s.busWrite 0x030 v = s ∧ s.busWrite 0x034 v = s

/-- R20, R46: CMD_DROPPED is cleared by no step but a host write of 1 to STATUS bit 3, a soft reset, or RST; a command
start and a command's end keep it. -/
def Obligations.CmdDroppedClearedOnlyByHost : Prop :=
  ∀ s t : State, step s = .next t → s.cmdDropped = true → t.cmdDropped = false →
    (∃ addr v rest, s.inputs = .write .word addr v :: rest ∧ s.cfg.base ≤ addr ∧
      ((addr - s.cfg.base = 0x00C ∧ v.getLsbD 3 = true) ∨ (addr - s.cfg.base = 0x004 ∧ v.getLsbD 1 = true))) ∨
    (∃ level rest, s.inputs = .rst level :: rest ∧ s.rst = !level)

/-- R86: the interrupt output, that every command end drives it exactly when IRQ_EN is 1, and that a command start and
a W1C write of DONE and ERR take it low. -/
def Obligations.InterruptOutput : Prop :=
  (∀ s : State, s.irq = (s.irqEn && (s.done || s.err))) ∧
  (∀ (i : Instr) (s t : State), exec i s = .next t → t.irq = s.irqEn) ∧
  (∀ (s : State) (w : Word), s.rst = false → s.engine = .idle → (s.busWrite 0x008 w).irq = false) ∧
  (∀ (s : State) (v : Word), s.rst = false → v.getLsbD 1 = true → v.getLsbD 2 = true →
    (s.busWrite 0x00C v).irq = false)

/-! ### The bus and the windows -/

/-- R45: a host read changes no state of the block; the script records the value. -/
def Obligations.ReadsHaveNoSideEffect : Prop :=
  ∀ (s t : State) (width : AccessWidth) (addr : Nat) (rest : List Input), s.inputs = .read width addr :: rest →
    s.mover = .host → step s = .next t →
    t = { s with inputs := rest, turns := s.turns.tail,
                 reads := (addr - s.cfg.base, s.busRead (addr - s.cfg.base)) :: s.reads }

/-- R43: an access that is not 32 bits wide and aligned is refused, whether a read or a write. -/
def Obligations.OtherAccessesRefused : Prop :=
  ∀ (s : State) (width : AccessWidth) (off : Nat) (v : Word) (rest : List Input), off < 0x2000000 →
    (width ≠ .word ∨ off % 4 ≠ 0) → s.mover = .host →
    (s.inputs = .read width (s.cfg.base + off) :: rest → step s = .refused (.accessForm width off)) ∧
    (s.inputs = .write width (s.cfg.base + off) v :: rest → step s = .refused (.accessForm width off))

/-- An aligned 32-bit access inside the block's range always has its effect: the step is the read or the write. -/
def Obligations.AlignedAccessesHaveTheirEffect : Prop :=
  ∀ (s : State) (off : Nat) (v : Word) (rest : List Input), off < 0x2000000 → off % 4 = 0 →
    s.mover = .host →
    (s.inputs = .read .word (s.cfg.base + off) :: rest →
      ∃ t, step s = .next t ∧ t.reads = (off, s.busRead off) :: s.reads ∧ t.inputs = rest) ∧
    (s.inputs = .write .word (s.cfg.base + off) v :: rest →
      step s = .next (State.busWrite { s with inputs := rest, turns := s.turns.tail } off v))

/-- R44: reserved offsets, and window offsets past the memories, read 0 and ignore writes, lane by lane in the last
word. -/
def Obligations.ReservedAndPastTheEndReadZero : Prop :=
  ∀ (s : State) (v : Word),
    (∀ off, (0x40 ≤ off ∧ off < 0x10000) ∨ (0x30000 ≤ off ∧ off < 0x1000000) →
      s.busRead off = 0 ∧ s.busWrite off v = s) ∧
    (∀ j, j < 0x4000 → s.cfg.maxMsgBytes ≤ 4 * j →
      s.busRead (0x10000 + 4 * j) = 0 ∧ s.busWrite (0x10000 + 4 * j) v = s ∧
      s.busRead (0x20000 + 4 * j) = 0 ∧ s.busWrite (0x20000 + 4 * j) v = s) ∧
    (∀ j t, j < 0x4000 → t < 4 → s.cfg.maxMsgBytes ≤ 4 * j + t →
      (s.busRead (0x10000 + 4 * j)).extractLsb' (8 * t) 8 = 0 ∧
      (s.busRead (0x20000 + 4 * j)).extractLsb' (8 * t) 8 = 0 ∧
      (s.busWrite (0x10000 + 4 * j) v).msg.read? (4 * j + t) = s.msg.read? (4 * j + t) ∧
      ∀ n, n < 8 → (s.busWrite (0x20000 + 4 * j) v).bit.read? (8 * (4 * j + t) + n) =
        s.bit.read? (8 * (4 * j + t) + n)) ∧
    (∀ i, i < 0x400000 → s.cfg.pixWords ≤ i →
      s.busRead (0x1000000 + 4 * i) = 0 ∧ s.busWrite (0x1000000 + 4 * i) v = s)

/-- R41, R44: the MSG window is little-endian in byte lanes, for writes and for reads, in every lane whose byte is in the
memory; bytes outside the word or past the memory, and everything else, are unchanged. -/
def Obligations.MsgWindowLittleEndian : Prop :=
  ∀ (s : State) (j : Nat) (v : Word), s.rst = false → s.engine = .idle → j < 0x4000 →
    s.busWrite (0x10000 + 4 * j) v = { s with msg := (s.busWrite (0x10000 + 4 * j) v).msg } ∧
    (∀ t, t < 4 → 4 * j + t < s.cfg.maxMsgBytes →
      (s.busWrite (0x10000 + 4 * j) v).msg.read? (4 * j + t) = some (v.extractLsb' (8 * t) 8)) ∧
    (∀ k, k < 4 * j ∨ 4 * j + 4 ≤ k ∨ s.cfg.maxMsgBytes ≤ k →
      (s.busWrite (0x10000 + 4 * j) v).msg.read? k = s.msg.read? k) ∧
    (∀ t b, t < 4 → 4 * j + t < s.cfg.maxMsgBytes → s.msg.read? (4 * j + t) = some b →
      (s.busRead (0x10000 + 4 * j)).extractLsb' (8 * t) 8 = b)

/-- R42: stream bit `i` seen through the BIT window, for writes and for reads; bits outside the word and everything else
unchanged. -/
def Obligations.BitWindowBitOrder : Prop :=
  ∀ (s : State) (i : Nat) (v : Word), s.rst = false → s.engine = .idle → i < 0x80000 → i < s.cfg.maxBits →
    s.busWrite (0x20000 + 4 * (i / 32)) v = { s with bit := (s.busWrite (0x20000 + 4 * (i / 32)) v).bit } ∧
    (s.busWrite (0x20000 + 4 * (i / 32)) v).bit.read? i = some (v.getLsbD (8 * (i / 8 % 4) + 7 - i % 8)) ∧
    (∀ b, s.bit.read? i = some b → (s.busRead (0x20000 + 4 * (i / 32))).getLsbD (8 * (i / 8 % 4) + 7 - i % 8) = b) ∧
    (∀ k, k / 32 ≠ i / 32 → (s.busWrite (0x20000 + 4 * (i / 32)) v).bit.read? k = s.bit.read? k)

/-- R39: pixel word `i` at offset `0x100_0000 + 4i`, for writes and for reads; other words unchanged. -/
def Obligations.PixWindow : Prop :=
  ∀ (s : State) (i : Nat) (v : Word), s.rst = false → s.engine = .idle → i < 0x400000 → i < s.cfg.pixWords →
    s.busWrite (0x1000000 + 4 * i) v = { s with pix := (s.busWrite (0x1000000 + 4 * i) v).pix } ∧
    (s.busWrite (0x1000000 + 4 * i) v).pix.read? i = some v ∧
    (∀ k, k ≠ i → (s.busWrite (0x1000000 + 4 * i) v).pix.read? k = s.pix.read? k) ∧
    (∀ p, s.pix.read? i = some p → s.busRead (0x1000000 + 4 * i) = p)

/-- I1, R91 with log 3: a host read of a location not written since power-on returns that location's free value, the
same at every read until the location is written. It holds whatever the free values are. -/
def Obligations.UnwrittenLocationsReadStably : Prop :=
  ∀ (s : State), s.rst = false → s.engine = .idle →
    (∀ j t, j < 0x4000 → t < 4 → 4 * j + t < s.cfg.maxMsgBytes → s.msg.read? (4 * j + t) = none →
      (s.busRead (0x10000 + 4 * j)).extractLsb' (8 * t) 8 = Config.powerOnMsg s.powerOns (4 * j + t)) ∧
    (∀ i, i < 0x80000 → i < s.cfg.maxBits → s.bit.read? i = none →
      (s.busRead (0x20000 + 4 * (i / 32))).getLsbD (8 * (i / 8 % 4) + 7 - i % 8) = Config.powerOnBit s.powerOns i) ∧
    (∀ i, i < 0x400000 → i < s.cfg.pixWords → s.pix.read? i = none →
      s.busRead (0x1000000 + 4 * i) = Config.powerOnPix s.powerOns i)

/-- R46: the gating table while BUSY = 1. -/
def Obligations.GatingWhileBusy : Prop :=
  ∀ (s : State) (w v : Word), s.rst = false → s.engine = .busy w →
    s.busRead 0x000 = 0x4C534231 ∧ s.busRead 0x004 = s.ctrlWord ∧ s.busRead 0x00C = s.statusWord ∧
    s.busRead 0x038 = BitVec.ofNat 32 s.cfg.maxMsgBytes ∧ s.busRead 0x03C = BitVec.ofNat 32 s.cfg.pixWords ∧
    (∀ off, off ∈ [0x008, 0x010, 0x014, 0x018, 0x01C, 0x020, 0x024, 0x028, 0x02C, 0x030, 0x034] → s.busRead off = 0) ∧
    (∀ off, 0x40 ≤ off → s.busRead off = 0 ∧ s.busWrite off v = s) ∧
    (∀ off, off ∈ [0x018, 0x01C, 0x020, 0x024, 0x028, 0x02C] → s.busWrite off v = s) ∧
    s.busWrite 0x004 v = (if v.getLsbD 1 then s.softReset else { s with irqEn := v.getLsbD 0 }) ∧
    s.busWrite 0x00C v = { s with done := s.done && !v.getLsbD 1, err := s.err && !v.getLsbD 2,
                                  cmdDropped := s.cmdDropped && !v.getLsbD 3 } ∧
    s.busWrite 0x008 v = { s with cmdDropped := true }

/-- R46: nothing the host writes while a command runs, but a soft reset, changes what the command computes: its end is the
same, an illegal word's too, up to IRQ_EN and CMD_DROPPED, which the writes themselves set. DONE and ERR are 0 while a
command runs (R20; the invariant `State.Inv`). -/
def Obligations.HostCannotDisturbARunningCommand : Prop :=
  ∀ (s : State) (w : Word) (off : Nat) (v : Word), s.Inv → s.engine = .busy w →
    off % 4 = 0 → ¬(off = 0x004 ∧ v.getLsbD 1 = true) →
    (s.busWrite off v).engine = .busy w ∧
    (∀ i t, decode w = .ok i → exec i s = .next t → exec i (s.busWrite off v) =
      .next { t with irqEn := (s.busWrite off v).irqEn, cmdDropped := (s.busWrite off v).cmdDropped }) ∧
    (∀ i f, decode w = .ok i → exec i s = .fault f → exec i (s.busWrite off v) = .fault f) ∧
    (∀ e, decode w = .error e → endCommand w (s.busWrite off v) =
      .next { s with engine := .idle, err := true, errCode := 7, errInfo := w,
                     irqEn := (s.busWrite off v).irqEn, cmdDropped := (s.busWrite off v).cmdDropped })

/-- R59: WAIT reads STATUS once a step, and stays first in the script exactly while the value has bit 0 set. -/
def Obligations.WaitPollsStatus : Prop :=
  ∀ (s : State) (rest : List Input), s.inputs = .wait :: rest → s.mover = .host →
    step s = .next { s with inputs := if (s.busRead 0x00C).getLsbD 0 then .wait :: rest else rest,
                            reads := (0x00C, s.busRead 0x00C) :: s.reads, turns := s.turns.tail }

/-- R58, R59: what every statement and pseudo-statement expands to, access by access, and a script's expansion; and that,
with its window positions inside the windows and a legal configuration (R9), every access is in the bus contract, so that
no step on one of them is refused. -/
def Obligations.StatementsExpandInsideTheContract : Prop :=
  [RegName.id, .ctrl, .cmd, .status, .errCode, .errInfo, .width, .height, .msgLen, .bitCount, .totalBits, .fileSize,
   .outLen, .embedCount, .paramMsg, .paramPix].map (fun r => (Dst.reg r).offset) =
    [0x000, 0x004, 0x008, 0x00C, 0x010, 0x014, 0x018, 0x01C, 0x020, 0x024, 0x028, 0x02C, 0x030, 0x034, 0x038, 0x03C] ∧
  (∀ k, (Dst.msg k).offset = 0x10000 + k ∧ (Dst.bit k).offset = 0x20000 + k ∧ (Dst.pix k).offset = 0x1000000 + 4 * k ∧
    (Dst.off k).offset = k) ∧
  ∀ c : Config,
    (∀ d v, Stmt.expand c (.wr d v) = [.write .word (c.base + d.offset) v]) ∧
    (∀ d, Stmt.expand c (.rd d) = [.read .word (c.base + d.offset)]) ∧
    (∀ i, Stmt.expand c (.cmd i) = [.write .word (c.base + 0x008) (encode i)]) ∧
    Stmt.expand c .wait = [.wait] ∧
    (∀ i, Stmt.expand c (.issue i) = [.write .word (c.base + 0x008) (encode i), .wait]) ∧
    Stmt.expand c .clr = [.write .word (c.base + 0x00C) 0x0000000E] ∧
    (∀ text : List Byte, (Stmt.expand c (.ldmsg text)).length = (text.length + 3) / 4 + 1 ∧
      (∀ j, 4 * j < text.length → ∃ w,
        (Stmt.expand c (.ldmsg text))[j]? = some (Input.write .word (c.base + (0x10000 + 4 * j)) w) ∧
        ∀ t, t < 4 → w.extractLsb' (8 * t) 8 = (text[4 * j + t]?).getD 0) ∧
      (Stmt.expand c (.ldmsg text))[(text.length + 3) / 4]? =
        some (Input.write .word (c.base + 0x020) (BitVec.ofNat 32 text.length))) ∧
    (∀ (i : Nat) (vs : List Pixel), (Stmt.expand c (.ldpix i vs)).length = vs.length ∧
      ∀ k v, vs[k]? = some v →
        (Stmt.expand c (.ldpix i vs))[k]? = some (Input.write .word (c.base + (0x1000000 + 4 * (i + k))) v)) ∧
    (∀ i n, (Stmt.expand c (.rdpix i n)).length = n ∧
      ∀ k, k < n → (Stmt.expand c (.rdpix i n))[k]? = some (Input.read .word (c.base + (0x1000000 + 4 * (i + k))))) ∧
    (∀ n, (Stmt.expand c (.rdmsg n)).length = (n + 3) / 4 ∧
      ∀ j, 4 * j < n → (Stmt.expand c (.rdmsg n))[j]? = some (Input.read .word (c.base + (0x10000 + 4 * j)))) ∧
    (expandScript c [] = [] ∧ ∀ x p, expandScript c (x :: p) = Stmt.expand c x ++ expandScript c p) ∧
    (∀ s p, State.loadScript p s = { s with inputs := expandScript s.cfg p }) ∧
    (c.wf = true →
      (∀ (d : Dst) (v : Word) (x : Input), d.offset < 0x2000000 → d.offset % 4 = 0 →
        x ∈ Stmt.expand c (.wr d v) ∨ x ∈ Stmt.expand c (.rd d) → x.wf c = true) ∧
      (∀ (i : Instr) (x : Input), x ∈ Stmt.expand c (.cmd i) ∨ x ∈ Stmt.expand c (.issue i) → x.wf c = true) ∧
      (∀ x : Input, x ∈ Stmt.expand c .clr ∨ x ∈ Stmt.expand c .wait → x.wf c = true) ∧
      (∀ (text : List Byte) (x : Input), text.length ≤ 0x10000 → x ∈ Stmt.expand c (.ldmsg text) → x.wf c = true) ∧
      (∀ (i : Nat) (vs : List Pixel) (x : Input), i + vs.length ≤ 0x400000 →
        x ∈ Stmt.expand c (.ldpix i vs) → x.wf c = true) ∧
      (∀ (i n : Nat) (x : Input), i + n ≤ 0x400000 → x ∈ Stmt.expand c (.rdpix i n) → x.wf c = true) ∧
      (∀ (n : Nat) (x : Input), n ≤ 0x10000 → x ∈ Stmt.expand c (.rdmsg n) → x.wf c = true))

/-! ### Reset -/

/-- R92: a soft reset while no command runs puts every register at its reset value and keeps the memories. -/
def Obligations.SoftResetWhileIdle : Prop :=
  ∀ (s : State) (v : Word), s.rst = false → s.engine = .idle → v.getLsbD 1 = true →
    s.busWrite 0x004 v =
      { s with irqEn := false, done := false, err := false, cmdDropped := false, errCode := 0, errInfo := 0, width := 0,
               height := 0, msgLen := 0, bitCount := 0, totalBits := 0, fileSize := 0, outLen := 0, embedCount := 0 }

/-- R93: a soft reset while a command runs ends it with no end event, puts every register at its reset value, and leaves
each location independently at its value at the command's start or at the value the command would have written; a location
outside the writes of R53 keeps its value. What the command would have written is its end's where it has one, and
`AbortedCommandWouldHaveWritten` says what it is for every command, one that reads unwritten locations included (log 5).
It holds whatever the free draws are. -/
def Obligations.SoftResetAborts : Prop :=
  ∀ (s : State) (w v : Word), s.Inv → s.rst = false → s.engine = .busy w → v.getLsbD 1 = true →
    ∃ t, s.busWrite 0x004 v = t ∧
      t = { s with engine := .idle, irqEn := false, done := false, err := false, cmdDropped := false, errCode := 0,
                   errInfo := 0, width := 0, height := 0, msgLen := 0, bitCount := 0, totalBits := 0, fileSize := 0,
                   outLen := 0, embedCount := 0, msg := t.msg, bit := t.bit, pix := t.pix, aborts := s.aborts + 1 } ∧
      (∀ k,
        t.msg.read? k = (if Config.abortKeepsNew s.aborts .msg k then (s.wouldWrite w).msg.read? k else s.msg.read? k) ∧
        t.bit.read? k = (if Config.abortKeepsNew s.aborts .bit k then (s.wouldWrite w).bit.read? k else s.bit.read? k) ∧
        t.pix.read? k = (if Config.abortKeepsNew s.aborts .pix k then (s.wouldWrite w).pix.read? k else s.pix.read? k)) ∧
      (∀ i u, decode w = .ok i → exec i s = .next u →
        (s.wouldWrite w).msg = u.msg ∧ (s.wouldWrite w).bit = u.bit ∧ (s.wouldWrite w).pix = u.pix) ∧
      (∀ e, decode w = .error e → ∀ k,
        t.msg.read? k = s.msg.read? k ∧ t.bit.read? k = s.bit.read? k ∧ t.pix.read? k = s.pix.read? k) ∧
      (∀ i, decode w = .ok i →
        (∀ k, ¬(i = .decode ∧ k < s.bitCount.toNat / 8) →
          ¬(i = .decrypt ∧ k < 3 * min (8 * s.msgLen.toNat / 3) (s.width.toNat * s.height.toNat) / 8) →
          t.msg.read? k = s.msg.read? k) ∧
        (∀ k, ¬((i = .encode ∨ i = .encrypt) ∧ k < 8 * s.msgLen.toNat) →
          ¬(i = .extract ∧ k < 3 * min (s.totalBits.toNat / 3) (s.width.toNat * s.height.toNat)) →
          ¬(i = .decrypt ∧ k < 3 * min (8 * s.msgLen.toNat / 3) (s.width.toNat * s.height.toNat)) →
          t.bit.read? k = s.bit.read? k) ∧
        (∀ a, ¬(i = .embed ∧ ∃ n, n < min (s.bitCount.toNat / 3) (s.width.toNat * s.height.toNat) ∧
            pixIndex s.width.toNat s.height.toNat n = a) →
          ¬(i = .encrypt ∧ ∃ n, n < min (8 * s.msgLen.toNat / 3) (s.width.toNat * s.height.toNat) ∧
            pixIndex s.width.toNat s.height.toNat n = a) →
          t.pix.read? a = s.pix.read? a))

/-- R91, with log 8: while RST is high reads return 0 and writes are ignored; when it falls every register holds its
reset value, the engine is idle, and the memories are unwritten. -/
def Obligations.PowerOnReset : Prop :=
  ∀ s : State, s.rst = true →
    (∀ off v, s.busRead off = 0 ∧ s.busWrite off v = s) ∧
    (∀ rest, s.inputs = .rst false :: rest → s.mover = .host →
      step s = .next { State.reset with cfg := s.cfg, inputs := rest, reads := s.reads, turns := s.turns.tail,
                                        powerOns := s.powerOns + 1, aborts := s.aborts })

/-! ### Invariants -/

/-- The invariant of the block holds right after reset. -/
def Obligations.InvariantAtReset : Prop := State.reset.Inv

/-- Every step keeps the invariant of the block: legal parameters, memories in canonical form and inside their sizes,
DONE and ERR never both 1 and both 0 while BUSY, ERR_CODE only a code that some command raises and clear while BUSY or
DONE, EMBED_COUNT a multiple of 3 (R9, R20, R21, R22, R29, R30, R81). -/
def Obligations.EveryStepKeepsTheInvariant : Prop :=
  ∀ s t : State, s.Inv → step s = .next t → t.Inv

/-! ### The order of events, and what an aborted command would have written -/

/-- R47, R102, with log 6: who moves next, and that a step is that agent's move with its turn used up; an engine's turn
while it is idle or RST is high, and a host's turn with no statement left, change nothing else. -/
def Obligations.StepIsTheMoversTurn : Prop :=
  ∀ s : State,
    (∀ a rest, s.turns = a :: rest → s.mover = a) ∧
    (s.turns = [] → s.engine = .idle ∨ s.rst = true → s.mover = .host) ∧
    (∀ w, s.turns = [] → s.engine = .busy w → s.rst = false → s.mover = .engine) ∧
    (s.mover = .engine → step s = engineTurn { s with turns := s.turns.tail }) ∧
    (s.mover = .host → step s = hostTurn { s with turns := s.turns.tail }) ∧
    (s.mover = .engine → s.engine = .idle ∨ s.rst = true → step s = .next { s with turns := s.turns.tail }) ∧
    (s.mover = .host → s.inputs = [] → step s = .next { s with turns := s.turns.tail })

/-- R93, with log 5: what a running command would have written, also where it reads locations not written since power-on:
the values of its rule, computed from what each location holds (`msgByte`, `streamBit`, `pixWord`: the value written, or
the location's free power-on value). A command whose checks fail would have written nothing. -/
def Obligations.AbortedCommandWouldHaveWritten : Prop :=
  ∀ s : State, s.cfg.wf = true →
    (∀ i j, s.msgLen.toNat ≤ s.cfg.maxMsgBytes → (∀ k, k < s.msgLen.toNat → (s.msgByte k).toNat < 128) →
      i < s.msgLen.toNat → j < 8 →
      (s.wouldWrite 1).bit.read? (8 * i + j) = some ((s.msgByte i).getLsbD (7 - j))) ∧
    (∀ k, s.msgLen.toNat ≤ s.cfg.maxMsgBytes → k < s.msgLen.toNat → 128 ≤ (s.msgByte k).toNat → s.wouldWrite 1 = s) ∧
    (s.cfg.maxMsgBytes < s.msgLen.toNat → s.wouldWrite 1 = s ∧ s.wouldWrite 6 = s ∧ s.wouldWrite 7 = s) ∧
    (∀ k, s.bitCount.toNat ≤ s.cfg.maxBits → s.bitCount.toNat % 8 = 0 → k < s.bitCount.toNat / 8 →
      ∃ b, (s.wouldWrite 2).msg.read? k = some b ∧ ∀ j, j < 8 → b.getLsbD (7 - j) = s.streamBit (8 * k + j)) ∧
    (s.cfg.maxBits < s.bitCount.toNat ∨ s.bitCount.toNat % 8 ≠ 0 → s.wouldWrite 2 = s) ∧
    (∀ n, s.width.toNat * s.height.toNat ≤ s.cfg.pixWords → s.bitCount.toNat ≤ s.cfg.maxBits →
      n < min (s.bitCount.toNat / 3) (s.width.toNat * s.height.toNat) →
      (s.wouldWrite 4).pix.read? (pixIndex s.width.toNat s.height.toNat n) =
        some (pack (s.pixWord (pixIndex s.width.toNat s.height.toNat n)) (s.streamBit (3 * n)) (s.streamBit (3 * n + 1))
          (s.streamBit (3 * n + 2)))) ∧
    (∀ n, s.width.toNat * s.height.toNat ≤ s.cfg.pixWords → s.totalBits.toNat ≤ s.cfg.maxBits →
      n < min (s.totalBits.toNat / 3) (s.width.toNat * s.height.toNat) →
      (s.wouldWrite 5).bit.read? (3 * n) = some ((s.pixWord (pixIndex s.width.toNat s.height.toNat n)).getLsbD 0) ∧
      (s.wouldWrite 5).bit.read? (3 * n + 1) = some ((s.pixWord (pixIndex s.width.toNat s.height.toNat n)).getLsbD 8) ∧
      (s.wouldWrite 5).bit.read? (3 * n + 2) = some ((s.pixWord (pixIndex s.width.toNat s.height.toNat n)).getLsbD 16)) ∧
    (s.cfg.pixWords < s.width.toNat * s.height.toNat →
      s.wouldWrite 4 = s ∧ s.wouldWrite 5 = s ∧ s.wouldWrite 6 = s ∧ s.wouldWrite 7 = s) ∧
    (s.cfg.maxBits < s.bitCount.toNat → s.wouldWrite 4 = s) ∧
    (s.cfg.maxBits < s.totalBits.toNat → s.wouldWrite 5 = s) ∧
    (s.wouldWrite 0 = s ∧ s.wouldWrite 3 = s) ∧
    (s.msgLen.toNat ≤ s.cfg.maxMsgBytes → s.width.toNat * s.height.toNat ≤ s.cfg.pixWords →
      (3 * s.fileSize.toNat ≤ 8 * s.msgLen.toNat → s.wouldWrite 6 = s) ∧
      (8 * s.msgLen.toNat < 3 * s.fileSize.toNat →
        (s.wouldWrite 6).bit = (s.wouldWrite 1).bit ∧
        ((∀ k, k < s.msgLen.toNat → (s.msgByte k).toNat < 128) →
          (s.wouldWrite 6).pix = ((s.wouldWrite 1).wouldWrite 4).pix) ∧
        (∀ k, k < s.msgLen.toNat → 128 ≤ (s.msgByte k).toNat → s.wouldWrite 6 = s)) ∧
      (s.wouldWrite 7).bit = (State.wouldWrite 5 { s with totalBits := BitVec.ofNat 32 (8 * s.msgLen.toNat) }).bit ∧
      (s.wouldWrite 7).msg =
        (State.wouldWrite 2 (State.wouldWrite 5 { s with totalBits := BitVec.ofNat 32 (8 * s.msgLen.toNat) })).msg)
end

