-- ==== Sys2Proof/Laws/Mem.lean ====
section
/-! SUPPORT. Laws of the memory operations: a read after a write, the canonical form and the size kept by every
operation, and what a run of reads answers. -/

namespace Sys2Proof.Machine

open Sys2Proof

variable {α : Type}

/-! ### Reads after writes -/

@[simp] theorem Mem.read?_nil (i : Nat) : Mem.read? ([] : Mem α) i = none := rfl

theorem Mem.read?_cons (k : Nat) (v : α) (m : Mem α) (i : Nat) :
    Mem.read? ((k, v) :: m) i = if k = i then some v else Mem.read? m i := rfl

@[simp] theorem Mem.read?_write (m : Mem α) (i : Nat) (v : α) (j : Nat) :
    (Mem.write m i v).read? j = if i = j then some v else m.read? j := by
  induction m with
  | nil => simp [Mem.write, Mem.read?]
  | cons c m ih =>
    obtain ⟨k, x⟩ := c
    simp only [Mem.write]
    split
    · simp [Mem.read?_cons]
    · split
      · subst i; simp only [Mem.read?_cons]; split <;> simp_all
      · simp only [Mem.read?_cons, ih]; split <;> split <;> simp_all

@[simp] theorem Mem.writeRun_nil (m : Mem α) (i : Nat) : m.writeRun i [] = m := rfl

theorem Mem.writeRun_cons (m : Mem α) (i : Nat) (v : α) (vs : List α) :
    m.writeRun i (v :: vs) = (m.write i v).writeRun (i + 1) vs := rfl

/-- A read after a run of writes: inside the run the unit written, outside it what was there. -/
theorem Mem.read?_writeRun (m : Mem α) (i : Nat) (vs : List α) (j : Nat) :
    (m.writeRun i vs).read? j = if i ≤ j ∧ j < i + vs.length then vs[j - i]? else m.read? j := by
  induction vs generalizing m i with
  | nil => rw [Mem.writeRun_nil, if_neg (by simp)]
  | cons v vs ih =>
    rw [Mem.writeRun_cons, ih, Mem.read?_write, List.length_cons]
    by_cases h : i = j
    · subst h; simp
    · by_cases h' : i + 1 ≤ j ∧ j < i + 1 + vs.length
      · rw [if_pos h', if_pos (by omega), show j - i = (j - (i + 1)) + 1 by omega, List.getElem?_cons_succ]
      · rw [if_neg h', if_neg h, if_neg (by omega)]

/-! ### The canonical form -/

theorem Mem.risesFrom_weaken {lo lo' : Nat} {m : Mem α} (h : Mem.risesFrom lo m = true) (hl : lo' ≤ lo) :
    Mem.risesFrom lo' m = true := by
  cases m with
  | nil => rfl
  | cons c m =>
    simp only [Mem.risesFrom, Bool.and_eq_true, decide_eq_true_eq] at h ⊢
    exact ⟨by omega, h.2⟩

theorem Mem.risesFrom_write {lo i : Nat} {m : Mem α} (v : α) (h : Mem.risesFrom lo m = true) (hi : lo < i) :
    Mem.risesFrom lo (m.write i v) = true := by
  induction m generalizing lo with
  | nil => simp [Mem.write, Mem.risesFrom, hi]
  | cons c m ih =>
    obtain ⟨k, x⟩ := c
    simp only [Mem.risesFrom, Bool.and_eq_true, decide_eq_true_eq] at h
    simp only [Mem.write]
    split
    · simp [Mem.risesFrom, h.2, *]
    · split
      · subst i; simp [Mem.risesFrom, h.2, hi]
      · simp only [Mem.risesFrom, Bool.and_eq_true, decide_eq_true_eq]
        exact ⟨h.1, ih h.2 (by omega)⟩

/-- A write keeps the canonical form. -/
theorem Mem.wf_write {m : Mem α} (h : m.wf = true) (i : Nat) (v : α) : (m.write i v).wf = true := by
  cases m with
  | nil => rfl
  | cons c m =>
    obtain ⟨k, x⟩ := c
    simp only [Mem.write]
    split
    · simpa [Mem.wf, Mem.risesFrom, *] using h
    · split
      · subst i; exact h
      · exact Mem.risesFrom_write v h (by omega)

/-- A run of writes keeps the canonical form. -/
theorem Mem.wf_writeRun {m : Mem α} (h : m.wf = true) (i : Nat) (vs : List α) : (m.writeRun i vs).wf = true := by
  induction vs generalizing m i with
  | nil => exact h
  | cons v vs ih => exact ih (Mem.wf_write h i v) (i + 1)

/-! ### The size -/

theorem Mem.below_iff {n : Nat} {m : Mem α} : m.below n = true ↔ ∀ c ∈ m, c.1 < n := by
  simp [Mem.below]

theorem Mem.below_write {n i : Nat} {m : Mem α} (h : m.below n = true) (hi : i < n) (v : α) :
    (m.write i v).below n = true := by
  rw [Mem.below_iff] at h ⊢
  induction m with
  | nil => simpa [Mem.write] using hi
  | cons c m ih =>
    obtain ⟨k, x⟩ := c
    simp only [List.mem_cons, forall_eq_or_imp] at h
    simp only [Mem.write]
    split
    · simp only [List.mem_cons, forall_eq_or_imp]; exact ⟨hi, h.1, h.2⟩
    · split
      · simp only [List.mem_cons, forall_eq_or_imp]; exact ⟨hi, h.2⟩
      · simp only [List.mem_cons, forall_eq_or_imp]; exact ⟨h.1, ih h.2⟩

theorem Mem.below_writeRun {n i : Nat} {m : Mem α} {vs : List α} (h : m.below n = true) (hi : i + vs.length ≤ n) :
    (m.writeRun i vs).below n = true := by
  induction vs generalizing m i with
  | nil => exact h
  | cons v vs ih =>
    rw [List.length_cons] at hi
    exact ih (Mem.below_write h (by omega) v) (by omega)

/-- Nothing is listed at or above the size. -/
theorem Mem.read?_of_below {n i : Nat} {m : Mem α} (h : m.below n = true) (hi : n ≤ i) : m.read? i = none := by
  rw [Mem.below_iff] at h
  induction m with
  | nil => rfl
  | cons c m ih =>
    simp only [List.mem_cons, forall_eq_or_imp] at h
    rw [Mem.read?_cons, if_neg (by omega), ih h.2]

theorem Mem.read?_isSome_of_mem {m : Mem α} {c : Nat × α} (h : c ∈ m) : (m.read? c.1).isSome = true := by
  induction m with
  | nil => simp at h
  | cons d m ih =>
    rw [Mem.read?_cons]
    rcases List.mem_cons.mp h with rfl | h
    · simp
    · split
      · rfl
      · exact ih h

theorem Mem.read?_of_risesFrom {lo i : Nat} {m : Mem α} (h : Mem.risesFrom lo m = true) (hi : i ≤ lo) :
    m.read? i = none := by
  induction m generalizing lo with
  | nil => rfl
  | cons c m ih =>
    simp only [Mem.risesFrom, Bool.and_eq_true, decide_eq_true_eq] at h
    rw [Mem.read?_cons, if_neg (by omega), ih h.2 (by omega)]

theorem Mem.wf_of_risesFrom {lo : Nat} {m : Mem α} (h : Mem.risesFrom lo m = true) : m.wf = true := by
  cases m with
  | nil => rfl
  | cons c m =>
    simp only [Mem.risesFrom, Bool.and_eq_true] at h
    exact h.2

/-- Two memories in canonical form that read the same everywhere are the same data. -/
theorem Mem.ext_of_wf {m m' : Mem α} (h : m.wf = true) (h' : m'.wf = true) (e : ∀ i, m.read? i = m'.read? i) :
    m = m' := by
  induction m generalizing m' with
  | nil =>
    cases m' with
    | nil => rfl
    | cons c m' => obtain ⟨k, v⟩ := c; have := e k; simp [Mem.read?_cons] at this
  | cons c m ih =>
    obtain ⟨k, v⟩ := c
    cases m' with
    | nil => have := e k; simp [Mem.read?_cons] at this
    | cons d m' =>
      obtain ⟨k', v'⟩ := d
      have hr : Mem.risesFrom k m = true := h
      have hr' : Mem.risesFrom k' m' = true := h'
      have hk : k = k' := by
        by_contra hne
        rcases Nat.lt_or_gt_of_ne hne with hlt | hlt
        · have := e k
          rw [Mem.read?_cons, if_pos rfl, Mem.read?_cons, if_neg (by omega),
            Mem.read?_of_risesFrom hr' (by omega)] at this
          cases this
        · have := e k'
          rw [Mem.read?_cons, if_neg (by omega), Mem.read?_cons, if_pos rfl,
            Mem.read?_of_risesFrom hr (by omega)] at this
          cases this
      subst hk
      have hv : v = v' := by have := e k; simpa [Mem.read?_cons] using this
      subst hv
      have hm : m = m' := by
        refine ih (Mem.wf_of_risesFrom hr) (Mem.wf_of_risesFrom hr') (fun i => ?_)
        by_cases hi : i ≤ k
        · rw [Mem.read?_of_risesFrom hr hi, Mem.read?_of_risesFrom hr' hi]
        · have := e i
          rwa [Mem.read?_cons, if_neg (by omega), Mem.read?_cons, if_neg (by omega)] at this
      rw [hm]

/-! ### Blending two memories after an abort -/

theorem Mem.blend_cons (f : Nat → Bool) (old : Mem α) (k : Nat) (v : α) (m : Mem α) :
    Mem.blend f old ((k, v) :: m) =
      (if f k then (k, v) :: Mem.blend f old m
       else match Mem.read? old k with
        | some x => (k, x) :: Mem.blend f old m
        | none => Mem.blend f old m) := by
  unfold Mem.blend
  rw [List.filterMap_cons]
  cases f k <;> cases Mem.read? old k <;> rfl

theorem Mem.risesFrom_blend (f : Nat → Bool) (old : Mem α) {lo : Nat} {m : Mem α} (h : Mem.risesFrom lo m = true) :
    Mem.risesFrom lo (Mem.blend f old m) = true := by
  induction m generalizing lo with
  | nil => rfl
  | cons c m ih =>
    obtain ⟨k, v⟩ := c
    simp only [Mem.risesFrom, Bool.and_eq_true, decide_eq_true_eq] at h
    rw [Mem.blend_cons]
    split
    · simp [Mem.risesFrom, h.1, ih h.2]
    · split
      · simp [Mem.risesFrom, h.1, ih h.2]
      · exact Mem.risesFrom_weaken (ih h.2) (by omega)

/-- A blend keeps the canonical form. -/
theorem Mem.wf_blend (f : Nat → Bool) (old : Mem α) {new : Mem α} (h : new.wf = true) :
    (Mem.blend f old new).wf = true := by
  cases new with
  | nil => rfl
  | cons c m =>
    obtain ⟨k, v⟩ := c
    have hm := Mem.risesFrom_blend f old (show Mem.risesFrom k m = true from h)
    rw [Mem.blend_cons]
    split
    · exact hm
    · split
      · exact hm
      · exact Mem.wf_of_risesFrom hm

theorem Mem.below_blend (f : Nat → Bool) (old : Mem α) {n : Nat} {new : Mem α} (h : new.below n = true) :
    (Mem.blend f old new).below n = true := by
  induction new with
  | nil => rfl
  | cons c m ih =>
    obtain ⟨k, v⟩ := c
    simp only [Mem.below, List.all_cons, Bool.and_eq_true] at h
    rw [Mem.blend_cons]
    split
    · simp only [Mem.below, List.all_cons, Bool.and_eq_true]; exact ⟨h.1, ih h.2⟩
    · split
      · simp only [Mem.below, List.all_cons, Bool.and_eq_true]; exact ⟨h.1, ih h.2⟩
      · exact ih h.2

/-- A location after an abort: its new value where the draw says so, otherwise its old one, for any two memories of
which the new one lists all that the old one lists. -/
theorem Mem.read?_blend (f : Nat → Bool) (old : Mem α) {new : Mem α} (hwf : new.wf = true) (i : Nat)
    (hsub : (old.read? i).isSome = true → (new.read? i).isSome = true) :
    (Mem.blend f old new).read? i = if f i then new.read? i else old.read? i := by
  have key : ∀ (m : Mem α), m.wf = true →
      (Mem.blend f old m).read? i = if f i then m.read? i else if (m.read? i).isSome then old.read? i else none := by
    intro m
    induction m with
    | nil => simp [Mem.blend]
    | cons c m ih =>
      obtain ⟨k, v⟩ := c
      intro h
      have hr : Mem.risesFrom k m = true := h
      have ih := ih (Mem.wf_of_risesFrom hr)
      rw [Mem.blend_cons, Mem.read?_cons]
      by_cases hk : k = i
      · subst hk
        cases hf : f k with
        | true => simp [Mem.read?_cons]
        | false =>
          cases ho : Mem.read? old k with
          | some x => simp [Mem.read?_cons]
          | none => simp [ih, hf, Mem.read?_of_risesFrom hr (Nat.le_refl k)]
      · rw [if_neg hk]
        split
        · rw [Mem.read?_cons, if_neg hk, ih]
        · split
          · rw [Mem.read?_cons, if_neg hk, ih]
          · rw [ih]
  rw [key new hwf]
  split
  · rfl
  · cases ho : old.read? i with
    | none => simp
    | some x => simp [hsub (by simp [ho])]

/-! ### Runs of reads -/

/-- What a run of reads answers: exactly the units at the indices, when all are there. -/
theorem readRun_ok {at? : Nat → Option α} {i n : Nat} {vs : List α} :
    readRun at? i n = .ok vs ↔ vs.length = n ∧ ∀ k, k < n → at? (i + k) = vs[k]? := by
  induction n generalizing i vs with
  | zero =>
    constructor
    · intro h; cases h; simp
    · rintro ⟨h, -⟩; rw [List.length_eq_zero_iff] at h; subst h; rfl
  | succ n ih =>
    simp only [readRun]
    constructor
    · intro h
      split at h
      · cases h
      · rename_i v hv
        split at h
        · cases h
        · rename_i ws hw
          cases h
          obtain ⟨hl, hk⟩ := ih.mp hw
          refine ⟨by simp [hl], ?_⟩
          intro k hkn
          cases k with
          | zero => simpa using hv
          | succ k => simpa [Nat.add_assoc, Nat.add_comm 1] using hk k (by omega)
    · rintro ⟨hl, hk⟩
      cases vs with
      | nil => simp at hl
      | cons v ws =>
        have h0 := hk 0 (by omega)
        simp only [Nat.add_zero, List.getElem?_cons_zero] at h0
        have hw : readRun at? (i + 1) n = .ok ws := by
          rw [ih]
          refine ⟨by simpa using hl, fun k hkn => ?_⟩
          simpa [Nat.add_assoc, Nat.add_comm 1] using hk (k + 1) (by omega)
        simp [h0, hw]

end Sys2Proof.Machine
end

