-- ==== Sys2Proof/Laws/Codec.lean ====
section
/-! SUPPORT. Laws of the operand forms: bits of a byte and of a text, lanes of a word, pack and unpack, the address
function of the traversal. -/

namespace Sys2Proof.Machine

open Sys2Proof

/-! ### Bits of a byte and of a text -/

@[simp] theorem byteBits_length (b : Byte) : (byteBits b).length = 8 := by simp [byteBits]

theorem byteBits_getElem? (b : Byte) {j : Nat} (hj : j < 8) : (byteBits b)[j]? = some (b.getLsbD (7 - j)) := by
  simp [byteBits, hj]

@[simp] theorem textBits_length (bs : List Byte) : (textBits bs).length = 8 * bs.length := by
  induction bs with
  | nil => rfl
  | cons b bs ih => rw [textBits, List.length_append, ih, byteBits_length, List.length_cons]; omega

/-- Bit `8i + j` of a text's stream is bit `7 - j` of its byte `i` (R65). -/
theorem textBits_getElem? (bs : List Byte) {i j : Nat} (hj : j < 8) :
    (textBits bs)[8 * i + j]? = bs[i]?.map (fun b => b.getLsbD (7 - j)) := by
  induction bs generalizing i with
  | nil => simp [textBits]
  | cons b bs ih =>
    rw [textBits]
    cases i with
    | zero => rw [List.getElem?_append_left (by simpa using hj)]; simpa using byteBits_getElem? b hj
    | succ i =>
      rw [List.getElem?_append_right (by simp; omega), byteBits_length,
        show 8 * (i + 1) + j - 8 = 8 * i + j by omega, ih, List.getElem?_cons_succ]

/-- The byte of eight bits holds them, first bit in bit 7 (R66). -/
theorem bitsByte_getLsbD {bs : List Bool} (h : bs.length = 8) {j : Nat} (hj : j < 8) :
    bs[j]? = some ((bitsByte bs).getLsbD (7 - j)) := by
  obtain ⟨b0, b1, b2, b3, b4, b5, b6, b7, rfl⟩ : ∃ b0 b1 b2 b3 b4 b5 b6 b7, bs = [b0, b1, b2, b3, b4, b5, b6, b7] := by
    match bs, h with
    | [b0, b1, b2, b3, b4, b5, b6, b7], _ => exact ⟨b0, b1, b2, b3, b4, b5, b6, b7, rfl⟩
  have key : ∀ b0 b1 b2 b3 b4 b5 b6 b7 : Bool, ∀ j : Fin 8,
      [b0, b1, b2, b3, b4, b5, b6, b7][j.val]? =
        some ((bitsByte [b0, b1, b2, b3, b4, b5, b6, b7]).getLsbD (7 - j.val)) := by decide
  exact key b0 b1 b2 b3 b4 b5 b6 b7 ⟨j, hj⟩

/-- Two bytes with the same eight stream bits are the same. -/
theorem byte_ext {a b : Byte} (h : ∀ j, j < 8 → a.getLsbD (7 - j) = b.getLsbD (7 - j)) : a = b := by
  apply BitVec.eq_of_getLsbD_eq
  intro i hi
  have := h (7 - i) (by omega)
  rwa [show 7 - (7 - i) = i by omega] at this

/-- A byte's stream bits give the byte back (R60). -/
theorem bitsByte_byteBits (b : Byte) : bitsByte (byteBits b) = b := by
  apply byte_ext
  intro j hj
  have h := bitsByte_getLsbD (byteBits_length b) hj
  rw [byteBits_getElem? b hj] at h
  exact (Option.some.inj h).symm

/-! ### Lanes -/

theorem ofLanes_getLsbD (b0 b1 b2 b3 : Byte) (i : Nat) :
    (ofLanes b0 b1 b2 b3).getLsbD i =
      if i < 8 then b0.getLsbD i else if i < 16 then b1.getLsbD (i - 8)
      else if i < 24 then b2.getLsbD (i - 16) else b3.getLsbD (i - 24) := by
  unfold ofLanes
  rw [BitVec.getLsbD_append, BitVec.getLsbD_append, BitVec.getLsbD_append]
  by_cases h0 : i < 8
  · rw [if_pos h0, if_pos h0]
  · rw [if_neg h0, if_neg h0]
    by_cases h1 : i < 16
    · rw [if_pos h1, if_pos (by omega)]
    · rw [if_neg h1, if_neg (by omega)]
      by_cases h2 : i < 24
      · rw [if_pos h2, if_pos (by omega), show i - 8 - 8 = i - 16 by omega]
      · rw [if_neg h2, if_neg (by omega), show i - 8 - 8 - 8 = i - 24 by omega]

theorem lane_getLsbD (p : Word) (t : Nat) {i : Nat} (hi : i < 8) : (lane p t).getLsbD i = p.getLsbD (8 * t + i) := by
  simp [lane, hi]

theorem lane_ofLanes (b0 b1 b2 b3 : Byte) :
    lane (ofLanes b0 b1 b2 b3) 0 = b0 ∧ lane (ofLanes b0 b1 b2 b3) 1 = b1 ∧
    lane (ofLanes b0 b1 b2 b3) 2 = b2 ∧ lane (ofLanes b0 b1 b2 b3) 3 = b3 := by
  refine ⟨?_, ?_, ?_, ?_⟩ <;> apply BitVec.eq_of_getLsbD_eq <;> intro i hi <;>
    rw [lane_getLsbD _ _ hi, ofLanes_getLsbD]
  · rw [if_pos (by omega), Nat.mul_zero, Nat.zero_add]
  · rw [if_neg (by omega), if_pos (by omega), show 8 * 1 + i - 8 = i by omega]
  · rw [if_neg (by omega), if_neg (by omega), if_pos (by omega), show 8 * 2 + i - 16 = i by omega]
  · rw [if_neg (by omega), if_neg (by omega), if_neg (by omega), show 8 * 3 + i - 24 = i by omega]

/-- A word is the word of its four lanes. -/
theorem ofLanes_lanes (p : Word) : ofLanes (lane p 0) (lane p 1) (lane p 2) (lane p 3) = p := by
  apply BitVec.eq_of_getLsbD_eq
  intro i hi
  rw [ofLanes_getLsbD]
  split
  · rw [lane_getLsbD _ _ (by omega), Nat.mul_zero, Nat.zero_add]
  · split
    · rw [lane_getLsbD _ _ (by omega), show 8 * 1 + (i - 8) = i by omega]
    · split
      · rw [lane_getLsbD _ _ (by omega), show 8 * 2 + (i - 16) = i by omega]
      · rw [lane_getLsbD _ _ (by omega), show 8 * 3 + (i - 24) = i by omega]

theorem lsb_setlsb (v : Byte) (b : Bool) : lsb (setlsb v b) = b := by
  revert v b; decide

theorem setlsb_setlsb (v : Byte) (a b : Bool) : setlsb (setlsb v a) b = setlsb v b := by
  revert v a b; decide

/-- What `pack` wrote, `unpack` reads (R64). -/
theorem unpack_pack (p : Pixel) (b0 b1 b2 : Bool) : unpack (pack p b0 b1 b2) = (b0, b1, b2) := by
  unfold unpack pack
  obtain ⟨h0, h1, h2, -⟩ := lane_ofLanes (setlsb (lane p 0) b0) (setlsb (lane p 1) b1) (setlsb (lane p 2) b2) (lane p 3)
  rw [h0, h1, h2, lsb_setlsb, lsb_setlsb, lsb_setlsb]

/-- A second `pack` replaces the first: with the same bits it changes nothing (R62, R72). -/
theorem pack_pack (p : Pixel) (a0 a1 a2 b0 b1 b2 : Bool) : pack (pack p a0 a1 a2) b0 b1 b2 = pack p b0 b1 b2 := by
  unfold pack
  obtain ⟨h0, h1, h2, h3⟩ :=
    lane_ofLanes (setlsb (lane p 0) a0) (setlsb (lane p 1) a1) (setlsb (lane p 2) a2) (lane p 3)
  rw [h0, h1, h2, h3, setlsb_setlsb, setlsb_setlsb, setlsb_setlsb]

/-! ### Traversal -/

/-- A visit below `W * H` reaches a word below `W * H` (R70). -/
theorem pixIndex_lt {w h n : Nat} (hn : n < w * h) : pixIndex w h n < w * h := by
  have hh : 0 < h := Nat.pos_of_ne_zero (by rintro rfl; simp at hn)
  have h1 : n % h < h := Nat.mod_lt _ hh
  have h2 : n / h < w := by rw [Nat.div_lt_iff_lt_mul hh]; exact hn
  unfold pixIndex row column
  calc n % h * w + n / h < n % h * w + w := by omega
    _ = (n % h + 1) * w := by ring
    _ ≤ h * w := Nat.mul_le_mul_right w h1
    _ = w * h := Nat.mul_comm h w

/-- Different visits reach different words (R70). -/
theorem pixIndex_inj {w h n k : Nat} (hn : n < w * h) (hk : k < w * h) (e : pixIndex w h n = pixIndex w h k) : n = k := by
  have hh : 0 < h := Nat.pos_of_ne_zero (by rintro rfl; simp at hn)
  have hw : 0 < w := Nat.pos_of_ne_zero (by rintro rfl; simp at hn)
  have h1 : n / h < w := by rw [Nat.div_lt_iff_lt_mul hh]; exact hn
  have h2 : k / h < w := by rw [Nat.div_lt_iff_lt_mul hh]; exact hk
  unfold pixIndex row column at e
  have em : n % h = k % h := by
    have a := congrArg (· / w) e
    simpa [Nat.add_comm, Nat.add_mul_div_right, hw, Nat.div_eq_of_lt, h1, h2] using a
  have ed : n / h = k / h := by rw [em] at e; omega
  rw [← Nat.div_add_mod n h, ← Nat.div_add_mod k h, em, ed]

theorem groups_le_cells (bits w h : Nat) : groups bits w h ≤ w * h := Nat.min_le_right _ _

/-- The groups' bits lie inside the bits. -/
theorem three_groups_le (bits w h : Nat) : 3 * groups bits w h ≤ bits := by
  have := Nat.min_le_left (bits / 3) (w * h)
  unfold groups; omega

end Sys2Proof.Machine
end

