-- ==== Sys2Proof/Laws/Loops.lean ====
section
/-! SUPPORT. One lemma per loop of the engine that says everything the loop can answer. -/

namespace Sys2Proof.Machine

open Sys2Proof

/-! ### Pass 1 of ENCODE (R65) -/

theorem scanText_succ (at? : Nat → Option Byte) (i n : Nat) :
    scanText at? i (n + 1) =
      match at? i with
      | none => .unwritten i
      | some b =>
        if 128 ≤ b.toNat then .nonAscii i
        else
          match scanText at? (i + 1) n with
          | .text bs => .text (b :: bs)
          | .nonAscii k => .nonAscii k
          | .unwritten k => .unwritten k := rfl

/-- The scan finds a text exactly when every byte is there and below 128. -/
theorem scanText_text {at? : Nat → Option Byte} {i n : Nat} {bs : List Byte} :
    scanText at? i n = .text bs ↔
      bs.length = n ∧ (∀ k, k < n → at? (i + k) = bs[k]?) ∧ ∀ b ∈ bs, b.toNat < 128 := by
  induction n generalizing i bs with
  | zero =>
    constructor
    · intro h; cases h; simp
    · rintro ⟨h, -, -⟩; rw [List.length_eq_zero_iff] at h; subst h; rfl
  | succ n ih =>
    rw [scanText_succ]
    constructor
    · intro h
      split at h
      · cases h
      · rename_i b hb
        split at h
        · cases h
        · rename_i hlt
          split at h
          · rename_i cs hcs
            cases h
            obtain ⟨hl, hk, ha⟩ := ih.mp hcs
            refine ⟨by simp [hl], ?_, ?_⟩
            · intro k hkn
              cases k with
              | zero => simpa using hb
              | succ k => simpa [Nat.add_assoc, Nat.add_comm 1] using hk k (by omega)
            · intro c hc
              rcases List.mem_cons.mp hc with rfl | hc
              · omega
              · exact ha c hc
          · cases h
          · cases h
    · rintro ⟨hl, hk, ha⟩
      cases bs with
      | nil => simp at hl
      | cons b cs =>
        have h0 := hk 0 (by omega)
        simp only [Nat.add_zero, List.getElem?_cons_zero] at h0
        have hb : b.toNat < 128 := ha b (by simp)
        have hcs : scanText at? (i + 1) n = .text cs := by
          rw [ih]
          refine ⟨by simpa using hl, fun k hkn => ?_, fun c hc => ha c (by simp [hc])⟩
          simpa [Nat.add_assoc, Nat.add_comm 1] using hk (k + 1) (by omega)
        simp [h0, hcs, Nat.not_le.mpr hb]

/-- The scan stops at the lowest index with a byte at or above 128, when all before it are there and below. -/
theorem scanText_nonAscii {at? : Nat → Option Byte} {i n j : Nat} :
    scanText at? i n = .nonAscii j ↔
      i ≤ j ∧ j < i + n ∧ (∃ b, at? j = some b ∧ 128 ≤ b.toNat) ∧
      ∀ k, i ≤ k → k < j → ∃ b, at? k = some b ∧ b.toNat < 128 := by
  induction n generalizing i with
  | zero =>
    constructor
    · intro h; cases h
    · rintro ⟨h1, h2, -⟩; omega
  | succ n ih =>
    rw [scanText_succ]
    cases hb : at? i with
    | none =>
      constructor
      · intro h; cases h
      · rintro ⟨h1, h2, ⟨b, hj, -⟩, hall⟩
        rcases Nat.eq_or_lt_of_le h1 with rfl | hlt
        · rw [hb] at hj; cases hj
        · obtain ⟨b, hk, -⟩ := hall i (Nat.le_refl i) hlt; rw [hb] at hk; cases hk
    | some b =>
      by_cases hge : 128 ≤ b.toNat
      · simp only [if_pos hge]
        constructor
        · intro h; cases h
          exact ⟨Nat.le_refl _, by omega, ⟨b, hb, hge⟩, fun k _ _ => by omega⟩
        · rintro ⟨h1, h2, -, hall⟩
          rcases Nat.eq_or_lt_of_le h1 with rfl | hlt
          · rfl
          · obtain ⟨c, hc, hlt'⟩ := hall i (Nat.le_refl i) hlt
            rw [hb] at hc; cases hc; omega
      · simp only [if_neg hge]
        have step : (match scanText at? (i + 1) n with
            | .text bs => Scan.text (b :: bs) | .nonAscii k => .nonAscii k | .unwritten k => .unwritten k) = .nonAscii j
            ↔ scanText at? (i + 1) n = .nonAscii j := by
          cases scanText at? (i + 1) n <;> simp
        rw [step, ih]
        constructor
        · rintro ⟨h1, h2, h3, h4⟩
          refine ⟨by omega, by omega, h3, fun k hk hkj => ?_⟩
          rcases Nat.eq_or_lt_of_le hk with rfl | hlt
          · exact ⟨b, hb, by omega⟩
          · exact h4 k hlt hkj
        · rintro ⟨h1, h2, ⟨c, hc, hge'⟩, h4⟩
          have hij : i ≠ j := by rintro rfl; rw [hb] at hc; cases hc; exact hge hge'
          exact ⟨by omega, by omega, ⟨c, hc, hge'⟩, fun k hk hkj => h4 k (by omega) hkj⟩

/-- The scan faults at the lowest index not written, when all before it are there and below 128. -/
theorem scanText_unwritten {at? : Nat → Option Byte} {i n j : Nat} :
    scanText at? i n = .unwritten j ↔
      i ≤ j ∧ j < i + n ∧ at? j = none ∧ ∀ k, i ≤ k → k < j → ∃ b, at? k = some b ∧ b.toNat < 128 := by
  induction n generalizing i with
  | zero =>
    constructor
    · intro h; cases h
    · rintro ⟨h1, h2, -⟩; omega
  | succ n ih =>
    rw [scanText_succ]
    cases hb : at? i with
    | none =>
      constructor
      · intro h; cases h; exact ⟨Nat.le_refl _, by omega, hb, fun k _ _ => by omega⟩
      · rintro ⟨h1, h2, -, hall⟩
        rcases Nat.eq_or_lt_of_le h1 with rfl | hlt
        · rfl
        · obtain ⟨c, hc, -⟩ := hall i (Nat.le_refl i) hlt; rw [hb] at hc; cases hc
    | some b =>
      by_cases hge : 128 ≤ b.toNat
      · simp only [if_pos hge]
        constructor
        · intro h; cases h
        · rintro ⟨h1, h2, hj, hall⟩
          rcases Nat.eq_or_lt_of_le h1 with rfl | hlt
          · rw [hb] at hj; cases hj
          · obtain ⟨c, hc, hlt'⟩ := hall i (Nat.le_refl i) hlt; rw [hb] at hc; cases hc; omega
      · simp only [if_neg hge]
        have step : (match scanText at? (i + 1) n with
            | .text bs => Scan.text (b :: bs) | .nonAscii k => .nonAscii k | .unwritten k => .unwritten k) = .unwritten j
            ↔ scanText at? (i + 1) n = .unwritten j := by
          cases scanText at? (i + 1) n <;> simp
        rw [step, ih]
        constructor
        · rintro ⟨h1, h2, h3, h4⟩
          refine ⟨by omega, by omega, h3, fun k hk hkj => ?_⟩
          rcases Nat.eq_or_lt_of_le hk with rfl | hlt
          · exact ⟨b, hb, by omega⟩
          · exact h4 k hlt hkj
        · rintro ⟨h1, h2, h3, h4⟩
          have hij : i ≠ j := by rintro rfl; rw [hb] at h3; cases h3
          exact ⟨by omega, by omega, h3, fun k hk hkj => h4 k (by omega) hkj⟩

/-! ### The chunks of DECODE (R66) -/

/-- The chunks read are bytes exactly when every bit is there, and a byte holds its chunk first bit in bit 7. -/
theorem readChunks_ok {at? : Nat → Option Bool} {k n : Nat} {bytes : List Byte} :
    readChunks at? k n = .ok bytes ↔
      bytes.length = n ∧
      ∀ c, c < n → ∀ j, j < 8 → at? (8 * (k + c) + j) = bytes[c]?.map (fun b => b.getLsbD (7 - j)) := by
  induction n generalizing k bytes with
  | zero =>
    constructor
    · intro h; cases h; simp
    · rintro ⟨h, -⟩; rw [List.length_eq_zero_iff] at h; subst h; rfl
  | succ n ih =>
    simp only [readChunks]
    constructor
    · intro h
      split at h
      · cases h
      · rename_i bs hbs
        split at h
        · cases h
        · rename_i rest hrest
          cases h
          obtain ⟨hl, hk⟩ := readRun_ok.mp hbs
          obtain ⟨hl', hk'⟩ := ih.mp hrest
          refine ⟨by simp [hl'], ?_⟩
          intro c hc j hj
          cases c with
          | zero => simpa [hk j hj] using bitsByte_getLsbD hl hj
          | succ c =>
            have := hk' c (by omega) j hj
            simpa [Nat.add_assoc, Nat.add_comm 1] using this
    · rintro ⟨hl, hk⟩
      cases bytes with
      | nil => simp at hl
      | cons b rest =>
        have h0 : readRun at? (8 * k) 8 = .ok (byteBits b) := by
          rw [readRun_ok]
          refine ⟨byteBits_length b, fun j hj => ?_⟩
          rw [byteBits_getElem? b hj]
          simpa using hk 0 (by omega) j hj
        have hr : readChunks at? (k + 1) n = .ok rest := by
          rw [ih]
          refine ⟨by simpa using hl, fun c hc j hj => ?_⟩
          simpa [Nat.add_assoc, Nat.add_comm 1] using hk (c + 1) (by omega) j hj
        simp [h0, hr, bitsByte_byteBits]

/-! ### The visits of EMBED (R71) -/

theorem embedLoop_succ (bitAt? : Nat → Option Bool) (pixAt? : Mem Pixel → Nat → Option Pixel) (w h n g : Nat)
    (m : Mem Pixel) {b0 b1 b2 : Bool} {p : Pixel} (h0 : bitAt? (3 * n) = some b0) (h1 : bitAt? (3 * n + 1) = some b1)
    (h2 : bitAt? (3 * n + 2) = some b2) (hp : pixAt? m (pixIndex w h n) = some p) :
    embedLoop bitAt? pixAt? w h n (g + 1) m =
      embedLoop bitAt? pixAt? w h (n + 1) g (m.write (pixIndex w h n) (pack p b0 b1 b2)) := by
  simp only [embedLoop, h0, h1, h2, hp]

/-- A visit that goes on had its three bits and its pixel word. -/
theorem embedLoop_succ_ok {bitAt? : Nat → Option Bool} {pixAt? : Mem Pixel → Nat → Option Pixel} {w h n g : Nat}
    {m m' : Mem Pixel} (hr : embedLoop bitAt? pixAt? w h n (g + 1) m = .ok m') :
    ∃ b0 b1 b2 p, bitAt? (3 * n) = some b0 ∧ bitAt? (3 * n + 1) = some b1 ∧ bitAt? (3 * n + 2) = some b2 ∧
      pixAt? m (pixIndex w h n) = some p ∧
      embedLoop bitAt? pixAt? w h (n + 1) g (m.write (pixIndex w h n) (pack p b0 b1 b2)) = .ok m' := by
  simp only [embedLoop] at hr
  split at hr
  · rename_i b0 b1 b2 p h0 h1 h2 hp; exact ⟨b0, b1, b2, p, h0, h1, h2, hp, hr⟩
  all_goals cases hr

/-- A property of memories that a write at every visited word keeps holds after the loop. -/
theorem embedLoop_keeps {bitAt? : Nat → Option Bool} {pixAt? : Mem Pixel → Nat → Option Pixel} {w h n g : Nat}
    {m m' : Mem Pixel} (P : Mem Pixel → Prop)
    (hw : ∀ m k v, n ≤ k → k < n + g → P m → P (m.write (pixIndex w h k) v)) (hm : P m)
    (hr : embedLoop bitAt? pixAt? w h n g m = .ok m') : P m' := by
  induction g generalizing n m with
  | zero => cases hr; exact hm
  | succ g ih =>
    obtain ⟨b0, b1, b2, p, -, -, -, -, hr⟩ := embedLoop_succ_ok hr
    exact ih (fun m k v h1 h2 => hw m k v (by omega) (by omega)) (hw m n _ (Nat.le_refl n) (by omega) hm) hr

/-- A word no visit reaches is unchanged. -/
theorem embedLoop_read?_other {bitAt? : Nat → Option Bool} {pixAt? : Mem Pixel → Nat → Option Pixel} {w h n g : Nat}
    {m m' : Mem Pixel} (hr : embedLoop bitAt? pixAt? w h n g m = .ok m') {a : Nat}
    (ha : ∀ k, n ≤ k → k < n + g → pixIndex w h k ≠ a) : m'.read? a = m.read? a := by
  refine embedLoop_keeps (fun x => x.read? a = m.read? a) ?_ rfl hr
  intro x k v h1 h2 hx
  rw [Mem.read?_write, if_neg (ha k h1 h2), hx]

/-- The word of visit `k` is packed with group `k`: `pack(PIX[a], BIT[3k], BIT[3k+1], BIT[3k+2])` (R71, R72). -/
theorem embedLoop_read?_visit {bitAt? : Nat → Option Bool} {pixAt? : Mem Pixel → Nat → Option Pixel} {w h n g : Nat}
    {m m' : Mem Pixel} (hpix : ∀ m i v j, i ≠ j → pixAt? (Mem.write m i v) j = pixAt? m j)
    (hg : n + g ≤ w * h) (hr : embedLoop bitAt? pixAt? w h n g m = .ok m') {k : Nat} (h1 : n ≤ k) (h2 : k < n + g) :
    ∃ b0 b1 b2 p, bitAt? (3 * k) = some b0 ∧ bitAt? (3 * k + 1) = some b1 ∧ bitAt? (3 * k + 2) = some b2 ∧
      pixAt? m (pixIndex w h k) = some p ∧ m'.read? (pixIndex w h k) = some (pack p b0 b1 b2) := by
  induction g generalizing n m with
  | zero => omega
  | succ g ih =>
    obtain ⟨b0, b1, b2, p, hb0, hb1, hb2, hp, hr⟩ := embedLoop_succ_ok hr
    rcases Nat.eq_or_lt_of_le h1 with rfl | hlt
    · refine ⟨b0, b1, b2, p, hb0, hb1, hb2, hp, ?_⟩
      rw [embedLoop_read?_other hr, Mem.read?_write, if_pos rfl]
      intro j hj1 hj2 e
      have := pixIndex_inj (by omega) (by omega) e
      omega
    · obtain ⟨c0, c1, c2, q, hc0, hc1, hc2, hq, hm⟩ := ih (by omega) hr hlt (by omega)
      refine ⟨c0, c1, c2, q, hc0, hc1, hc2, ?_, hm⟩
      rwa [hpix] at hq
      intro e
      have := pixIndex_inj (by omega) (by omega) e
      omega

/-- The loop ends when every bit of every group and every visited word is there. -/
theorem embedLoop_isOk {bitAt? : Nat → Option Bool} {pixAt? : Mem Pixel → Nat → Option Pixel} {w h n g : Nat}
    {m : Mem Pixel} (hpix : ∀ m i v j, (pixAt? m j).isSome = true → (pixAt? (Mem.write m i v) j).isSome = true)
    (hb : ∀ i, 3 * n ≤ i → i < 3 * (n + g) → (bitAt? i).isSome = true)
    (hp : ∀ k, n ≤ k → k < n + g → (pixAt? m (pixIndex w h k)).isSome = true) :
    ∃ m', embedLoop bitAt? pixAt? w h n g m = .ok m' := by
  induction g generalizing n m with
  | zero => exact ⟨m, rfl⟩
  | succ g ih =>
    obtain ⟨b0, h0⟩ := Option.isSome_iff_exists.mp (hb (3 * n) (by omega) (by omega))
    obtain ⟨b1, h1⟩ := Option.isSome_iff_exists.mp (hb (3 * n + 1) (by omega) (by omega))
    obtain ⟨b2, h2⟩ := Option.isSome_iff_exists.mp (hb (3 * n + 2) (by omega) (by omega))
    obtain ⟨p, h3⟩ := Option.isSome_iff_exists.mp (hp n (by omega) (by omega))
    rw [embedLoop_succ _ _ _ _ _ _ _ h0 h1 h2 h3]
    exact ih (fun i a b => hb i (by omega) (by omega)) (fun k a b => hpix _ _ _ _ (hp k (by omega) (by omega)))

/-! ### The visits of EXTRACT (R73) -/

/-- The bits extracted: group `k` is the unpacked word of visit `n + k`. -/
theorem extractLoop_ok {pixAt? : Nat → Option Pixel} {w h n g : Nat} {bs : List Bool}
    (hr : extractLoop pixAt? w h n g = .ok bs) :
    bs.length = 3 * g ∧
    ∀ k, k < g → ∃ p, pixAt? (pixIndex w h (n + k)) = some p ∧
      bs[3 * k]? = some (unpack p).1 ∧ bs[3 * k + 1]? = some (unpack p).2.1 ∧ bs[3 * k + 2]? = some (unpack p).2.2 := by
  induction g generalizing n bs with
  | zero => cases hr; simp
  | succ g ih =>
    simp only [extractLoop] at hr
    split at hr
    · cases hr
    · rename_i p hp
      split at hr
      · cases hr
      · rename_i cs hcs
        cases hr
        obtain ⟨hl, hk⟩ := ih hcs
        refine ⟨by simp [hl]; omega, ?_⟩
        intro k hkg
        cases k with
        | zero => exact ⟨p, by simpa using hp, by simp, by simp, by simp⟩
        | succ k =>
          obtain ⟨q, hq, e0, e1, e2⟩ := hk k (by omega)
          refine ⟨q, by rw [← hq]; congr 2; omega, ?_, ?_, ?_⟩
          · rw [show 3 * (k + 1) = 3 * k + 3 by ring]; simpa using e0
          · rw [show 3 * (k + 1) + 1 = 3 * k + 1 + 3 by ring]; simpa using e1
          · rw [show 3 * (k + 1) + 2 = 3 * k + 2 + 3 by ring]; simpa using e2

/-- The loop ends when every visited word is there. -/
theorem extractLoop_isOk {pixAt? : Nat → Option Pixel} {w h n g : Nat}
    (hp : ∀ k, n ≤ k → k < n + g → (pixAt? (pixIndex w h k)).isSome = true) :
    ∃ bs, extractLoop pixAt? w h n g = .ok bs := by
  induction g generalizing n with
  | zero => exact ⟨[], rfl⟩
  | succ g ih =>
    obtain ⟨p, h0⟩ := Option.isSome_iff_exists.mp (hp n (by omega) (by omega))
    obtain ⟨bs, hbs⟩ := ih (n := n + 1) (fun k a b => hp k (by omega) (by omega))
    exact ⟨_, by simp [extractLoop, h0, hbs]; rfl⟩

end Sys2Proof.Machine
end

