-- ==== Sys2Proof/Laws/State.lean ====
section
/-! SUPPORT. One lemma per field per named update of the state, each true by unfolding. -/

namespace Sys2Proof.Machine

open Sys2Proof

/-! ### the start event (R75) -/

@[simp] theorem State.startCommand_cfg (w : Word) (s : State) : (s.startCommand w).cfg = s.cfg := rfl
@[simp] theorem State.startCommand_engine (w : Word) (s : State) : (s.startCommand w).engine = .busy w := rfl
@[simp] theorem State.startCommand_irqEn (w : Word) (s : State) : (s.startCommand w).irqEn = s.irqEn := rfl
@[simp] theorem State.startCommand_done (w : Word) (s : State) : (s.startCommand w).done = false := rfl
@[simp] theorem State.startCommand_err (w : Word) (s : State) : (s.startCommand w).err = false := rfl
@[simp] theorem State.startCommand_cmdDropped (w : Word) (s : State) : (s.startCommand w).cmdDropped = s.cmdDropped := rfl
@[simp] theorem State.startCommand_errCode (w : Word) (s : State) : (s.startCommand w).errCode = 0 := rfl
@[simp] theorem State.startCommand_errInfo (w : Word) (s : State) : (s.startCommand w).errInfo = 0 := rfl
@[simp] theorem State.startCommand_width (w : Word) (s : State) : (s.startCommand w).width = s.width := rfl
@[simp] theorem State.startCommand_height (w : Word) (s : State) : (s.startCommand w).height = s.height := rfl
@[simp] theorem State.startCommand_msgLen (w : Word) (s : State) : (s.startCommand w).msgLen = s.msgLen := rfl
@[simp] theorem State.startCommand_bitCount (w : Word) (s : State) : (s.startCommand w).bitCount = s.bitCount := rfl
@[simp] theorem State.startCommand_totalBits (w : Word) (s : State) : (s.startCommand w).totalBits = s.totalBits := rfl
@[simp] theorem State.startCommand_fileSize (w : Word) (s : State) : (s.startCommand w).fileSize = s.fileSize := rfl
@[simp] theorem State.startCommand_outLen (w : Word) (s : State) : (s.startCommand w).outLen = s.outLen := rfl
@[simp] theorem State.startCommand_embedCount (w : Word) (s : State) : (s.startCommand w).embedCount = s.embedCount := rfl
@[simp] theorem State.startCommand_msg (w : Word) (s : State) : (s.startCommand w).msg = s.msg := rfl
@[simp] theorem State.startCommand_bit (w : Word) (s : State) : (s.startCommand w).bit = s.bit := rfl
@[simp] theorem State.startCommand_pix (w : Word) (s : State) : (s.startCommand w).pix = s.pix := rfl
@[simp] theorem State.startCommand_rst (w : Word) (s : State) : (s.startCommand w).rst = s.rst := rfl
@[simp] theorem State.startCommand_inputs (w : Word) (s : State) : (s.startCommand w).inputs = s.inputs := rfl
@[simp] theorem State.startCommand_reads (w : Word) (s : State) : (s.startCommand w).reads = s.reads := rfl
@[simp] theorem State.startCommand_turns (w : Word) (s : State) : (s.startCommand w).turns = s.turns := rfl
@[simp] theorem State.startCommand_powerOns (w : Word) (s : State) : (s.startCommand w).powerOns = s.powerOns := rfl
@[simp] theorem State.startCommand_aborts (w : Word) (s : State) : (s.startCommand w).aborts = s.aborts := rfl

/-! ### the successful end (R76) -/

@[simp] theorem State.complete_cfg (s : State) : (s.complete).cfg = s.cfg := rfl
@[simp] theorem State.complete_engine (s : State) : (s.complete).engine = .idle := rfl
@[simp] theorem State.complete_irqEn (s : State) : (s.complete).irqEn = s.irqEn := rfl
@[simp] theorem State.complete_done (s : State) : (s.complete).done = true := rfl
@[simp] theorem State.complete_err (s : State) : (s.complete).err = s.err := rfl
@[simp] theorem State.complete_cmdDropped (s : State) : (s.complete).cmdDropped = s.cmdDropped := rfl
@[simp] theorem State.complete_errCode (s : State) : (s.complete).errCode = s.errCode := rfl
@[simp] theorem State.complete_errInfo (s : State) : (s.complete).errInfo = s.errInfo := rfl
@[simp] theorem State.complete_width (s : State) : (s.complete).width = s.width := rfl
@[simp] theorem State.complete_height (s : State) : (s.complete).height = s.height := rfl
@[simp] theorem State.complete_msgLen (s : State) : (s.complete).msgLen = s.msgLen := rfl
@[simp] theorem State.complete_bitCount (s : State) : (s.complete).bitCount = s.bitCount := rfl
@[simp] theorem State.complete_totalBits (s : State) : (s.complete).totalBits = s.totalBits := rfl
@[simp] theorem State.complete_fileSize (s : State) : (s.complete).fileSize = s.fileSize := rfl
@[simp] theorem State.complete_outLen (s : State) : (s.complete).outLen = s.outLen := rfl
@[simp] theorem State.complete_embedCount (s : State) : (s.complete).embedCount = s.embedCount := rfl
@[simp] theorem State.complete_msg (s : State) : (s.complete).msg = s.msg := rfl
@[simp] theorem State.complete_bit (s : State) : (s.complete).bit = s.bit := rfl
@[simp] theorem State.complete_pix (s : State) : (s.complete).pix = s.pix := rfl
@[simp] theorem State.complete_rst (s : State) : (s.complete).rst = s.rst := rfl
@[simp] theorem State.complete_inputs (s : State) : (s.complete).inputs = s.inputs := rfl
@[simp] theorem State.complete_reads (s : State) : (s.complete).reads = s.reads := rfl
@[simp] theorem State.complete_turns (s : State) : (s.complete).turns = s.turns := rfl
@[simp] theorem State.complete_powerOns (s : State) : (s.complete).powerOns = s.powerOns := rfl
@[simp] theorem State.complete_aborts (s : State) : (s.complete).aborts = s.aborts := rfl

/-! ### the error latch (R82) -/

@[simp] theorem State.latchError_cfg (e : CmdError) (info : Word) (s : State) : (s.latchError e info).cfg = s.cfg := rfl
@[simp] theorem State.latchError_engine (e : CmdError) (info : Word) (s : State) : (s.latchError e info).engine = .idle := rfl
@[simp] theorem State.latchError_irqEn (e : CmdError) (info : Word) (s : State) : (s.latchError e info).irqEn = s.irqEn := rfl
@[simp] theorem State.latchError_done (e : CmdError) (info : Word) (s : State) : (s.latchError e info).done = s.done := rfl
@[simp] theorem State.latchError_err (e : CmdError) (info : Word) (s : State) : (s.latchError e info).err = true := rfl
@[simp] theorem State.latchError_cmdDropped (e : CmdError) (info : Word) (s : State) : (s.latchError e info).cmdDropped = s.cmdDropped := rfl
@[simp] theorem State.latchError_errCode (e : CmdError) (info : Word) (s : State) : (s.latchError e info).errCode = e.code := rfl
@[simp] theorem State.latchError_errInfo (e : CmdError) (info : Word) (s : State) : (s.latchError e info).errInfo = info := rfl
@[simp] theorem State.latchError_width (e : CmdError) (info : Word) (s : State) : (s.latchError e info).width = s.width := rfl
@[simp] theorem State.latchError_height (e : CmdError) (info : Word) (s : State) : (s.latchError e info).height = s.height := rfl
@[simp] theorem State.latchError_msgLen (e : CmdError) (info : Word) (s : State) : (s.latchError e info).msgLen = s.msgLen := rfl
@[simp] theorem State.latchError_bitCount (e : CmdError) (info : Word) (s : State) : (s.latchError e info).bitCount = s.bitCount := rfl
@[simp] theorem State.latchError_totalBits (e : CmdError) (info : Word) (s : State) : (s.latchError e info).totalBits = s.totalBits := rfl
@[simp] theorem State.latchError_fileSize (e : CmdError) (info : Word) (s : State) : (s.latchError e info).fileSize = s.fileSize := rfl
@[simp] theorem State.latchError_outLen (e : CmdError) (info : Word) (s : State) : (s.latchError e info).outLen = s.outLen := rfl
@[simp] theorem State.latchError_embedCount (e : CmdError) (info : Word) (s : State) : (s.latchError e info).embedCount = s.embedCount := rfl
@[simp] theorem State.latchError_msg (e : CmdError) (info : Word) (s : State) : (s.latchError e info).msg = s.msg := rfl
@[simp] theorem State.latchError_bit (e : CmdError) (info : Word) (s : State) : (s.latchError e info).bit = s.bit := rfl
@[simp] theorem State.latchError_pix (e : CmdError) (info : Word) (s : State) : (s.latchError e info).pix = s.pix := rfl
@[simp] theorem State.latchError_rst (e : CmdError) (info : Word) (s : State) : (s.latchError e info).rst = s.rst := rfl
@[simp] theorem State.latchError_inputs (e : CmdError) (info : Word) (s : State) : (s.latchError e info).inputs = s.inputs := rfl
@[simp] theorem State.latchError_reads (e : CmdError) (info : Word) (s : State) : (s.latchError e info).reads = s.reads := rfl
@[simp] theorem State.latchError_turns (e : CmdError) (info : Word) (s : State) : (s.latchError e info).turns = s.turns := rfl
@[simp] theorem State.latchError_powerOns (e : CmdError) (info : Word) (s : State) : (s.latchError e info).powerOns = s.powerOns := rfl
@[simp] theorem State.latchError_aborts (e : CmdError) (info : Word) (s : State) : (s.latchError e info).aborts = s.aborts := rfl

/-! ### the register part of a reset (R92) -/

@[simp] theorem State.resetRegs_cfg (s : State) : (s.resetRegs).cfg = s.cfg := rfl
@[simp] theorem State.resetRegs_engine (s : State) : (s.resetRegs).engine = .idle := rfl
@[simp] theorem State.resetRegs_irqEn (s : State) : (s.resetRegs).irqEn = false := rfl
@[simp] theorem State.resetRegs_done (s : State) : (s.resetRegs).done = false := rfl
@[simp] theorem State.resetRegs_err (s : State) : (s.resetRegs).err = false := rfl
@[simp] theorem State.resetRegs_cmdDropped (s : State) : (s.resetRegs).cmdDropped = false := rfl
@[simp] theorem State.resetRegs_errCode (s : State) : (s.resetRegs).errCode = 0 := rfl
@[simp] theorem State.resetRegs_errInfo (s : State) : (s.resetRegs).errInfo = 0 := rfl
@[simp] theorem State.resetRegs_width (s : State) : (s.resetRegs).width = 0 := rfl
@[simp] theorem State.resetRegs_height (s : State) : (s.resetRegs).height = 0 := rfl
@[simp] theorem State.resetRegs_msgLen (s : State) : (s.resetRegs).msgLen = 0 := rfl
@[simp] theorem State.resetRegs_bitCount (s : State) : (s.resetRegs).bitCount = 0 := rfl
@[simp] theorem State.resetRegs_totalBits (s : State) : (s.resetRegs).totalBits = 0 := rfl
@[simp] theorem State.resetRegs_fileSize (s : State) : (s.resetRegs).fileSize = 0 := rfl
@[simp] theorem State.resetRegs_outLen (s : State) : (s.resetRegs).outLen = 0 := rfl
@[simp] theorem State.resetRegs_embedCount (s : State) : (s.resetRegs).embedCount = 0 := rfl
@[simp] theorem State.resetRegs_msg (s : State) : (s.resetRegs).msg = s.msg := rfl
@[simp] theorem State.resetRegs_bit (s : State) : (s.resetRegs).bit = s.bit := rfl
@[simp] theorem State.resetRegs_pix (s : State) : (s.resetRegs).pix = s.pix := rfl
@[simp] theorem State.resetRegs_rst (s : State) : (s.resetRegs).rst = s.rst := rfl
@[simp] theorem State.resetRegs_inputs (s : State) : (s.resetRegs).inputs = s.inputs := rfl
@[simp] theorem State.resetRegs_reads (s : State) : (s.resetRegs).reads = s.reads := rfl
@[simp] theorem State.resetRegs_turns (s : State) : (s.resetRegs).turns = s.turns := rfl
@[simp] theorem State.resetRegs_powerOns (s : State) : (s.resetRegs).powerOns = s.powerOns := rfl
@[simp] theorem State.resetRegs_aborts (s : State) : (s.resetRegs).aborts = s.aborts := rfl

/-! ### power-on reset (R91) -/

@[simp] theorem State.powerOn_cfg (s : State) : (s.powerOn).cfg = s.cfg := rfl
@[simp] theorem State.powerOn_engine (s : State) : (s.powerOn).engine = .idle := rfl
@[simp] theorem State.powerOn_irqEn (s : State) : (s.powerOn).irqEn = false := rfl
@[simp] theorem State.powerOn_done (s : State) : (s.powerOn).done = false := rfl
@[simp] theorem State.powerOn_err (s : State) : (s.powerOn).err = false := rfl
@[simp] theorem State.powerOn_cmdDropped (s : State) : (s.powerOn).cmdDropped = false := rfl
@[simp] theorem State.powerOn_errCode (s : State) : (s.powerOn).errCode = 0 := rfl
@[simp] theorem State.powerOn_errInfo (s : State) : (s.powerOn).errInfo = 0 := rfl
@[simp] theorem State.powerOn_width (s : State) : (s.powerOn).width = 0 := rfl
@[simp] theorem State.powerOn_height (s : State) : (s.powerOn).height = 0 := rfl
@[simp] theorem State.powerOn_msgLen (s : State) : (s.powerOn).msgLen = 0 := rfl
@[simp] theorem State.powerOn_bitCount (s : State) : (s.powerOn).bitCount = 0 := rfl
@[simp] theorem State.powerOn_totalBits (s : State) : (s.powerOn).totalBits = 0 := rfl
@[simp] theorem State.powerOn_fileSize (s : State) : (s.powerOn).fileSize = 0 := rfl
@[simp] theorem State.powerOn_outLen (s : State) : (s.powerOn).outLen = 0 := rfl
@[simp] theorem State.powerOn_embedCount (s : State) : (s.powerOn).embedCount = 0 := rfl
@[simp] theorem State.powerOn_msg (s : State) : (s.powerOn).msg = [] := rfl
@[simp] theorem State.powerOn_bit (s : State) : (s.powerOn).bit = [] := rfl
@[simp] theorem State.powerOn_pix (s : State) : (s.powerOn).pix = [] := rfl
@[simp] theorem State.powerOn_rst (s : State) : (s.powerOn).rst = s.rst := rfl
@[simp] theorem State.powerOn_inputs (s : State) : (s.powerOn).inputs = s.inputs := rfl
@[simp] theorem State.powerOn_reads (s : State) : (s.powerOn).reads = s.reads := rfl
@[simp] theorem State.powerOn_turns (s : State) : (s.powerOn).turns = s.turns := rfl
@[simp] theorem State.powerOn_powerOns (s : State) : (s.powerOn).powerOns = s.powerOns + 1 := rfl
@[simp] theorem State.powerOn_aborts (s : State) : (s.powerOn).aborts = s.aborts := rfl

/-! ### a write to STATUS (R20) -/

@[simp] theorem State.w1cStatus_cfg (v : Word) (s : State) : (s.w1cStatus v).cfg = s.cfg := rfl
@[simp] theorem State.w1cStatus_engine (v : Word) (s : State) : (s.w1cStatus v).engine = s.engine := rfl
@[simp] theorem State.w1cStatus_irqEn (v : Word) (s : State) : (s.w1cStatus v).irqEn = s.irqEn := rfl
@[simp] theorem State.w1cStatus_done (v : Word) (s : State) : (s.w1cStatus v).done = (s.done && !v.getLsbD 1) := rfl
@[simp] theorem State.w1cStatus_err (v : Word) (s : State) : (s.w1cStatus v).err = (s.err && !v.getLsbD 2) := rfl
@[simp] theorem State.w1cStatus_cmdDropped (v : Word) (s : State) : (s.w1cStatus v).cmdDropped = (s.cmdDropped && !v.getLsbD 3) := rfl
@[simp] theorem State.w1cStatus_errCode (v : Word) (s : State) : (s.w1cStatus v).errCode = s.errCode := rfl
@[simp] theorem State.w1cStatus_errInfo (v : Word) (s : State) : (s.w1cStatus v).errInfo = s.errInfo := rfl
@[simp] theorem State.w1cStatus_width (v : Word) (s : State) : (s.w1cStatus v).width = s.width := rfl
@[simp] theorem State.w1cStatus_height (v : Word) (s : State) : (s.w1cStatus v).height = s.height := rfl
@[simp] theorem State.w1cStatus_msgLen (v : Word) (s : State) : (s.w1cStatus v).msgLen = s.msgLen := rfl
@[simp] theorem State.w1cStatus_bitCount (v : Word) (s : State) : (s.w1cStatus v).bitCount = s.bitCount := rfl
@[simp] theorem State.w1cStatus_totalBits (v : Word) (s : State) : (s.w1cStatus v).totalBits = s.totalBits := rfl
@[simp] theorem State.w1cStatus_fileSize (v : Word) (s : State) : (s.w1cStatus v).fileSize = s.fileSize := rfl
@[simp] theorem State.w1cStatus_outLen (v : Word) (s : State) : (s.w1cStatus v).outLen = s.outLen := rfl
@[simp] theorem State.w1cStatus_embedCount (v : Word) (s : State) : (s.w1cStatus v).embedCount = s.embedCount := rfl
@[simp] theorem State.w1cStatus_msg (v : Word) (s : State) : (s.w1cStatus v).msg = s.msg := rfl
@[simp] theorem State.w1cStatus_bit (v : Word) (s : State) : (s.w1cStatus v).bit = s.bit := rfl
@[simp] theorem State.w1cStatus_pix (v : Word) (s : State) : (s.w1cStatus v).pix = s.pix := rfl
@[simp] theorem State.w1cStatus_rst (v : Word) (s : State) : (s.w1cStatus v).rst = s.rst := rfl
@[simp] theorem State.w1cStatus_inputs (v : Word) (s : State) : (s.w1cStatus v).inputs = s.inputs := rfl
@[simp] theorem State.w1cStatus_reads (v : Word) (s : State) : (s.w1cStatus v).reads = s.reads := rfl
@[simp] theorem State.w1cStatus_turns (v : Word) (s : State) : (s.w1cStatus v).turns = s.turns := rfl
@[simp] theorem State.w1cStatus_powerOns (v : Word) (s : State) : (s.w1cStatus v).powerOns = s.powerOns := rfl
@[simp] theorem State.w1cStatus_aborts (v : Word) (s : State) : (s.w1cStatus v).aborts = s.aborts := rfl

/-! ### a dropped command (R46) -/

@[simp] theorem State.dropCommand_cfg (s : State) : (s.dropCommand).cfg = s.cfg := rfl
@[simp] theorem State.dropCommand_engine (s : State) : (s.dropCommand).engine = s.engine := rfl
@[simp] theorem State.dropCommand_irqEn (s : State) : (s.dropCommand).irqEn = s.irqEn := rfl
@[simp] theorem State.dropCommand_done (s : State) : (s.dropCommand).done = s.done := rfl
@[simp] theorem State.dropCommand_err (s : State) : (s.dropCommand).err = s.err := rfl
@[simp] theorem State.dropCommand_cmdDropped (s : State) : (s.dropCommand).cmdDropped = true := rfl
@[simp] theorem State.dropCommand_errCode (s : State) : (s.dropCommand).errCode = s.errCode := rfl
@[simp] theorem State.dropCommand_errInfo (s : State) : (s.dropCommand).errInfo = s.errInfo := rfl
@[simp] theorem State.dropCommand_width (s : State) : (s.dropCommand).width = s.width := rfl
@[simp] theorem State.dropCommand_height (s : State) : (s.dropCommand).height = s.height := rfl
@[simp] theorem State.dropCommand_msgLen (s : State) : (s.dropCommand).msgLen = s.msgLen := rfl
@[simp] theorem State.dropCommand_bitCount (s : State) : (s.dropCommand).bitCount = s.bitCount := rfl
@[simp] theorem State.dropCommand_totalBits (s : State) : (s.dropCommand).totalBits = s.totalBits := rfl
@[simp] theorem State.dropCommand_fileSize (s : State) : (s.dropCommand).fileSize = s.fileSize := rfl
@[simp] theorem State.dropCommand_outLen (s : State) : (s.dropCommand).outLen = s.outLen := rfl
@[simp] theorem State.dropCommand_embedCount (s : State) : (s.dropCommand).embedCount = s.embedCount := rfl
@[simp] theorem State.dropCommand_msg (s : State) : (s.dropCommand).msg = s.msg := rfl
@[simp] theorem State.dropCommand_bit (s : State) : (s.dropCommand).bit = s.bit := rfl
@[simp] theorem State.dropCommand_pix (s : State) : (s.dropCommand).pix = s.pix := rfl
@[simp] theorem State.dropCommand_rst (s : State) : (s.dropCommand).rst = s.rst := rfl
@[simp] theorem State.dropCommand_inputs (s : State) : (s.dropCommand).inputs = s.inputs := rfl
@[simp] theorem State.dropCommand_reads (s : State) : (s.dropCommand).reads = s.reads := rfl
@[simp] theorem State.dropCommand_turns (s : State) : (s.dropCommand).turns = s.turns := rfl
@[simp] theorem State.dropCommand_powerOns (s : State) : (s.dropCommand).powerOns = s.powerOns := rfl
@[simp] theorem State.dropCommand_aborts (s : State) : (s.dropCommand).aborts = s.aborts := rfl

/-! ### DECRYPT's bit budget (R80) -/

@[simp] theorem State.setBudget_cfg (s : State) : (s.setBudget).cfg = s.cfg := rfl
@[simp] theorem State.setBudget_engine (s : State) : (s.setBudget).engine = s.engine := rfl
@[simp] theorem State.setBudget_irqEn (s : State) : (s.setBudget).irqEn = s.irqEn := rfl
@[simp] theorem State.setBudget_done (s : State) : (s.setBudget).done = s.done := rfl
@[simp] theorem State.setBudget_err (s : State) : (s.setBudget).err = s.err := rfl
@[simp] theorem State.setBudget_cmdDropped (s : State) : (s.setBudget).cmdDropped = s.cmdDropped := rfl
@[simp] theorem State.setBudget_errCode (s : State) : (s.setBudget).errCode = s.errCode := rfl
@[simp] theorem State.setBudget_errInfo (s : State) : (s.setBudget).errInfo = s.errInfo := rfl
@[simp] theorem State.setBudget_width (s : State) : (s.setBudget).width = s.width := rfl
@[simp] theorem State.setBudget_height (s : State) : (s.setBudget).height = s.height := rfl
@[simp] theorem State.setBudget_msgLen (s : State) : (s.setBudget).msgLen = s.msgLen := rfl
@[simp] theorem State.setBudget_bitCount (s : State) : (s.setBudget).bitCount = s.bitCount := rfl
@[simp] theorem State.setBudget_totalBits (s : State) : (s.setBudget).totalBits = BitVec.ofNat 32 (8 * s.msgLen.toNat) := rfl
@[simp] theorem State.setBudget_fileSize (s : State) : (s.setBudget).fileSize = s.fileSize := rfl
@[simp] theorem State.setBudget_outLen (s : State) : (s.setBudget).outLen = s.outLen := rfl
@[simp] theorem State.setBudget_embedCount (s : State) : (s.setBudget).embedCount = s.embedCount := rfl
@[simp] theorem State.setBudget_msg (s : State) : (s.setBudget).msg = s.msg := rfl
@[simp] theorem State.setBudget_bit (s : State) : (s.setBudget).bit = s.bit := rfl
@[simp] theorem State.setBudget_pix (s : State) : (s.setBudget).pix = s.pix := rfl
@[simp] theorem State.setBudget_rst (s : State) : (s.setBudget).rst = s.rst := rfl
@[simp] theorem State.setBudget_inputs (s : State) : (s.setBudget).inputs = s.inputs := rfl
@[simp] theorem State.setBudget_reads (s : State) : (s.setBudget).reads = s.reads := rfl
@[simp] theorem State.setBudget_turns (s : State) : (s.setBudget).turns = s.turns := rfl
@[simp] theorem State.setBudget_powerOns (s : State) : (s.setBudget).powerOns = s.powerOns := rfl
@[simp] theorem State.setBudget_aborts (s : State) : (s.setBudget).aborts = s.aborts := rfl

/-! ### a turn used up (log 6) -/

@[simp] theorem State.popTurn_cfg (s : State) : (s.popTurn).cfg = s.cfg := rfl
@[simp] theorem State.popTurn_engine (s : State) : (s.popTurn).engine = s.engine := rfl
@[simp] theorem State.popTurn_irqEn (s : State) : (s.popTurn).irqEn = s.irqEn := rfl
@[simp] theorem State.popTurn_done (s : State) : (s.popTurn).done = s.done := rfl
@[simp] theorem State.popTurn_err (s : State) : (s.popTurn).err = s.err := rfl
@[simp] theorem State.popTurn_cmdDropped (s : State) : (s.popTurn).cmdDropped = s.cmdDropped := rfl
@[simp] theorem State.popTurn_errCode (s : State) : (s.popTurn).errCode = s.errCode := rfl
@[simp] theorem State.popTurn_errInfo (s : State) : (s.popTurn).errInfo = s.errInfo := rfl
@[simp] theorem State.popTurn_width (s : State) : (s.popTurn).width = s.width := rfl
@[simp] theorem State.popTurn_height (s : State) : (s.popTurn).height = s.height := rfl
@[simp] theorem State.popTurn_msgLen (s : State) : (s.popTurn).msgLen = s.msgLen := rfl
@[simp] theorem State.popTurn_bitCount (s : State) : (s.popTurn).bitCount = s.bitCount := rfl
@[simp] theorem State.popTurn_totalBits (s : State) : (s.popTurn).totalBits = s.totalBits := rfl
@[simp] theorem State.popTurn_fileSize (s : State) : (s.popTurn).fileSize = s.fileSize := rfl
@[simp] theorem State.popTurn_outLen (s : State) : (s.popTurn).outLen = s.outLen := rfl
@[simp] theorem State.popTurn_embedCount (s : State) : (s.popTurn).embedCount = s.embedCount := rfl
@[simp] theorem State.popTurn_msg (s : State) : (s.popTurn).msg = s.msg := rfl
@[simp] theorem State.popTurn_bit (s : State) : (s.popTurn).bit = s.bit := rfl
@[simp] theorem State.popTurn_pix (s : State) : (s.popTurn).pix = s.pix := rfl
@[simp] theorem State.popTurn_rst (s : State) : (s.popTurn).rst = s.rst := rfl
@[simp] theorem State.popTurn_inputs (s : State) : (s.popTurn).inputs = s.inputs := rfl
@[simp] theorem State.popTurn_reads (s : State) : (s.popTurn).reads = s.reads := rfl
@[simp] theorem State.popTurn_turns (s : State) : (s.popTurn).turns = s.turns.tail := rfl
@[simp] theorem State.popTurn_powerOns (s : State) : (s.popTurn).powerOns = s.powerOns := rfl
@[simp] theorem State.popTurn_aborts (s : State) : (s.popTurn).aborts = s.aborts := rfl

/-! ### a recorded read (R58) -/

@[simp] theorem State.recordRead_cfg (s : State) (off : Nat) : (s.recordRead off).cfg = s.cfg := rfl
@[simp] theorem State.recordRead_engine (s : State) (off : Nat) : (s.recordRead off).engine = s.engine := rfl
@[simp] theorem State.recordRead_irqEn (s : State) (off : Nat) : (s.recordRead off).irqEn = s.irqEn := rfl
@[simp] theorem State.recordRead_done (s : State) (off : Nat) : (s.recordRead off).done = s.done := rfl
@[simp] theorem State.recordRead_err (s : State) (off : Nat) : (s.recordRead off).err = s.err := rfl
@[simp] theorem State.recordRead_cmdDropped (s : State) (off : Nat) : (s.recordRead off).cmdDropped = s.cmdDropped := rfl
@[simp] theorem State.recordRead_errCode (s : State) (off : Nat) : (s.recordRead off).errCode = s.errCode := rfl
@[simp] theorem State.recordRead_errInfo (s : State) (off : Nat) : (s.recordRead off).errInfo = s.errInfo := rfl
@[simp] theorem State.recordRead_width (s : State) (off : Nat) : (s.recordRead off).width = s.width := rfl
@[simp] theorem State.recordRead_height (s : State) (off : Nat) : (s.recordRead off).height = s.height := rfl
@[simp] theorem State.recordRead_msgLen (s : State) (off : Nat) : (s.recordRead off).msgLen = s.msgLen := rfl
@[simp] theorem State.recordRead_bitCount (s : State) (off : Nat) : (s.recordRead off).bitCount = s.bitCount := rfl
@[simp] theorem State.recordRead_totalBits (s : State) (off : Nat) : (s.recordRead off).totalBits = s.totalBits := rfl
@[simp] theorem State.recordRead_fileSize (s : State) (off : Nat) : (s.recordRead off).fileSize = s.fileSize := rfl
@[simp] theorem State.recordRead_outLen (s : State) (off : Nat) : (s.recordRead off).outLen = s.outLen := rfl
@[simp] theorem State.recordRead_embedCount (s : State) (off : Nat) : (s.recordRead off).embedCount = s.embedCount := rfl
@[simp] theorem State.recordRead_msg (s : State) (off : Nat) : (s.recordRead off).msg = s.msg := rfl
@[simp] theorem State.recordRead_bit (s : State) (off : Nat) : (s.recordRead off).bit = s.bit := rfl
@[simp] theorem State.recordRead_pix (s : State) (off : Nat) : (s.recordRead off).pix = s.pix := rfl
@[simp] theorem State.recordRead_rst (s : State) (off : Nat) : (s.recordRead off).rst = s.rst := rfl
@[simp] theorem State.recordRead_inputs (s : State) (off : Nat) : (s.recordRead off).inputs = s.inputs := rfl
@[simp] theorem State.recordRead_reads (s : State) (off : Nat) : (s.recordRead off).reads = (off, s.busRead off) :: s.reads := rfl
@[simp] theorem State.recordRead_turns (s : State) (off : Nat) : (s.recordRead off).turns = s.turns := rfl
@[simp] theorem State.recordRead_powerOns (s : State) (off : Nat) : (s.recordRead off).powerOns = s.powerOns := rfl
@[simp] theorem State.recordRead_aborts (s : State) (off : Nat) : (s.recordRead off).aborts = s.aborts := rfl

/-! ### BUSY after each update -/

theorem State.busy_eq (s : State) : s.busy = true ↔ ∃ w, s.engine = .busy w := by
  unfold State.busy; cases s.engine <;> simp

theorem State.not_busy_eq (s : State) : s.busy = false ↔ s.engine = .idle := by
  unfold State.busy; cases s.engine <;> simp

@[simp] theorem State.startCommand_busy (w : Word) (s : State) : (s.startCommand w).busy = true := rfl
@[simp] theorem State.complete_busy (s : State) : s.complete.busy = false := rfl
@[simp] theorem State.latchError_busy (e : CmdError) (info : Word) (s : State) :
    (s.latchError e info).busy = false := rfl
@[simp] theorem State.resetRegs_busy (s : State) : s.resetRegs.busy = false := rfl
@[simp] theorem State.powerOn_busy (s : State) : s.powerOn.busy = false := rfl

end Sys2Proof.Machine
end

