-- ==== Sys2Proof/Laws/Steps.lean ====
section
/-! SUPPORT. Spec lemmas of the engine's steps: what each one answers when it is done, when it raises an error, and what
every step leaves unchanged (20_memory R53; 45_orchestration R77). -/

namespace Sys2Proof.Machine

open Sys2Proof

/-! ### Reading -/

/-- A reader sees a write, at the index written and nowhere else. -/
structure Reader.Lawful (r : Reader) : Prop where
  pix_other : ∀ m i v j, i ≠ j → r.pix (Mem.write m i v) j = r.pix m j
  pix_isSome : ∀ m i v j, (r.pix m j).isSome = true → (r.pix (Mem.write m i v) j).isSome = true

theorem Reader.strict_lawful : Reader.strict.Lawful where
  pix_other m i v j h := by simp [Reader.strict, h]
  pix_isSome m i v j h := by
    simp only [Reader.strict, Mem.read?_write]
    split
    · rfl
    · exact h

theorem Reader.settled_lawful (p : Nat) : (Reader.settled p).Lawful where
  pix_other m i v j h := by simp [Reader.settled, h]
  pix_isSome m i v j _ := rfl

theorem Mem.writtenTo_iff {α : Type} {m : Mem α} {n : Nat} :
    m.writtenTo n = true ↔ ∀ i, i < n → (m.read? i).isSome = true := by
  simp [Mem.writtenTo]

theorem State.visitedWritten_iff {s : State} {g : Nat} :
    s.visitedWritten g = true ↔ ∀ n, n < g → (s.pix.read? (pixIndex s.gridW s.gridH n)).isSome = true := by
  simp [State.visitedWritten]

theorem State.asciiText_iff {s : State} :
    s.asciiText = true ↔ ∀ i, i < s.msgLen.toNat → ∃ b, s.msg.read? i = some b ∧ b.toNat < 128 := by
  simp [State.asciiText, Option.any_eq_true]

/-! ### ENCODE (R65) -/

theorem encodeStep_done {r : Reader} {s t : State} (h : encodeStep r s = .done t) :
    s.msgLen.toNat ≤ s.cfg.maxMsgBytes ∧ ∃ bs : List Byte, bs.length = s.msgLen.toNat ∧
      (∀ k, k < s.msgLen.toNat → r.msg s.msg k = bs[k]?) ∧ (∀ b ∈ bs, b.toNat < 128) ∧
      t = { s with bit := s.bit.writeRun 0 (textBits bs), bitCount := BitVec.ofNat 32 (8 * s.msgLen.toNat) } := by
  unfold encodeStep at h
  split at h
  · cases h
  · rename_i hle
    split at h
    · cases h
    · cases h
    · rename_i bs hbs
      cases h
      obtain ⟨hl, hk, ha⟩ := scanText_text.mp hbs
      exact ⟨by omega, bs, hl, fun k hkn => by simpa using hk k hkn, ha, rfl⟩

theorem encodeStep_raised {r : Reader} {s t : State} {e : CmdError} {info : Word}
    (h : encodeStep r s = .raised e info t) :
    t = s ∧ ((e = .configError ∧ info = infoMsgLen ∧ s.cfg.maxMsgBytes < s.msgLen.toNat) ∨
      (s.msgLen.toNat ≤ s.cfg.maxMsgBytes ∧ ∃ i, e = .encodingError ∧ info = BitVec.ofNat 32 i ∧ i < s.msgLen.toNat ∧
        (∃ b, r.msg s.msg i = some b ∧ 128 ≤ b.toNat) ∧ ∀ k, k < i → ∃ b, r.msg s.msg k = some b ∧ b.toNat < 128)) := by
  unfold encodeStep at h
  split at h
  · rename_i hlt; cases h; exact ⟨rfl, .inl ⟨rfl, rfl, hlt⟩⟩
  · rename_i hle
    split at h
    · cases h
    · rename_i i hi
      cases h
      obtain ⟨-, h2, h3, h4⟩ := scanText_nonAscii.mp hi
      exact ⟨rfl, .inr ⟨by omega, i, rfl, rfl, by omega, h3, fun k hk => h4 k (Nat.zero_le k) hk⟩⟩
    · cases h

theorem encodeStep_of_text {r : Reader} {s : State} {bs : List Byte} (hL : s.msgLen.toNat ≤ s.cfg.maxMsgBytes)
    (hl : bs.length = s.msgLen.toNat) (hk : ∀ k, k < s.msgLen.toNat → r.msg s.msg k = bs[k]?)
    (ha : ∀ b ∈ bs, b.toNat < 128) :
    encodeStep r s =
      .done { s with bit := s.bit.writeRun 0 (textBits bs), bitCount := BitVec.ofNat 32 (8 * s.msgLen.toNat) } := by
  have hs : scanText (r.msg s.msg) 0 s.msgLen.toNat = .text bs :=
    scanText_text.mpr ⟨hl, fun k hkn => by simpa using hk k hkn, ha⟩
  simp [encodeStep, Nat.not_lt.mpr hL, hs]

/-- A list of `n` units read where all are there. -/
theorem exists_list_of_isSome {α : Type} {f : Nat → Option α} {n : Nat} (h : ∀ i, i < n → (f i).isSome = true) :
    ∃ vs : List α, vs.length = n ∧ ∀ i, i < n → f i = vs[i]? := by
  induction n with
  | zero => exact ⟨[], rfl, fun i hi => by omega⟩
  | succ n ih =>
    obtain ⟨vs, hl, hv⟩ := ih (fun i hi => h i (by omega))
    obtain ⟨v, hn⟩ := Option.isSome_iff_exists.mp (h n (by omega))
    refine ⟨vs ++ [v], by simp [hl], fun i hi => ?_⟩
    rcases Nat.lt_succ_iff_lt_or_eq.mp hi with hi | rfl
    · rw [List.getElem?_append_left (by omega)]; exact hv i hi
    · rw [List.getElem?_append_right (by omega), hl, Nat.sub_self]; simpa using hn

/-! ### DECODE (R66) -/

theorem decodeStep_done {r : Reader} {s t : State} (h : decodeStep r s = .done t) :
    s.bitCount.toNat ≤ s.cfg.maxBits ∧ s.bitCount.toNat % 8 = 0 ∧ ∃ bytes : List Byte,
      bytes.length = s.bitCount.toNat / 8 ∧
      (∀ k, k < s.bitCount.toNat / 8 → ∀ j, j < 8 →
        r.bit s.bit (8 * k + j) = bytes[k]?.map (fun b => b.getLsbD (7 - j))) ∧
      t = { s with msg := s.msg.writeRun 0 bytes, outLen := BitVec.ofNat 32 (s.bitCount.toNat / 8) } := by
  unfold decodeStep at h
  split at h
  · cases h
  · rename_i hle
    split at h
    · cases h
    · rename_i hmod
      split at h
      · cases h
      · rename_i bytes hbytes
        cases h
        obtain ⟨hl, hk⟩ := readChunks_ok.mp hbytes
        exact ⟨by omega, by omega, bytes, hl, fun k hkn j hj => by simpa using hk k hkn j hj, rfl⟩

theorem decodeStep_raised {r : Reader} {s t : State} {e : CmdError} {info : Word}
    (h : decodeStep r s = .raised e info t) :
    t = s ∧ ((e = .configError ∧ info = infoBitCount ∧ s.cfg.maxBits < s.bitCount.toNat) ∨
      (s.bitCount.toNat ≤ s.cfg.maxBits ∧ e = .formatError ∧ info = s.bitCount ∧ s.bitCount.toNat % 8 ≠ 0)) := by
  unfold decodeStep at h
  split at h
  · rename_i hlt; cases h; exact ⟨rfl, .inl ⟨rfl, rfl, hlt⟩⟩
  · rename_i hle
    split at h
    · rename_i hmod; cases h; exact ⟨rfl, .inr ⟨by omega, rfl, rfl, hmod⟩⟩
    · split at h
      · cases h
      · cases h

/-- The bytes of chunks that are all there. -/
theorem exists_chunks {f : Nat → Option Bool} {n : Nat} (h : ∀ i, i < 8 * n → (f i).isSome = true) :
    ∃ bytes : List Byte, bytes.length = n ∧
      ∀ k, k < n → ∀ j, j < 8 → f (8 * k + j) = bytes[k]?.map (fun b => b.getLsbD (7 - j)) := by
  induction n with
  | zero => exact ⟨[], rfl, fun k hk => by omega⟩
  | succ n ih =>
    obtain ⟨bytes, hl, hb⟩ := ih (fun i hi => h i (by omega))
    obtain ⟨bs, hbl, hbs⟩ := exists_list_of_isSome (f := fun j => f (8 * n + j)) (n := 8) (fun j hj => h _ (by omega))
    refine ⟨bytes ++ [bitsByte bs], by simp [hl], fun k hk j hj => ?_⟩
    rcases Nat.lt_succ_iff_lt_or_eq.mp hk with hk | rfl
    · rw [List.getElem?_append_left (by omega)]; exact hb k hk j hj
    · rw [List.getElem?_append_right (by omega), hl, Nat.sub_self, hbs j hj, bitsByte_getLsbD hbl hj]; rfl

theorem decodeStep_of_written {r : Reader} {s : State} (hn : s.bitCount.toNat ≤ s.cfg.maxBits)
    (hmod : s.bitCount.toNat % 8 = 0) (hw : ∀ i, i < s.bitCount.toNat → (r.bit s.bit i).isSome = true) :
    ∃ t, decodeStep r s = .done t := by
  obtain ⟨bytes, hl, hb⟩ := exists_chunks (f := r.bit s.bit) (n := s.bitCount.toNat / 8) (fun i hi => hw i (by omega))
  have hc : readChunks (r.bit s.bit) 0 (s.bitCount.toNat / 8) = .ok bytes :=
    readChunks_ok.mpr ⟨hl, fun k hk j hj => by simpa using hb k hk j hj⟩
  exact ⟨_, by simp [decodeStep, Nat.not_lt.mpr hn, hmod, hc]; rfl⟩

/-! ### CAPCHK (R67) -/

theorem capchkStep_done {s t : State} (h : capchkStep s = .done t) :
    t = s ∧ 8 * s.msgLen.toNat < 3 * s.fileSize.toNat := by
  unfold capchkStep at h
  split at h
  · cases h
  · cases h; exact ⟨rfl, by omega⟩

theorem capchkStep_raised {s t : State} {e : CmdError} {info : Word} (h : capchkStep s = .raised e info t) :
    t = s ∧ e = .capacityError ∧ info = 0 ∧ 3 * s.fileSize.toNat ≤ 8 * s.msgLen.toNat := by
  unfold capchkStep at h
  split at h
  · rename_i hc; cases h; exact ⟨rfl, rfl, rfl, hc⟩
  · cases h

/-! ### EMBED (R71) -/

theorem embedStep_done {r : Reader} {s t : State} (h : embedStep r s = .done t) :
    s.gridW * s.gridH ≤ s.cfg.pixWords ∧ s.bitCount.toNat ≤ s.cfg.maxBits ∧ ∃ m,
      embedLoop (r.bit s.bit) r.pix s.gridW s.gridH 0 s.embedGroups s.pix = .ok m ∧
      t = { s with pix := m, embedCount := BitVec.ofNat 32 (3 * s.embedGroups) } := by
  unfold embedStep at h
  split at h
  · cases h
  · rename_i h1
    split at h
    · cases h
    · rename_i h2
      split at h
      · cases h
      · rename_i m hm; cases h; exact ⟨by omega, by omega, m, hm, rfl⟩

theorem embedStep_raised {r : Reader} {s t : State} {e : CmdError} {info : Word}
    (h : embedStep r s = .raised e info t) :
    t = s ∧ e = .configError ∧ ((info = infoGeometry ∧ s.cfg.pixWords < s.gridW * s.gridH) ∨
      (s.gridW * s.gridH ≤ s.cfg.pixWords ∧ info = infoBitCount ∧ s.cfg.maxBits < s.bitCount.toNat)) := by
  unfold embedStep at h
  split at h
  · rename_i h1; cases h; exact ⟨rfl, rfl, .inl ⟨rfl, h1⟩⟩
  · rename_i h1
    split at h
    · rename_i h2; cases h; exact ⟨rfl, rfl, .inr ⟨by omega, rfl, h2⟩⟩
    · split at h
      · cases h
      · cases h

theorem embedStep_of_written {r : Reader} (hr : r.Lawful) {s : State} (hg : s.gridW * s.gridH ≤ s.cfg.pixWords)
    (hn : s.bitCount.toNat ≤ s.cfg.maxBits) (hb : ∀ i, i < 3 * s.embedGroups → (r.bit s.bit i).isSome = true)
    (hp : ∀ n, n < s.embedGroups → (r.pix s.pix (pixIndex s.gridW s.gridH n)).isSome = true) :
    ∃ m, embedLoop (r.bit s.bit) r.pix s.gridW s.gridH 0 s.embedGroups s.pix = .ok m ∧
      embedStep r s = .done { s with pix := m, embedCount := BitVec.ofNat 32 (3 * s.embedGroups) } := by
  obtain ⟨m, hm⟩ := embedLoop_isOk (bitAt? := r.bit s.bit) (pixAt? := r.pix) (w := s.gridW) (h := s.gridH) (n := 0)
    (g := s.embedGroups) (m := s.pix) hr.pix_isSome (fun i _ hi => hb i (by omega)) (fun k _ hk => hp k (by omega))
  exact ⟨m, hm, by simp [embedStep, Nat.not_lt.mpr hg, Nat.not_lt.mpr hn, hm]⟩

/-! ### EXTRACT (R73) -/

theorem extractStep_done {r : Reader} {s t : State} (h : extractStep r s = .done t) :
    s.gridW * s.gridH ≤ s.cfg.pixWords ∧ s.totalBits.toNat ≤ s.cfg.maxBits ∧ ∃ bs,
      extractLoop (r.pix s.pix) s.gridW s.gridH 0 s.extractGroups = .ok bs ∧
      t = { s with bit := s.bit.writeRun 0 bs, bitCount := BitVec.ofNat 32 (3 * s.extractGroups) } := by
  unfold extractStep at h
  split at h
  · cases h
  · rename_i h1
    split at h
    · cases h
    · rename_i h2
      split at h
      · cases h
      · rename_i m hm; cases h; exact ⟨by omega, by omega, m, hm, rfl⟩

theorem extractStep_raised {r : Reader} {s t : State} {e : CmdError} {info : Word}
    (h : extractStep r s = .raised e info t) :
    t = s ∧ e = .configError ∧ ((info = infoGeometry ∧ s.cfg.pixWords < s.gridW * s.gridH) ∨
      (s.gridW * s.gridH ≤ s.cfg.pixWords ∧ info = infoTotalBits ∧ s.cfg.maxBits < s.totalBits.toNat)) := by
  unfold extractStep at h
  split at h
  · rename_i h1; cases h; exact ⟨rfl, rfl, .inl ⟨rfl, h1⟩⟩
  · rename_i h1
    split at h
    · rename_i h2; cases h; exact ⟨rfl, rfl, .inr ⟨by omega, rfl, h2⟩⟩
    · split at h
      · cases h
      · cases h

theorem extractStep_of_written {r : Reader} {s : State} (hg : s.gridW * s.gridH ≤ s.cfg.pixWords)
    (hn : s.totalBits.toNat ≤ s.cfg.maxBits)
    (hp : ∀ n, n < s.extractGroups → (r.pix s.pix (pixIndex s.gridW s.gridH n)).isSome = true) :
    ∃ bs, extractLoop (r.pix s.pix) s.gridW s.gridH 0 s.extractGroups = .ok bs ∧
      extractStep r s =
        .done { s with bit := s.bit.writeRun 0 bs, bitCount := BitVec.ofNat 32 (3 * s.extractGroups) } := by
  obtain ⟨bs, hbs⟩ := extractLoop_isOk (pixAt? := r.pix s.pix) (w := s.gridW) (h := s.gridH) (n := 0)
    (g := s.extractGroups) (fun k _ hk => hp k (by omega))
  exact ⟨bs, hbs, by simp [extractStep, Nat.not_lt.mpr hg, Nat.not_lt.mpr hn, hbs]⟩

/-! ### Composites (R77, R79, R80) -/

theorem StepResult.andThen_done {x : StepResult} {f : State → StepResult} {t : State} :
    x.andThen f = .done t ↔ ∃ s, x = .done s ∧ f s = .done t := by
  cases x <;> simp [StepResult.andThen]

theorem StepResult.andThen_raised {x : StepResult} {f : State → StepResult} {e : CmdError} {info : Word} {t : State} :
    x.andThen f = .raised e info t ↔ x = .raised e info t ∨ ∃ s, x = .done s ∧ f s = .raised e info t := by
  cases x <;> simp [StepResult.andThen]

theorem compositeChecks_done {s t : State} :
    compositeChecks s = .done t ↔
      t = s ∧ s.msgLen.toNat ≤ s.cfg.maxMsgBytes ∧ s.gridW * s.gridH ≤ s.cfg.pixWords := by
  unfold compositeChecks
  split
  · simp; omega
  · split
    · simp; omega
    · constructor
      · intro h; cases h; exact ⟨rfl, by omega, by omega⟩
      · rintro ⟨rfl, -, -⟩; rfl

theorem compositeChecks_raised {s t : State} {e : CmdError} {info : Word} (h : compositeChecks s = .raised e info t) :
    t = s ∧ e = .configError ∧ ((info = infoMsgLen ∧ s.cfg.maxMsgBytes < s.msgLen.toNat) ∨
      (s.msgLen.toNat ≤ s.cfg.maxMsgBytes ∧ info = infoGeometry ∧ s.cfg.pixWords < s.gridW * s.gridH)) := by
  unfold compositeChecks at h
  split at h
  · rename_i h1; cases h; exact ⟨rfl, rfl, .inl ⟨rfl, h1⟩⟩
  · split at h
    · rename_i h1 h2; cases h; exact ⟨rfl, rfl, .inr ⟨by omega, rfl, h2⟩⟩
    · cases h

/-! ### What every step keeps -/

/-- What a step of the engine may change, and what it keeps: the three memories, BIT_COUNT, TOTAL_BITS, OUT_LEN and
EMBED_COUNT may change, nothing else does; the memories keep their form and lose no location; the counts keep their
bounds (R53). -/
structure State.StepsTo (s t : State) : Prop where
  frame : t = { s with msg := t.msg, bit := t.bit, pix := t.pix, bitCount := t.bitCount, totalBits := t.totalBits,
                       outLen := t.outLen, embedCount := t.embedCount }
  memOk : s.memOk = true → t.memOk = true
  msg_isSome : ∀ i, (s.msg.read? i).isSome = true → (t.msg.read? i).isSome = true
  bit_isSome : ∀ i, (s.bit.read? i).isSome = true → (t.bit.read? i).isSome = true
  pix_isSome : ∀ i, (s.pix.read? i).isSome = true → (t.pix.read? i).isSome = true
  countsOk : s.countsOk = true → t.countsOk = true

theorem State.StepsTo.refl (s : State) : s.StepsTo s :=
  ⟨rfl, id, fun _ h => h, fun _ h => h, fun _ h => h, id⟩

theorem State.StepsTo.cfg_eq {s t : State} (h : s.StepsTo t) : t.cfg = s.cfg := by rw [h.frame]

theorem State.StepsTo.trans {s t u : State} (h : s.StepsTo t) (k : t.StepsTo u) : s.StepsTo u where
  frame := by rw [k.frame, h.frame]
  memOk := k.memOk ∘ h.memOk
  msg_isSome i := k.msg_isSome i ∘ h.msg_isSome i
  bit_isSome i := k.bit_isSome i ∘ h.bit_isSome i
  pix_isSome i := k.pix_isSome i ∘ h.pix_isSome i
  countsOk := k.countsOk ∘ h.countsOk

theorem State.memOk_iff {s : State} :
    s.memOk = true ↔ s.msg.wf = true ∧ s.bit.wf = true ∧ s.pix.wf = true ∧
      s.msg.below s.cfg.maxMsgBytes = true ∧ s.bit.below s.cfg.maxBits = true ∧ s.pix.below s.cfg.pixWords = true := by
  simp [State.memOk, and_assoc]

theorem State.countsOk_iff {s : State} :
    s.countsOk = true ↔ s.embedCount.toNat % 3 = 0 ∧ s.embedCount.toNat ≤ s.cfg.maxBits ∧
      s.outLen.toNat ≤ s.cfg.maxMsgBytes := by
  simp [State.countsOk, and_assoc]

theorem Mem.isSome_write {α : Type} {m : Mem α} {j : Nat} (h : (m.read? j).isSome = true) (i : Nat) (v : α) :
    ((m.write i v).read? j).isSome = true := by
  rw [Mem.read?_write]; split
  · rfl
  · exact h

theorem Mem.isSome_writeRun {α : Type} {m : Mem α} {j : Nat} (h : (m.read? j).isSome = true) (i : Nat) (vs : List α) :
    ((m.writeRun i vs).read? j).isSome = true := by
  rw [Mem.read?_writeRun]
  split
  · rename_i hj; rw [List.getElem?_eq_getElem (by omega)]; rfl
  · exact h

theorem encodeStep_stepsTo {r : Reader} {s t : State} (h : encodeStep r s = .done t) : s.StepsTo t := by
  obtain ⟨hL, bs, hl, -, -, rfl⟩ := encodeStep_done h
  refine ⟨rfl, fun hm => ?_, fun _ h => h, fun i h => Mem.isSome_writeRun h _ _, fun _ h => h, id⟩
  rw [State.memOk_iff] at hm ⊢
  exact ⟨hm.1, Mem.wf_writeRun hm.2.1 _ _, hm.2.2.1, hm.2.2.2.1,
    Mem.below_writeRun hm.2.2.2.2.1 (by simp [Config.maxBits]; omega), hm.2.2.2.2.2⟩

theorem decodeStep_stepsTo {r : Reader} {s t : State} (h : decodeStep r s = .done t) : s.StepsTo t := by
  obtain ⟨hn, hmod, bytes, hl, -, rfl⟩ := decodeStep_done h
  have hb : s.bitCount.toNat / 8 ≤ s.cfg.maxMsgBytes := by unfold Config.maxBits at hn; omega
  refine ⟨rfl, fun hm => ?_, fun i h => Mem.isSome_writeRun h _ _, fun _ h => h, fun _ h => h, fun hc => ?_⟩
  · rw [State.memOk_iff] at hm ⊢
    exact ⟨Mem.wf_writeRun hm.1 _ _, hm.2.1, hm.2.2.1, Mem.below_writeRun hm.2.2.2.1 (by dsimp only; omega), hm.2.2.2.2⟩
  · rw [State.countsOk_iff] at hc ⊢
    refine ⟨hc.1, hc.2.1, ?_⟩
    have := s.bitCount.isLt
    simp only [BitVec.toNat_ofNat]
    omega

theorem embedStep_stepsTo {r : Reader} {s t : State} (h : embedStep r s = .done t) : s.StepsTo t := by
  obtain ⟨hg, hn, m, hm, rfl⟩ := embedStep_done h
  have hcells : s.embedGroups ≤ s.gridW * s.gridH := groups_le_cells _ _ _
  have hbits : 3 * s.embedGroups ≤ s.bitCount.toNat := three_groups_le _ _ _
  refine ⟨rfl, fun hk => ?_, fun _ h => h, fun _ h => h, fun i hi => ?_, fun hc => ?_⟩
  · rw [State.memOk_iff] at hk ⊢
    refine ⟨hk.1, hk.2.1, ?_, hk.2.2.2.1, hk.2.2.2.2.1, ?_⟩
    · exact embedLoop_keeps (fun x => x.wf = true) (fun x k v _ _ hx => Mem.wf_write hx _ _) hk.2.2.1 hm
    · refine embedLoop_keeps (fun x => x.below s.cfg.pixWords = true) (fun x k v _ h2 hx => ?_) hk.2.2.2.2.2 hm
      have := pixIndex_lt (w := s.gridW) (h := s.gridH) (n := k) (by omega)
      exact Mem.below_write hx (by omega) _
  · exact embedLoop_keeps (fun x => (x.read? i).isSome = true) (fun x k v _ _ hx => Mem.isSome_write hx _ _) hi hm
  · rw [State.countsOk_iff] at hc ⊢
    have := s.bitCount.isLt
    have hlt : 3 * s.embedGroups % 2 ^ 32 = 3 * s.embedGroups := Nat.mod_eq_of_lt (by omega)
    refine ⟨?_, ?_, hc.2.2⟩ <;> simp only [BitVec.toNat_ofNat, hlt] <;> omega

theorem extractStep_stepsTo {r : Reader} {s t : State} (h : extractStep r s = .done t) : s.StepsTo t := by
  obtain ⟨hg, hn, bs, hbs, rfl⟩ := extractStep_done h
  have hbits : 3 * s.extractGroups ≤ s.totalBits.toNat := three_groups_le _ _ _
  obtain ⟨hl, -⟩ := extractLoop_ok hbs
  refine ⟨rfl, fun hm => ?_, fun _ h => h, fun i h => Mem.isSome_writeRun h _ _, fun _ h => h, id⟩
  rw [State.memOk_iff] at hm ⊢
  exact ⟨hm.1, Mem.wf_writeRun hm.2.1 _ _, hm.2.2.1, hm.2.2.2.1,
    Mem.below_writeRun hm.2.2.2.2.1 (by dsimp only; omega), hm.2.2.2.2.2⟩

theorem setBudget_stepsTo (s : State) : s.StepsTo s.setBudget :=
  ⟨rfl, id, fun _ h => h, fun _ h => h, fun _ h => h, id⟩

/-- An answer that goes on or ends in an error leaves a state that `StepsTo` relates to the start. -/
def StepResult.Keeps (s : State) : StepResult → Prop
  | .done t => s.StepsTo t
  | .raised _ _ t => s.StepsTo t
  | .fault _ => True

theorem StepResult.Keeps.andThen {s : State} {x : StepResult} {f : State → StepResult} (h : x.Keeps s)
    (hf : ∀ t, (f t).Keeps t) : (x.andThen f).Keeps s := by
  cases x with
  | fault f => trivial
  | raised e info t => exact h
  | done t =>
    have := hf t
    simp only [StepResult.andThen]
    revert this
    cases f t with
    | done u => exact fun k => State.StepsTo.trans h k
    | raised e info u => exact fun k => State.StepsTo.trans h k
    | fault x => exact fun _ => trivial

theorem StepResult.keeps_of {s : State} {x : StepResult} (hd : ∀ t, x = .done t → s.StepsTo t)
    (hr : ∀ e info t, x = .raised e info t → t = s) : x.Keeps s := by
  cases x with
  | done t => exact hd t rfl
  | raised e info t => rw [hr e info t rfl]; exact State.StepsTo.refl s
  | fault f => trivial

theorem encodeStep_keeps (r : Reader) (s : State) : (encodeStep r s).Keeps s :=
  StepResult.keeps_of (fun _ => encodeStep_stepsTo) (fun _ _ _ h => (encodeStep_raised h).1)

theorem decodeStep_keeps (r : Reader) (s : State) : (decodeStep r s).Keeps s :=
  StepResult.keeps_of (fun _ => decodeStep_stepsTo) (fun _ _ _ h => (decodeStep_raised h).1)

theorem capchkStep_keeps (s : State) : (capchkStep s).Keeps s :=
  StepResult.keeps_of (fun t h => by rw [(capchkStep_done h).1]; exact State.StepsTo.refl s)
    (fun _ _ _ h => (capchkStep_raised h).1)

theorem embedStep_keeps (r : Reader) (s : State) : (embedStep r s).Keeps s :=
  StepResult.keeps_of (fun _ => embedStep_stepsTo) (fun _ _ _ h => (embedStep_raised h).1)

theorem extractStep_keeps (r : Reader) (s : State) : (extractStep r s).Keeps s :=
  StepResult.keeps_of (fun _ => extractStep_stepsTo) (fun _ _ _ h => (extractStep_raised h).1)

theorem compositeChecks_keeps (s : State) : (compositeChecks s).Keeps s :=
  StepResult.keeps_of (fun t h => by rw [(compositeChecks_done.mp h).1]; exact State.StepsTo.refl s)
    (fun _ _ _ h => (compositeChecks_raised h).1)

theorem encryptStep_keeps (r : Reader) (s : State) : (encryptStep r s).Keeps s :=
  (((compositeChecks_keeps s).andThen capchkStep_keeps).andThen (encodeStep_keeps r)).andThen (embedStep_keeps r)

theorem decryptStep_keeps (r : Reader) (s : State) : (decryptStep r s).Keeps s := by
  refine ((compositeChecks_keeps s).andThen (fun t => ?_)).andThen (decodeStep_keeps r)
  exact StepResult.Keeps.andThen (x := .done t.setBudget) (setBudget_stepsTo t) (extractStep_keeps r)

/-- Every command keeps what R53 says no step touches. -/
theorem commandBody_keeps (r : Reader) (i : Instr) (s : State) : (commandBody r i s).Keeps s := by
  cases i with
  | nop => exact State.StepsTo.refl s
  | encode => exact encodeStep_keeps r s
  | decode => exact decodeStep_keeps r s
  | capchk => exact capchkStep_keeps s
  | embed => exact embedStep_keeps r s
  | extract => exact extractStep_keeps r s
  | encrypt => exact encryptStep_keeps r s
  | decrypt => exact decryptStep_keeps r s

/-- A command's meaning is its body, read strictly, and its end. -/
theorem exec_eq_finish (i : Instr) (s : State) : exec i s = (commandBody .strict i s).finish := by
  cases i <;> rfl

end Sys2Proof.Machine
end

