-- ==== Sys2Proof/Laws/Abort.lean ====
section
/-! SUPPORT. The abort of a command (70_reset_and_hazards R93): a run that does not fault is the same run when unwritten
locations hold their free values, and what the memories hold after an abort. -/

namespace Sys2Proof.Machine

open Sys2Proof

/-! ### Reading more never changes a run that did not fault -/

/-- Where `f` has a value, `g` has the same. -/
def ReadsMore {α : Type} (f g : Nat → Option α) : Prop := ∀ k v, f k = some v → g k = some v

/-- Where a reader has a value, the other has the same. -/
structure Reader.Below (r r' : Reader) : Prop where
  msg : ∀ m, ReadsMore (r.msg m) (r'.msg m)
  bit : ∀ m, ReadsMore (r.bit m) (r'.bit m)
  pix : ∀ m, ReadsMore (r.pix m) (r'.pix m)

theorem Reader.strict_below_settled (p : Nat) : Reader.Below .strict (.settled p) where
  msg m k v h := by simp [Reader.strict, Reader.settled] at h ⊢; simp [h]
  bit m k v h := by simp [Reader.strict, Reader.settled] at h ⊢; simp [h]
  pix m k v h := by simp [Reader.strict, Reader.settled] at h ⊢; simp [h]

theorem scanText_mono {f g : Nat → Option Byte} (h : ReadsMore f g) {i n : Nat} {x : Scan}
    (hx : scanText f i n = x) (hu : ∀ j, x ≠ .unwritten j) : scanText g i n = x := by
  cases x with
  | unwritten j => exact absurd rfl (hu j)
  | text bs =>
    obtain ⟨hl, hk, ha⟩ := scanText_text.mp hx
    refine scanText_text.mpr ⟨hl, fun k hkn => ?_, ha⟩
    have := hk k hkn
    rw [List.getElem?_eq_getElem (by omega)] at this ⊢
    exact h _ _ this
  | nonAscii j =>
    obtain ⟨h1, h2, ⟨b, hb, hge⟩, h4⟩ := scanText_nonAscii.mp hx
    refine scanText_nonAscii.mpr ⟨h1, h2, ⟨b, h _ _ hb, hge⟩, fun k hk hkj => ?_⟩
    obtain ⟨c, hc, hlt⟩ := h4 k hk hkj
    exact ⟨c, h _ _ hc, hlt⟩

theorem readChunks_mono {f g : Nat → Option Bool} (h : ReadsMore f g) {k n : Nat} {bytes : List Byte}
    (hx : readChunks f k n = .ok bytes) : readChunks g k n = .ok bytes := by
  obtain ⟨hl, hk⟩ := readChunks_ok.mp hx
  refine readChunks_ok.mpr ⟨hl, fun c hc j hj => ?_⟩
  have := hk c hc j hj
  rw [List.getElem?_eq_getElem (by omega)] at this ⊢
  exact h _ _ this

theorem embedLoop_mono {b b' : Nat → Option Bool} {p p' : Mem Pixel → Nat → Option Pixel} (hb : ReadsMore b b')
    (hp : ∀ m, ReadsMore (p m) (p' m)) {w h n g : Nat} {m m' : Mem Pixel}
    (hx : embedLoop b p w h n g m = .ok m') : embedLoop b' p' w h n g m = .ok m' := by
  induction g generalizing n m with
  | zero => exact hx
  | succ g ih =>
    obtain ⟨b0, b1, b2, q, h0, h1, h2, hq, hr⟩ := embedLoop_succ_ok hx
    rw [embedLoop_succ _ _ _ _ _ _ _ (hb _ _ h0) (hb _ _ h1) (hb _ _ h2) (hp _ _ _ hq)]
    exact ih hr

theorem extractLoop_mono {p p' : Nat → Option Pixel} (hp : ReadsMore p p') {w h n g : Nat} {bs : List Bool}
    (hx : extractLoop p w h n g = .ok bs) : extractLoop p' w h n g = .ok bs := by
  induction g generalizing n bs with
  | zero => exact hx
  | succ g ih =>
    simp only [extractLoop] at hx ⊢
    split at hx
    · cases hx
    · rename_i q hq
      split at hx
      · cases hx
      · rename_i cs hcs
        cases hx
        rw [hp _ _ hq]
        simp only [ih hcs]

/-- An answer that is not a fault. -/
def StepResult.Goes (x : StepResult) : Prop := ∀ f, x ≠ .fault f

theorem encodeStep_mono {r r' : Reader} (h : r.Below r') {s : State} (hg : (encodeStep r s).Goes) :
    encodeStep r' s = encodeStep r s := by
  unfold encodeStep at hg ⊢
  split
  · rfl
  · rename_i hc
    rw [if_neg hc] at hg
    have hm : scanText (r'.msg s.msg) 0 s.msgLen.toNat = scanText (r.msg s.msg) 0 s.msgLen.toNat := by
      refine scanText_mono (h.msg _) rfl (fun j hj => ?_)
      rw [hj] at hg
      exact hg _ rfl
    rw [hm]

theorem decodeStep_mono {r r' : Reader} (h : r.Below r') {s : State} (hg : (decodeStep r s).Goes) :
    decodeStep r' s = decodeStep r s := by
  unfold decodeStep at hg ⊢
  split
  · rfl
  · rename_i hc
    rw [if_neg hc] at hg
    split
    · rfl
    · rename_i hd
      rw [if_neg hd] at hg
      cases hx : readChunks (r.bit s.bit) 0 (s.bitCount.toNat / 8) with
      | error i => rw [hx] at hg; exact absurd rfl (hg _)
      | ok bytes => rw [readChunks_mono (h.bit _) hx]

theorem embedStep_mono {r r' : Reader} (h : r.Below r') {s : State} (hg : (embedStep r s).Goes) :
    embedStep r' s = embedStep r s := by
  unfold embedStep at hg ⊢
  split
  · rfl
  · rename_i hc
    rw [if_neg hc] at hg
    split
    · rfl
    · rename_i hd
      rw [if_neg hd] at hg
      cases hx : embedLoop (r.bit s.bit) r.pix s.gridW s.gridH 0 s.embedGroups s.pix with
      | error f => rw [hx] at hg; exact absurd rfl (hg _)
      | ok m => rw [embedLoop_mono (h.bit _) h.pix hx]

theorem extractStep_mono {r r' : Reader} (h : r.Below r') {s : State} (hg : (extractStep r s).Goes) :
    extractStep r' s = extractStep r s := by
  unfold extractStep at hg ⊢
  split
  · rfl
  · rename_i hc
    rw [if_neg hc] at hg
    split
    · rfl
    · rename_i hd
      rw [if_neg hd] at hg
      cases hx : extractLoop (r.pix s.pix) s.gridW s.gridH 0 s.extractGroups with
      | error i => rw [hx] at hg; exact absurd rfl (hg _)
      | ok bs => rw [extractLoop_mono (h.pix _) hx]

theorem StepResult.andThen_mono {x x' : StepResult} {f f' : State → StepResult} (hx : x.Goes → x' = x)
    (hf : ∀ t, (f t).Goes → f' t = f t) (hg : (x.andThen f).Goes) : x'.andThen f' = x.andThen f := by
  cases x with
  | fault y => exact absurd rfl (hg y)
  | raised e info t => rw [hx (fun f hf => by cases hf)]; rfl
  | done t => rw [hx (fun f hf => by cases hf)]; exact hf t hg

/-- A command that does not fault is the same command when unwritten locations hold values. -/
theorem commandBody_mono {r r' : Reader} (h : r.Below r') (i : Instr) {s : State} (hg : (commandBody r i s).Goes) :
    commandBody r' i s = commandBody r i s := by
  cases i with
  | nop => rfl
  | capchk => rfl
  | encode => exact encodeStep_mono h hg
  | decode => exact decodeStep_mono h hg
  | embed => exact embedStep_mono h hg
  | extract => exact extractStep_mono h hg
  | encrypt =>
    exact StepResult.andThen_mono
      (StepResult.andThen_mono (fun _ => rfl) (fun t => encodeStep_mono h)) (fun t => embedStep_mono h) hg
  | decrypt =>
    exact StepResult.andThen_mono
      (StepResult.andThen_mono (fun _ => rfl) (fun t => extractStep_mono h)) (fun t => decodeStep_mono h) hg

/-! ### The memories after an abort -/

theorem StepResult.Keeps.written {s : State} {x : StepResult} (h : x.Keeps s) : s.StepsTo (x.written s) := by
  cases x with
  | done t => exact h
  | raised e info t => exact h
  | fault f => exact State.StepsTo.refl s

/-- What the aborted command would have written is related to its start as by a step. -/
theorem State.wouldWrite_stepsTo (w : Word) (s : State) : s.StepsTo (s.wouldWrite w) := by
  unfold State.wouldWrite
  split
  · exact (commandBody_keeps _ _ _).written
  · exact State.StepsTo.refl s

/-- Where the command would have ended without a fault, the writes drawn from are those of its end. -/
theorem State.wouldWrite_of_exec {w : Word} {i : Instr} {s u : State} (hd : decode w = .ok i)
    (he : exec i s = .next u) :
    (s.wouldWrite w).msg = u.msg ∧ (s.wouldWrite w).bit = u.bit ∧ (s.wouldWrite w).pix = u.pix := by
  rw [exec_eq_finish] at he
  have hg : (commandBody .strict i s).Goes := by
    intro f hf; rw [hf] at he; simp [StepResult.finish] at he
  have hm := commandBody_mono (Reader.strict_below_settled s.powerOns) i hg
  unfold State.wouldWrite
  rw [hd]
  simp only [hm]
  cases hx : commandBody .strict i s with
  | fault f => exact absurd hx (hg f)
  | done t => rw [hx] at he; cases he; exact ⟨rfl, rfl, rfl⟩
  | raised e info t => rw [hx] at he; cases he; exact ⟨rfl, rfl, rfl⟩

/-- An abort keeps the memories' form and size. -/
theorem State.abortMemories_memOk (w : Word) {s : State} (h : s.memOk = true) : (s.abortMemories w).memOk = true := by
  have hk := s.wouldWrite_stepsTo w
  have hm := hk.memOk h
  rw [State.memOk_iff] at hm ⊢
  rw [hk.cfg_eq] at hm
  exact ⟨Mem.wf_blend _ _ hm.1, Mem.wf_blend _ _ hm.2.1, Mem.wf_blend _ _ hm.2.2.1, Mem.below_blend _ _ hm.2.2.2.1,
    Mem.below_blend _ _ hm.2.2.2.2.1, Mem.below_blend _ _ hm.2.2.2.2.2⟩

/-- Each location after an abort: drawn from its value at the start and the value the command would have written. -/
theorem State.abortMemories_read? (w : Word) {s : State} (h : s.memOk = true) (k : Nat) :
    (s.abortMemories w).msg.read? k =
      (if Config.abortKeepsNew s.aborts .msg k then (s.wouldWrite w).msg.read? k else s.msg.read? k) ∧
    (s.abortMemories w).bit.read? k =
      (if Config.abortKeepsNew s.aborts .bit k then (s.wouldWrite w).bit.read? k else s.bit.read? k) ∧
    (s.abortMemories w).pix.read? k =
      (if Config.abortKeepsNew s.aborts .pix k then (s.wouldWrite w).pix.read? k else s.pix.read? k) := by
  have hk := s.wouldWrite_stepsTo w
  have hm := State.memOk_iff.mp (hk.memOk h)
  exact ⟨Mem.read?_blend _ _ hm.1 k (hk.msg_isSome k), Mem.read?_blend _ _ hm.2.1 k (hk.bit_isSome k),
    Mem.read?_blend _ _ hm.2.2.1 k (hk.pix_isSome k)⟩

end Sys2Proof.Machine
end

