-- ==== Sys2Proof/Laws/Bus.lean ====
section
/-! SUPPORT. The bus: which target an offset has, what the lanes of a window word are, what a write to a window stores,
and that every write keeps the memories' form (20_memory R39 to R46). -/

namespace Sys2Proof.Machine

open Sys2Proof

/-! ### Targets (R39) -/

theorem targetOf_reg {off : Nat} {r : RegName} (h : off < 0x1000) (hr : regAt (off / 4) = some r) :
    targetOf off = .reg r := by
  simp [targetOf, h, hr]

theorem regAt_none {j : Nat} (h : 16 ≤ j) : regAt j = none := by
  obtain ⟨k, rfl⟩ : ∃ k, j = k + 16 := ⟨j - 16, by omega⟩
  rfl

theorem targetOf_reserved {off : Nat} (h : (0x40 ≤ off ∧ off < 0x10000) ∨ (0x30000 ≤ off ∧ off < 0x1000000)) :
    targetOf off = .reserved := by
  unfold targetOf msgWindow bitWindow pixWindow
  by_cases h1 : off < 0x1000
  · rw [if_pos h1, regAt_none (by omega)]
  · rw [if_neg h1]
    by_cases h2 : off < 0x10000
    · rw [if_pos h2]
    · rw [if_neg h2, if_neg (by omega), if_neg (by omega), if_pos (by omega)]

theorem targetOf_msg {j : Nat} (h : j < 0x4000) : targetOf (0x10000 + 4 * j) = .msg j := by
  unfold targetOf msgWindow bitWindow
  rw [if_neg (by omega), if_neg (by omega), if_pos (by omega)]
  congr 1; omega

theorem targetOf_bit {j : Nat} (h : j < 0x4000) : targetOf (0x20000 + 4 * j) = .bit j := by
  unfold targetOf msgWindow bitWindow
  rw [if_neg (by omega), if_neg (by omega), if_neg (by omega), if_pos (by omega)]
  congr 1; omega

theorem targetOf_pix {i : Nat} (h : i < 0x400000) : targetOf (0x1000000 + 4 * i) = .pix i := by
  unfold targetOf msgWindow bitWindow pixWindow blockBytes
  rw [if_neg (by omega), if_neg (by omega), if_neg (by omega), if_neg (by omega), if_neg (by omega), if_pos (by omega)]
  congr 1; omega

/-- The aligned offset of a register is its own. -/
theorem targetOf_eq_reg {off : Nat} {r : RegName} (ha : off % 4 = 0) (h : targetOf off = .reg r) : off = r.offset := by
  unfold targetOf at h
  split at h
  · split at h
    · rename_i r' hr
      cases h
      have hlt : off / 4 < 16 := by
        by_contra hc; rw [regAt_none (by omega)] at hr; cases hr
      have hoff : off = 4 * (off / 4) := by omega
      generalize off / 4 = j at *
      subst hoff
      interval_cases j <;> cases hr <;> rfl
    · cases h
  · repeat' split at h
    all_goals cases h

/-! ### Accesses by target -/

theorem State.busWrite_low {s : State} (hr : s.rst = false) (off : Nat) (v : Word) :
    s.busWrite off v = s.writeTarget v (targetOf off) := by
  simp [State.busWrite, hr]

theorem State.busWrite_high {s : State} (hr : s.rst = true) (off : Nat) (v : Word) : s.busWrite off v = s := by
  simp [State.busWrite, hr]

theorem State.busRead_idle {s : State} (hr : s.rst = false) (hb : s.busy = false) (off : Nat) :
    s.busRead off = s.targetValue (targetOf off) := by
  simp [State.busRead, hr, hb]

theorem State.busRead_readable {s : State} (hr : s.rst = false) {off : Nat}
    (ht : (targetOf off).readableBusy = true) : s.busRead off = s.targetValue (targetOf off) := by
  simp [State.busRead, hr, ht]

/-- A target that R46 gates reads 0 while a command runs. -/
theorem State.busRead_gated {s : State} (hb : s.busy = true) {off : Nat}
    (ht : (targetOf off).readableBusy = false) : s.busRead off = 0 := by
  simp [State.busRead, hb, ht]

/-! ### Lanes of a window word -/

theorem lane_windowWord (c : Config) (f : Nat → Byte) (j : Nat) {t : Nat} (ht : t < 4) :
    lane (windowWord c f j) t = if 4 * j + t < c.maxMsgBytes then f (4 * j + t) else 0 := by
  obtain ⟨h0, h1, h2, h3⟩ := lane_ofLanes
    (if 4 * j < c.maxMsgBytes then f (4 * j) else 0) (if 4 * j + 1 < c.maxMsgBytes then f (4 * j + 1) else 0)
    (if 4 * j + 2 < c.maxMsgBytes then f (4 * j + 2) else 0) (if 4 * j + 3 < c.maxMsgBytes then f (4 * j + 3) else 0)
  have e : t = 0 ∨ t = 1 ∨ t = 2 ∨ t = 3 := by omega
  rcases e with rfl | rfl | rfl | rfl
  · exact h0
  · exact h1
  · exact h2
  · exact h3

theorem windowWord_past (c : Config) (f : Nat → Byte) {j : Nat} (h : c.maxMsgBytes ≤ 4 * j) : windowWord c f j = 0 := by
  simp only [windowWord]
  rw [if_neg (by omega), if_neg (by omega), if_neg (by omega), if_neg (by omega)]
  rfl

/-- Bit `8t + b` of a word is bit `b` of its lane `t`. -/
theorem getLsbD_eq_lane (p : Word) (t : Nat) {b : Nat} (hb : b < 8) : p.getLsbD (8 * t + b) = (lane p t).getLsbD b :=
  (lane_getLsbD p t hb).symm

/-- Bit `7 - j` of a BITMEM byte as read is stream bit `8k + j` (R42). -/
theorem bitByte_getLsbD (s : State) (k : Nat) {j : Nat} (hj : j < 8) :
    (s.bitByte k).getLsbD (7 - j) = s.streamBit (8 * k + j) := by
  have h := bitsByte_getLsbD (bs := (List.range 8).map (fun j => s.streamBit (8 * k + j))) (by simp) hj
  rw [List.getElem?_map, List.getElem?_range hj] at h
  exact (Option.some.inj h).symm

/-! ### What a window write stores -/

/-- One lane into MSGMEM (R41, R44). -/
theorem msgLane_read? (c : Config) (j : Nat) (v : Word) (m : Mem Byte) (t k : Nat) :
    (msgLane c j v m t).read? k =
      if k = 4 * j + t ∧ k < c.maxMsgBytes then some (lane v t) else m.read? k := by
  unfold msgLane
  split
  · rw [Mem.read?_write]
    by_cases h : 4 * j + t = k
    · subst h; rw [if_pos rfl, if_pos ⟨rfl, by assumption⟩]
    · rw [if_neg h, if_neg (by omega)]
  · rw [if_neg (by omega)]

/-- The four lanes of a word into MSGMEM. -/
theorem msgLanes_read? (c : Config) (j : Nat) (v : Word) (m : Mem Byte) (k : Nat) :
    ([0, 1, 2, 3].foldl (msgLane c j v) m).read? k =
      if 4 * j ≤ k ∧ k < 4 * j + 4 ∧ k < c.maxMsgBytes then some (lane v (k - 4 * j)) else m.read? k := by
  simp only [List.foldl_cons, List.foldl_nil, msgLane_read?]
  by_cases h : 4 * j ≤ k ∧ k < 4 * j + 4 ∧ k < c.maxMsgBytes
  · rw [if_pos h]
    obtain ⟨h1, h2, h3⟩ := h
    have e : k = 4 * j ∨ k = 4 * j + 1 ∨ k = 4 * j + 2 ∨ k = 4 * j + 3 := by omega
    rcases e with rfl | rfl | rfl | rfl
    · simp [h3]
    · simp [h3]
    · simp [h3]
    · simp [h3]
  · rw [if_neg h, if_neg (by omega), if_neg (by omega), if_neg (by omega), if_neg (by omega)]

/-- One lane into the eight bits of a BITMEM byte (R42, R44). -/
theorem bitLane_read? (c : Config) (j : Nat) (v : Word) (m : Mem Bool) (t k : Nat) :
    (bitLane c j v m t).read? k =
      if k / 8 = 4 * j + t ∧ k / 8 < c.maxMsgBytes then some ((lane v t).getLsbD (7 - k % 8)) else m.read? k := by
  unfold bitLane
  split
  · rw [Mem.read?_writeRun, byteBits_length]
    by_cases h : k / 8 = 4 * j + t
    · rw [if_pos (by omega), if_pos ⟨h, by omega⟩, byteBits_getElem? _ (by omega)]
      congr 2; omega
    · rw [if_neg (by omega), if_neg (by omega)]
  · rw [if_neg (by omega)]

/-- The four lanes of a word into BITMEM. -/
theorem bitLanes_read? (c : Config) (j : Nat) (v : Word) (m : Mem Bool) (k : Nat) :
    ([0, 1, 2, 3].foldl (bitLane c j v) m).read? k =
      if k / 32 = j ∧ k / 8 < c.maxMsgBytes then some (v.getLsbD (8 * (k / 8 % 4) + 7 - k % 8)) else m.read? k := by
  simp only [List.foldl_cons, List.foldl_nil, bitLane_read?]
  by_cases h : k / 32 = j ∧ k / 8 < c.maxMsgBytes
  · rw [if_pos h]
    obtain ⟨h1, h2⟩ := h
    have key : ∀ t, t = k / 8 % 4 → (lane v t).getLsbD (7 - k % 8) = v.getLsbD (8 * (k / 8 % 4) + 7 - k % 8) := by
      intro t ht
      rw [lane_getLsbD v t (by omega), ht]; congr 1; omega
    have e : k / 8 = 4 * j ∨ k / 8 = 4 * j + 1 ∨ k / 8 = 4 * j + 2 ∨ k / 8 = 4 * j + 3 := by omega
    rcases e with e | e | e | e
    · rw [if_neg (by omega), if_neg (by omega), if_neg (by omega), if_pos (by omega), key 0 (by omega)]
    · rw [if_neg (by omega), if_neg (by omega), if_pos (by omega), key 1 (by omega)]
    · rw [if_neg (by omega), if_pos (by omega), key 2 (by omega)]
    · rw [if_pos (by omega), key 3 (by omega)]
  · rw [if_neg h, if_neg (by omega), if_neg (by omega), if_neg (by omega), if_neg (by omega)]

/-- No lane past the memory is stored. -/
theorem msgLanes_past (c : Config) {j : Nat} (v : Word) (m : Mem Byte) (h : c.maxMsgBytes ≤ 4 * j) :
    [0, 1, 2, 3].foldl (msgLane c j v) m = m := by
  simp only [List.foldl_cons, List.foldl_nil, msgLane]
  rw [if_neg (by omega), if_neg (by omega), if_neg (by omega), if_neg (by omega)]

theorem bitLanes_past (c : Config) {j : Nat} (v : Word) (m : Mem Bool) (h : c.maxMsgBytes ≤ 4 * j) :
    [0, 1, 2, 3].foldl (bitLane c j v) m = m := by
  simp only [List.foldl_cons, List.foldl_nil, bitLane]
  rw [if_neg (by omega), if_neg (by omega), if_neg (by omega), if_neg (by omega)]

/-! ### Every write keeps the memories' form -/

theorem msgLane_ok (c : Config) (j : Nat) (v : Word) {m : Mem Byte} (t : Nat)
    (h : m.wf = true ∧ m.below c.maxMsgBytes = true) :
    (msgLane c j v m t).wf = true ∧ (msgLane c j v m t).below c.maxMsgBytes = true := by
  unfold msgLane
  split
  · exact ⟨Mem.wf_write h.1 _ _, Mem.below_write h.2 (by assumption) _⟩
  · exact h

theorem bitLane_ok (c : Config) (j : Nat) (v : Word) {m : Mem Bool} (t : Nat)
    (h : m.wf = true ∧ m.below c.maxBits = true) :
    (bitLane c j v m t).wf = true ∧ (bitLane c j v m t).below c.maxBits = true := by
  unfold bitLane
  split
  · exact ⟨Mem.wf_writeRun h.1 _ _, Mem.below_writeRun h.2 (by simp [Config.maxBits]; omega)⟩
  · exact h

theorem State.softReset_memOk {s : State} (h : s.memOk = true) : s.softReset.memOk = true := by
  unfold State.softReset
  split
  · exact h
  · exact State.abortMemories_memOk _ h

/-- Every host write keeps the memories' form and size. -/
theorem State.busWrite_memOk {s : State} (h : s.memOk = true) (off : Nat) (v : Word) :
    (s.busWrite off v).memOk = true := by
  have hm := State.memOk_iff.mp h
  unfold State.busWrite
  split
  · exact h
  · cases targetOf off with
    | reserved => exact h
    | msg j =>
      simp only [State.writeTarget, State.whenIdle]
      split
      · exact h
      · rw [State.memOk_iff]
        have h4 := msgLane_ok s.cfg j v 3 (msgLane_ok s.cfg j v 2 (msgLane_ok s.cfg j v 1
          (msgLane_ok s.cfg j v 0 ⟨hm.1, hm.2.2.2.1⟩)))
        exact ⟨h4.1, hm.2.1, hm.2.2.1, h4.2, hm.2.2.2.2⟩
    | bit j =>
      simp only [State.writeTarget, State.whenIdle]
      split
      · exact h
      · rw [State.memOk_iff]
        have h4 := bitLane_ok s.cfg j v 3 (bitLane_ok s.cfg j v 2 (bitLane_ok s.cfg j v 1
          (bitLane_ok s.cfg j v 0 ⟨hm.2.1, hm.2.2.2.2.1⟩)))
        exact ⟨hm.1, h4.1, hm.2.2.1, hm.2.2.2.1, h4.2, hm.2.2.2.2.2⟩
    | pix i =>
      simp only [State.writeTarget, State.whenIdle]
      split
      · exact h
      · split
        · rw [State.memOk_iff]
          exact ⟨hm.1, hm.2.1, Mem.wf_write hm.2.2.1 _ _, hm.2.2.2.1, hm.2.2.2.2.1,
            Mem.below_write hm.2.2.2.2.2 (by assumption) _⟩
        · exact h
    | reg r =>
      cases r <;> simp only [State.writeTarget, State.writeReg, State.whenIdle, State.writeCtrl, State.writeCmd] <;>
        (try split) <;> first | exact h | exact State.softReset_memOk h

/-! ### What a write to a register changes -/

/-- The soft reset but for the memories and the abort count: the register part of a reset. -/
theorem State.softReset_frame (s : State) :
    s.softReset = { s.resetRegs with msg := s.softReset.msg, bit := s.softReset.bit, pix := s.softReset.pix,
                                     aborts := s.softReset.aborts } := by
  unfold State.softReset
  split <;> rfl

end Sys2Proof.Machine
end

