-- ==== Sys2Proof/Laws/Step.lean ====
section
/-! SUPPORT. Everything a step can do, said once: the engine's end of a command, or the host's next statement. -/

namespace Sys2Proof.Machine

open Sys2Proof

/-- What the engine's turn answers when it answers a next state. -/
theorem engineTurn_next {s t : State} (h : engineTurn s = .next t) :
    (t = s ∧ (s.rst = true ∨ s.engine = .idle)) ∨
    (∃ w i, s.rst = false ∧ s.engine = .busy w ∧ decode w = .ok i ∧ exec i s = .next t) ∨
    (∃ w e, s.rst = false ∧ s.engine = .busy w ∧ decode w = .error e ∧ t = s.latchError .illegalCommand w) := by
  unfold engineTurn at h
  split at h
  · cases h; exact .inl ⟨rfl, .inl (by assumption)⟩
  · rename_i hr
    cases he : s.engine with
    | idle => rw [he] at h; cases h; exact .inl ⟨rfl, .inr rfl⟩
    | busy w =>
      rw [he] at h
      simp only [endCommand] at h
      split at h
      · exact .inr (.inl ⟨w, _, by simpa using hr, rfl, by assumption, h⟩)
      · cases h; exact .inr (.inr ⟨w, _, by simpa using hr, rfl, by assumption, rfl⟩)

/-- What the host's turn answers when it answers a next state; `rest` is the script after the statement. -/
theorem hostTurn_next {s t : State} (h : hostTurn s = .next t) :
    (s.inputs = [] ∧ t = s) ∨
    (∃ addr rest, s.inputs = .read .word addr :: rest ∧ offsetOf s.cfg addr = some (addr - s.cfg.base) ∧
      (addr - s.cfg.base) % 4 = 0 ∧ t = State.recordRead { s with inputs := rest } (addr - s.cfg.base)) ∨
    (∃ addr v rest, s.inputs = .write .word addr v :: rest ∧ offsetOf s.cfg addr = some (addr - s.cfg.base) ∧
      (addr - s.cfg.base) % 4 = 0 ∧ t = State.busWrite { s with inputs := rest } (addr - s.cfg.base) v) ∨
    (∃ rest, s.inputs = .wait :: rest ∧ t = waitStep { s with inputs := rest }) ∨
    (∃ level rest, s.inputs = .rst level :: rest ∧ t = State.setRst level { s with inputs := rest }) := by
  have hacc : ∀ {width addr f} {r : State}, access width addr f r = .next t →
      width = .word ∧ offsetOf r.cfg addr = some (addr - r.cfg.base) ∧ (addr - r.cfg.base) % 4 = 0 ∧
        t = f (addr - r.cfg.base) := by
    intro width addr f r ha
    unfold access at ha
    split at ha
    · cases ha
    · rename_i off ho
      split at ha
      · rename_i hw
        cases ha
        have : off = addr - r.cfg.base := by
          unfold offsetOf at ho
          split at ho
          · cases ho; rfl
          · cases ho
        subst this
        exact ⟨hw.1, ho, hw.2, rfl⟩
      · cases ha
  unfold hostTurn at h
  cases hi : s.inputs with
  | nil => rw [hi] at h; cases h; exact .inl ⟨rfl, rfl⟩
  | cons i rest =>
    rw [hi] at h
    cases i with
    | read width addr =>
      obtain ⟨rfl, ho, ha, ht⟩ := hacc h
      exact .inr (.inl ⟨addr, rest, rfl, ho, ha, ht⟩)
    | write width addr v =>
      obtain ⟨rfl, ho, ha, ht⟩ := hacc h
      exact .inr (.inr (.inl ⟨addr, v, rest, rfl, ho, ha, ht⟩))
    | wait => cases h; exact .inr (.inr (.inr (.inl ⟨rest, rfl, rfl⟩)))
    | rst level => cases h; exact .inr (.inr (.inr (.inr ⟨level, rest, rfl, rfl⟩)))

/-- A step is the turn of the agent whose turn it is, with that turn used up. -/
theorem step_next {s t : State} (h : step s = .next t) :
    (s.mover = .engine ∧ engineTurn s.popTurn = .next t) ∨ (s.mover = .host ∧ hostTurn s.popTurn = .next t) := by
  unfold step event at h
  cases hm : s.mover with
  | engine => rw [hm] at h; exact .inl ⟨rfl, h⟩
  | host => rw [hm] at h; exact .inr ⟨rfl, h⟩

/-- The engine moves when its turn is listed first, or when no turn is listed and a command runs with RST low. -/
theorem State.mover_engine {s : State} (h : s.turns.head? = some .engine ∨ (s.turns = [] ∧ s.busy = true ∧ s.rst = false)) :
    s.mover = .engine := by
  unfold State.mover
  rcases h with h | ⟨h1, h2, h3⟩
  · cases ht : s.turns with
    | nil => rw [ht] at h; cases h
    | cons a ts => rw [ht] at h; cases h; rfl
  · simp [h1, h2, h3]

theorem State.mover_host {s : State} (h : s.turns.head? = some .host) : s.mover = .host := by
  unfold State.mover
  cases ht : s.turns with
  | nil => rw [ht] at h; cases h
  | cons a ts => rw [ht] at h; cases h; rfl

/-- With no turn listed the host moves while the engine is idle or RST is high (log 6). -/
theorem State.mover_host_default {s : State} (ht : s.turns = []) (h : s.engine = .idle ∨ s.rst = true) :
    s.mover = .host := by
  unfold State.mover
  rw [ht]
  rcases h with h | h
  · simp [State.busy, h]
  · simp [h]

/-- A step in the host's turn is the host's move with the turn used up. -/
theorem step_of_host {s : State} (h : s.mover = .host) : step s = hostTurn s.popTurn := by
  unfold step event; rw [h]

/-- A step in the engine's turn is the engine's move with the turn used up. -/
theorem step_of_engine {s : State} (h : s.mover = .engine) : step s = engineTurn s.popTurn := by
  unfold step event; rw [h]

/-! ### What the end of a command leaves -/

/-- The end of a command that does not fault: successful, or with an error, on a state that `StepsTo` relates to the
start. -/
theorem exec_next {i : Instr} {s t : State} (h : exec i s = .next t) :
    ∃ u, s.StepsTo u ∧ ((commandBody .strict i s = .done u ∧ t = u.complete) ∨
      ∃ e info, commandBody .strict i s = .raised e info u ∧ t = u.latchError e info) := by
  have hk := commandBody_keeps .strict i s
  rw [exec_eq_finish] at h
  cases hx : commandBody .strict i s with
  | done u => rw [hx] at h hk; cases h; exact ⟨u, hk, .inl ⟨rfl, rfl⟩⟩
  | raised e info u => rw [hx] at h hk; cases h; exact ⟨u, hk, .inr ⟨e, info, rfl, rfl⟩⟩
  | fault f => rw [hx] at h; cases h

/-- The engine is idle after every command's end. -/
theorem exec_idle {i : Instr} {s t : State} (h : exec i s = .next t) : t.engine = .idle := by
  obtain ⟨u, -, ⟨-, rfl⟩ | ⟨e, info, -, rfl⟩⟩ := exec_next h <;> rfl

/-- The parameters are no command's to change. -/
theorem exec_cfg {i : Instr} {s t : State} (h : exec i s = .next t) : t.cfg = s.cfg := by
  obtain ⟨u, hu, ⟨-, rfl⟩ | ⟨e, info, -, rfl⟩⟩ := exec_next h <;> exact hu.cfg_eq

/-- Which errors a step or a command raises (R81, column "raised by"): never RangeError, NotFoundError or
IllegalCommand. -/
theorem commandBody_raised_code {r : Reader} {i : Instr} {s t : State} {e : CmdError} {info : Word}
    (h : commandBody r i s = .raised e info t) :
    e = .encodingError ∨ e = .capacityError ∨ e = .formatError ∨ e = .configError := by
  have henc : ∀ {s t}, encodeStep r s = .raised e info t → e = .encodingError ∨ e = .configError := by
    intro s t h; rcases (encodeStep_raised h).2 with ⟨rfl, -⟩ | ⟨-, i, rfl, -⟩ <;> simp
  have hdec : ∀ {s t}, decodeStep r s = .raised e info t → e = .formatError ∨ e = .configError := by
    intro s t h; rcases (decodeStep_raised h).2 with ⟨rfl, -⟩ | ⟨-, rfl, -⟩ <;> simp
  cases i with
  | nop => cases h
  | encode => rcases henc h with h | h <;> simp [h]
  | decode => rcases hdec h with h | h <;> simp [h]
  | capchk => simp [(capchkStep_raised h).2.1]
  | embed => simp [(embedStep_raised h).2.1]
  | extract => simp [(extractStep_raised h).2.1]
  | encrypt =>
    rcases StepResult.andThen_raised.mp h with h | ⟨_, -, h⟩
    · rcases StepResult.andThen_raised.mp h with h | ⟨_, -, h⟩
      · rcases StepResult.andThen_raised.mp h with h | ⟨_, -, h⟩
        · simp [(compositeChecks_raised h).2.1]
        · simp [(capchkStep_raised h).2.1]
      · rcases henc h with h | h <;> simp [h]
    · simp [(embedStep_raised h).2.1]
  | decrypt =>
    rcases StepResult.andThen_raised.mp h with h | ⟨_, -, h⟩
    · rcases StepResult.andThen_raised.mp h with h | ⟨_, -, h⟩
      · simp [(compositeChecks_raised h).2.1]
      · simp [(extractStep_raised h).2.1]
    · rcases hdec h with h | h <;> simp [h]

end Sys2Proof.Machine
end

