-- ==== Sys2Proof/Laws/Control.lean ====
section
/-! SUPPORT. A command's effect does not depend on the control part of the state (STATUS, the error record, CTRL, the
engine's phase): changing that part before a step or after it is the same. -/

namespace Sys2Proof.Machine

open Sys2Proof

/-- The control part of a state. -/
structure Control where
  engine : Engine
  irqEn : Bool
  done : Bool
  err : Bool
  cmdDropped : Bool
  errCode : BitVec 4
  errInfo : Word

/-- The control part of a state replaced. -/
def State.withControl (c : Control) (s : State) : State :=
  { s with engine := c.engine, irqEn := c.irqEn, done := c.done, err := c.err, cmdDropped := c.cmdDropped,
           errCode := c.errCode, errInfo := c.errInfo }

/-- The control part of a state. -/
def State.control (s : State) : Control :=
  { engine := s.engine, irqEn := s.irqEn, done := s.done, err := s.err, cmdDropped := s.cmdDropped,
    errCode := s.errCode, errInfo := s.errInfo }

theorem State.withControl_self (s : State) : s.withControl s.control = s := rfl

theorem State.withControl_withControl (c d : Control) (s : State) :
    (s.withControl c).withControl d = s.withControl d := rfl

/-- The state of an answer changed. -/
def StepResult.mapState (f : State → State) : StepResult → StepResult
  | .done s => .done (f s)
  | .raised e info s => .raised e info (f s)
  | .fault x => .fault x

theorem StepResult.mapState_ite (f : State → State) (p : Prop) [Decidable p] (x y : StepResult) :
    (if p then x else y).mapState f = if p then x.mapState f else y.mapState f := by
  split <;> rfl

theorem encodeStep_withControl (r : Reader) (c : Control) (s : State) :
    encodeStep r (s.withControl c) = (encodeStep r s).mapState (State.withControl c) := by
  unfold encodeStep
  rw [StepResult.mapState_ite]
  show (if s.cfg.maxMsgBytes < s.msgLen.toNat then _ else _) = _
  split
  · rfl
  · show (match scanText (r.msg s.msg) 0 s.msgLen.toNat with
      | .unwritten i => _ | .nonAscii i => _ | .text bs => _) = _
    cases scanText (r.msg s.msg) 0 s.msgLen.toNat <;> rfl

theorem decodeStep_withControl (r : Reader) (c : Control) (s : State) :
    decodeStep r (s.withControl c) = (decodeStep r s).mapState (State.withControl c) := by
  unfold decodeStep
  rw [StepResult.mapState_ite, StepResult.mapState_ite]
  show (if s.cfg.maxBits < s.bitCount.toNat then _ else if s.bitCount.toNat % 8 ≠ 0 then _ else _) = _
  split
  · rfl
  · split
    · rfl
    · show (match readChunks (r.bit s.bit) 0 (s.bitCount.toNat / 8) with | .error i => _ | .ok bytes => _) = _
      cases readChunks (r.bit s.bit) 0 (s.bitCount.toNat / 8) <;> rfl

theorem capchkStep_withControl (c : Control) (s : State) :
    capchkStep (s.withControl c) = (capchkStep s).mapState (State.withControl c) := by
  unfold capchkStep
  rw [StepResult.mapState_ite]
  rfl

theorem embedStep_withControl (r : Reader) (c : Control) (s : State) :
    embedStep r (s.withControl c) = (embedStep r s).mapState (State.withControl c) := by
  unfold embedStep
  rw [StepResult.mapState_ite, StepResult.mapState_ite]
  show (if s.cfg.pixWords < s.gridW * s.gridH then _ else if s.cfg.maxBits < s.bitCount.toNat then _ else _) = _
  split
  · rfl
  · split
    · rfl
    · show (match embedLoop (r.bit s.bit) r.pix s.gridW s.gridH 0 s.embedGroups s.pix with
        | .error i => _ | .ok bytes => _) = _
      cases embedLoop (r.bit s.bit) r.pix s.gridW s.gridH 0 s.embedGroups s.pix <;> rfl

theorem extractStep_withControl (r : Reader) (c : Control) (s : State) :
    extractStep r (s.withControl c) = (extractStep r s).mapState (State.withControl c) := by
  unfold extractStep
  rw [StepResult.mapState_ite, StepResult.mapState_ite]
  show (if s.cfg.pixWords < s.gridW * s.gridH then _ else if s.cfg.maxBits < s.totalBits.toNat then _ else _) = _
  split
  · rfl
  · split
    · rfl
    · show (match extractLoop (r.pix s.pix) s.gridW s.gridH 0 s.extractGroups with
        | .error i => _ | .ok bytes => _) = _
      cases extractLoop (r.pix s.pix) s.gridW s.gridH 0 s.extractGroups <;> rfl

theorem compositeChecks_withControl (c : Control) (s : State) :
    compositeChecks (s.withControl c) = (compositeChecks s).mapState (State.withControl c) := by
  unfold compositeChecks
  rw [StepResult.mapState_ite, StepResult.mapState_ite]
  rfl

theorem StepResult.andThen_mapState {f : State → State} {x : StepResult} {g : State → StepResult}
    (hg : ∀ s, g (f s) = (g s).mapState f) : (x.mapState f).andThen g = (x.andThen g).mapState f := by
  cases x with
  | done s => exact hg s
  | raised e info s => rfl
  | fault y => rfl

/-- A command on a state with another control part is the command with that control part after it. -/
theorem commandBody_withControl (r : Reader) (i : Instr) (c : Control) (s : State) :
    commandBody r i (s.withControl c) = (commandBody r i s).mapState (State.withControl c) := by
  cases i with
  | nop => rfl
  | encode => exact encodeStep_withControl r c s
  | decode => exact decodeStep_withControl r c s
  | capchk => exact capchkStep_withControl c s
  | embed => exact embedStep_withControl r c s
  | extract => exact extractStep_withControl r c s
  | encrypt =>
    show ((((compositeChecks (s.withControl c)).andThen capchkStep).andThen (encodeStep r)).andThen (embedStep r)) = _
    rw [compositeChecks_withControl, StepResult.andThen_mapState (capchkStep_withControl c),
      StepResult.andThen_mapState (encodeStep_withControl r c), StepResult.andThen_mapState (embedStep_withControl r c)]
    rfl
  | decrypt =>
    show (((compositeChecks (s.withControl c)).andThen (fun t => extractStep r t.setBudget)).andThen (decodeStep r)) = _
    rw [compositeChecks_withControl, StepResult.andThen_mapState (fun t => extractStep_withControl r c t.setBudget),
      StepResult.andThen_mapState (decodeStep_withControl r c)]
    rfl

theorem State.complete_eq_withControl (s : State) :
    s.complete = s.withControl { s.control with engine := .idle, done := true } := rfl

theorem State.latchError_eq_withControl (e : CmdError) (info : Word) (s : State) :
    s.latchError e info =
      s.withControl { s.control with engine := .idle, err := true, errCode := e.code, errInfo := info } := rfl

end Sys2Proof.Machine
end

