-- ==== Sys2Proof/Laws/Faults.lean ====
section
/-! SUPPORT. When a step of the engine faults, on which location, and which location it stops at first: the other half
of the spec lemmas of Laws/Steps (70_reset_and_hazards R94). -/

namespace Sys2Proof.Machine

open Sys2Proof

/-- A run of reads that fails names an index of the run that is not there. -/
theorem readRun_error {α : Type} {at? : Nat → Option α} {i n k : Nat} (h : readRun at? i n = .error k) :
    at? k = none ∧ i ≤ k ∧ k < i + n := by
  induction n generalizing i with
  | zero => cases h
  | succ n ih =>
    unfold readRun at h
    cases hi : at? i with
    | none => simp only [hi] at h; cases h; exact ⟨hi, Nat.le_refl _, by omega⟩
    | some v =>
      simp only [hi] at h
      cases hr : readRun at? (i + 1) n with
      | error j =>
        simp only [hr] at h; cases h
        obtain ⟨h1, h2, h3⟩ := ih hr
        exact ⟨h1, by omega, by omega⟩
      | ok vs => simp only [hr] at h; cases h

/-- Chunks that fail name a bit of theirs that is not there. -/
theorem readChunks_error {at? : Nat → Option Bool} {k n i : Nat} (h : readChunks at? k n = .error i) :
    at? i = none ∧ 8 * k ≤ i ∧ i < 8 * (k + n) := by
  induction n generalizing k with
  | zero => cases h
  | succ n ih =>
    unfold readChunks at h
    cases hr : readRun at? (8 * k) 8 with
    | error j =>
      simp only [hr] at h; cases h
      obtain ⟨h1, h2, h3⟩ := readRun_error hr
      exact ⟨h1, h2, by omega⟩
    | ok bs =>
      simp only [hr] at h
      cases hc : readChunks at? (k + 1) n with
      | error j =>
        simp only [hc] at h; cases h
        obtain ⟨h1, h2, h3⟩ := ih hc
        exact ⟨h1, by omega, by omega⟩
      | ok rest => simp only [hc] at h; cases h

/-- Visits of EMBED that fail name a bit of a group, or the word of a visit, that is not there. -/
theorem embedLoop_error {bitAt? : Nat → Option Bool} {pixAt? : Mem Pixel → Nat → Option Pixel} {w h n g : Nat}
    {m : Mem Pixel} {f : Fault}
    (hpix : ∀ m i v j, (pixAt? m j).isSome = true → (pixAt? (Mem.write m i v) j).isSome = true)
    (he : embedLoop bitAt? pixAt? w h n g m = .error f) :
    (∃ k, f = .unwrittenBit k ∧ 3 * n ≤ k ∧ k < 3 * (n + g) ∧ bitAt? k = none) ∨
    (∃ k, f = .unwrittenPix (pixIndex w h k) ∧ n ≤ k ∧ k < n + g ∧ pixAt? m (pixIndex w h k) = none) := by
  induction g generalizing n m with
  | zero => cases he
  | succ g ih =>
    simp only [embedLoop] at he
    split at he
    · rcases ih he with ⟨k, h1, h2, h3, h4⟩ | ⟨k, h1, h2, h3, h4⟩
      · exact .inl ⟨k, h1, by omega, by omega, h4⟩
      · refine .inr ⟨k, h1, by omega, by omega, ?_⟩
        cases hk : pixAt? m (pixIndex w h k) with
        | none => rfl
        | some p =>
          exact absurd (hpix m _ _ _ (by rw [hk]; rfl)) (by rw [h4]; simp)
    · cases he; exact .inr ⟨n, rfl, Nat.le_refl _, by omega, by assumption⟩
    · cases he; exact .inl ⟨_, rfl, by omega, by omega, by assumption⟩
    · cases he; exact .inl ⟨_, rfl, by omega, by omega, by assumption⟩
    · cases he; exact .inl ⟨_, rfl, by omega, by omega, by assumption⟩

/-- Visits of EXTRACT that fail name the word of a visit that is not there. -/
theorem extractLoop_error {pixAt? : Nat → Option Pixel} {w h n g i : Nat}
    (he : extractLoop pixAt? w h n g = .error i) :
    ∃ k, i = pixIndex w h k ∧ n ≤ k ∧ k < n + g ∧ pixAt? i = none := by
  induction g generalizing n with
  | zero => cases he
  | succ g ih =>
    simp only [extractLoop] at he
    split at he
    · cases he; exact ⟨n, rfl, Nat.le_refl _, by omega, by assumption⟩
    · split at he
      · rename_i p hp j hj
        cases he
        obtain ⟨k, h1, h2, h3, h4⟩ := ih hj
        exact ⟨k, h1, by omega, by omega, h4⟩
      · cases he

/-- ENCODE faults on an unwritten byte of the message and on nothing else. -/
theorem encodeStep_fault {r : Reader} {s : State} {f : Fault} (h : encodeStep r s = .fault f) :
    ∃ i, f = .unwrittenMsg i ∧ i < s.msgLen.toNat ∧ r.msg s.msg i = none := by
  unfold encodeStep at h
  split at h
  · cases h
  · split at h
    · rename_i i hi
      cases h
      obtain ⟨-, h2, h3, -⟩ := scanText_unwritten.mp hi
      exact ⟨i, rfl, by omega, h3⟩
    · cases h
    · cases h

/-- DECODE faults on an unwritten bit of the stream and on nothing else. -/
theorem decodeStep_fault {r : Reader} {s : State} {f : Fault} (h : decodeStep r s = .fault f) :
    ∃ i, f = .unwrittenBit i ∧ i < s.bitCount.toNat ∧ r.bit s.bit i = none := by
  unfold decodeStep at h
  split at h
  · cases h
  · split at h
    · cases h
    · split at h
      · rename_i i hi
        cases h
        obtain ⟨h1, -, h3⟩ := readChunks_error hi
        exact ⟨i, rfl, by omega, h1⟩
      · cases h

/-- EMBED faults on an unwritten bit of a group or an unwritten visited word and on nothing else. -/
theorem embedStep_fault {r : Reader} (hr : r.Lawful) {s : State} {f : Fault} (h : embedStep r s = .fault f) :
    (∃ k, f = .unwrittenBit k ∧ k < 3 * s.embedGroups ∧ r.bit s.bit k = none) ∨
    (∃ k, f = .unwrittenPix (pixIndex s.gridW s.gridH k) ∧ k < s.embedGroups ∧
      r.pix s.pix (pixIndex s.gridW s.gridH k) = none) := by
  unfold embedStep at h
  split at h
  · cases h
  · split at h
    · cases h
    · split at h
      · rename_i x hx
        cases h
        rcases embedLoop_error hr.pix_isSome hx with ⟨k, h1, -, h3, h4⟩ | ⟨k, h1, -, h3, h4⟩
        · exact .inl ⟨k, h1, by omega, h4⟩
        · exact .inr ⟨k, h1, by omega, h4⟩
      · cases h

/-- EXTRACT faults on an unwritten visited word and on nothing else. -/
theorem extractStep_fault {r : Reader} {s : State} {f : Fault} (h : extractStep r s = .fault f) :
    ∃ k, f = .unwrittenPix (pixIndex s.gridW s.gridH k) ∧ k < s.extractGroups ∧
      r.pix s.pix (pixIndex s.gridW s.gridH k) = none := by
  unfold extractStep at h
  split at h
  · cases h
  · split at h
    · cases h
    · split at h
      · rename_i i hi
        cases h
        obtain ⟨k, rfl, -, h3, h4⟩ := extractLoop_error hi
        exact ⟨k, rfl, by omega, h4⟩
      · cases h

/-- CAPCHK never faults. -/
theorem capchkStep_fault {s : State} {f : Fault} : capchkStep s ≠ .fault f := by
  unfold capchkStep; split <;> simp

/-- The checks of a composite never fault. -/
theorem compositeChecks_fault {s : State} {f : Fault} : compositeChecks s ≠ .fault f := by
  unfold compositeChecks; repeat' split
  all_goals simp

/-- A sequence faults where its first part does, or its second part after the first is done. -/
theorem StepResult.andThen_fault {x : StepResult} {g : State → StepResult} {f : Fault} :
    x.andThen g = .fault f ↔ x = .fault f ∨ ∃ s, x = .done s ∧ g s = .fault f := by
  cases x <;> simp [StepResult.andThen]

/-- A command's end faults where its body does, and is never a refusal. -/
theorem StepResult.finish_fault {x : StepResult} {f : Fault} : x.finish = .fault f ↔ x = .fault f := by
  cases x <;> simp [StepResult.finish]

theorem StepResult.finish_not_refused {x : StepResult} {r : Refusal} : x.finish ≠ .refused r := by
  cases x <;> simp [StepResult.finish]

/-! ### Which location a run of reads stops at -/

/-- A run of reads stops at its first index that is not there. -/
theorem readRun_unwritten {α : Type} {at? : Nat → Option α} {i n k : Nat} (hk : at? k = none) (h1 : i ≤ k) (h2 : k < i + n)
    (hall : ∀ j, i ≤ j → j < k → (at? j).isSome = true) : readRun at? i n = .error k := by
  induction n generalizing i with
  | zero => omega
  | succ n ih =>
    unfold readRun
    rcases Nat.eq_or_lt_of_le h1 with rfl | hlt
    · rw [hk]
    · obtain ⟨v, hv⟩ := Option.isSome_iff_exists.mp (hall i (Nat.le_refl i) hlt)
      simp only [hv, ih (i := i + 1) (by omega) (by omega) (fun j a b => hall j (by omega) b)]

/-- Chunks stop at their first bit that is not there. -/
theorem readChunks_unwritten {at? : Nat → Option Bool} {k n i : Nat} (hi : at? i = none) (h1 : 8 * k ≤ i)
    (h2 : i < 8 * (k + n)) (hall : ∀ j, 8 * k ≤ j → j < i → (at? j).isSome = true) : readChunks at? k n = .error i := by
  induction n generalizing k with
  | zero => omega
  | succ n ih =>
    unfold readChunks
    by_cases hin : i < 8 * k + 8
    · rw [readRun_unwritten hi h1 hin hall]
    · obtain ⟨bs, hl, hv⟩ := exists_list_of_isSome (f := fun j => at? (8 * k + j)) (n := 8)
        (fun j hj => hall (8 * k + j) (by omega) (by omega))
      simp only [readRun_ok.mpr ⟨hl, hv⟩,
        ih (k := k + 1) (by omega) (by omega) (fun j a b => hall j (by omega) b)]

/-- The first `d` visits of EMBED, when all they read is there, lead to the visits after them on a memory that agrees at
every word those first visits do not reach. -/
theorem embedLoop_advance {bitAt? : Nat → Option Bool} {pixAt? : Mem Pixel → Nat → Option Pixel} {w h n g d : Nat}
    {m : Mem Pixel} (hpix : ∀ m i v j, i ≠ j → pixAt? (Mem.write m i v) j = pixAt? m j) (hd : d ≤ g)
    (hg : n + d ≤ w * h) (hb : ∀ i, 3 * n ≤ i → i < 3 * (n + d) → (bitAt? i).isSome = true)
    (hp : ∀ k, n ≤ k → k < n + d → (pixAt? m (pixIndex w h k)).isSome = true) :
    ∃ m', embedLoop bitAt? pixAt? w h n g m = embedLoop bitAt? pixAt? w h (n + d) (g - d) m' ∧
      ∀ a, (∀ k, n ≤ k → k < n + d → pixIndex w h k ≠ a) → pixAt? m' a = pixAt? m a := by
  induction d generalizing n g m with
  | zero => exact ⟨m, rfl, fun _ _ => rfl⟩
  | succ d ih =>
    obtain ⟨b0, h0⟩ := Option.isSome_iff_exists.mp (hb (3 * n) (by omega) (by omega))
    obtain ⟨b1, h1⟩ := Option.isSome_iff_exists.mp (hb (3 * n + 1) (by omega) (by omega))
    obtain ⟨b2, h2⟩ := Option.isSome_iff_exists.mp (hb (3 * n + 2) (by omega) (by omega))
    obtain ⟨p, h3⟩ := Option.isSome_iff_exists.mp (hp n (by omega) (by omega))
    obtain ⟨g, rfl⟩ : ∃ g', g = g' + 1 := ⟨g - 1, by omega⟩
    obtain ⟨m', he, ha⟩ := ih (n := n + 1) (g := g) (m := m.write (pixIndex w h n) (pack p b0 b1 b2)) (by omega)
      (by omega) (fun i a b => hb i (by omega) (by omega)) (fun k a b => by
        rw [hpix _ _ _ _ (fun e => by have := pixIndex_inj (by omega) (by omega) e; omega)]
        exact hp k (by omega) (by omega))
    refine ⟨m', ?_, fun a hk => ?_⟩
    · rw [embedLoop_succ _ _ _ _ _ _ _ h0 h1 h2 h3, he, show n + 1 + d = n + (d + 1) by omega,
        show g + 1 - (d + 1) = g - d by omega]
    · rw [ha a (fun k h1 h2 => hk k (by omega) (by omega)), hpix _ _ _ _ (hk n (Nat.le_refl n) (by omega))]

/-- The visits of EMBED stop at the first bit of a group that is not there, when the words visited before it are. -/
theorem embedLoop_unwrittenBit {bitAt? : Nat → Option Bool} {pixAt? : Mem Pixel → Nat → Option Pixel} {w h g i : Nat}
    {m : Mem Pixel} (hpix : ∀ m i v j, i ≠ j → pixAt? (Mem.write m i v) j = pixAt? m j) (hg : g ≤ w * h)
    (hi : bitAt? i = none) (h2 : i < 3 * g) (hb : ∀ k, k < i → (bitAt? k).isSome = true)
    (hp : ∀ k, k < i / 3 → (pixAt? m (pixIndex w h k)).isSome = true) :
    embedLoop bitAt? pixAt? w h 0 g m = .error (.unwrittenBit i) := by
  obtain ⟨m', he, -⟩ := embedLoop_advance (bitAt? := bitAt?) (n := 0) (g := g) (d := i / 3) (m := m) hpix (by omega) (by omega)
    (fun k _ hk => hb k (by omega)) (fun k _ hk => hp k (by omega))
  rw [he, Nat.zero_add]
  obtain ⟨q, hq⟩ : ∃ q, g - i / 3 = q + 1 := ⟨g - i / 3 - 1, by omega⟩
  rw [hq]
  unfold embedLoop
  have e : i = 3 * (i / 3) ∨ i = 3 * (i / 3) + 1 ∨ i = 3 * (i / 3) + 2 := by omega
  rcases e with e | e | e
  · rw [show bitAt? (3 * (i / 3)) = none by rw [← e]; exact hi, ← e]
  · obtain ⟨b0, h0⟩ := Option.isSome_iff_exists.mp (hb (3 * (i / 3)) (by omega))
    rw [h0, show bitAt? (3 * (i / 3) + 1) = none by rw [← e]; exact hi, ← e]
  · obtain ⟨b0, h0⟩ := Option.isSome_iff_exists.mp (hb (3 * (i / 3)) (by omega))
    obtain ⟨b1, h1⟩ := Option.isSome_iff_exists.mp (hb (3 * (i / 3) + 1) (by omega))
    rw [h0, h1, show bitAt? (3 * (i / 3) + 2) = none by rw [← e]; exact hi, ← e]

/-- The visits of EMBED stop at the first visited word that is not there, when the bits up to its group are. -/
theorem embedLoop_unwrittenPix {bitAt? : Nat → Option Bool} {pixAt? : Mem Pixel → Nat → Option Pixel} {w h g n : Nat}
    {m : Mem Pixel} (hpix : ∀ m i v j, i ≠ j → pixAt? (Mem.write m i v) j = pixAt? m j) (hg : g ≤ w * h) (hn : n < g)
    (hnone : pixAt? m (pixIndex w h n) = none) (hb : ∀ k, k < 3 * n + 3 → (bitAt? k).isSome = true)
    (hp : ∀ k, k < n → (pixAt? m (pixIndex w h k)).isSome = true) :
    embedLoop bitAt? pixAt? w h 0 g m = .error (.unwrittenPix (pixIndex w h n)) := by
  obtain ⟨m', he, ha⟩ := embedLoop_advance (bitAt? := bitAt?) (n := 0) (g := g) (d := n) (m := m) hpix (by omega) (by omega)
    (fun k _ hk => hb k (by omega)) (fun k _ hk => hp k (by omega))
  have hm' : pixAt? m' (pixIndex w h n) = none := by
    rw [ha _ (fun k _ hk e => by have := pixIndex_inj (by omega) (by omega) e; omega)]; exact hnone
  rw [he, Nat.zero_add]
  obtain ⟨q, hq⟩ : ∃ q, g - n = q + 1 := ⟨g - n - 1, by omega⟩
  rw [hq]
  obtain ⟨b0, h0⟩ := Option.isSome_iff_exists.mp (hb (3 * n) (by omega))
  obtain ⟨b1, h1⟩ := Option.isSome_iff_exists.mp (hb (3 * n + 1) (by omega))
  obtain ⟨b2, h2⟩ := Option.isSome_iff_exists.mp (hb (3 * n + 2) (by omega))
  simp only [embedLoop, h0, h1, h2, hm']

/-- The visits of EXTRACT stop at the first visited word that is not there. -/
theorem extractLoop_unwritten {pixAt? : Nat → Option Pixel} {w h n g k : Nat} (hk : pixAt? (pixIndex w h k) = none)
    (h1 : n ≤ k) (h2 : k < n + g) (hall : ∀ j, n ≤ j → j < k → (pixAt? (pixIndex w h j)).isSome = true) :
    extractLoop pixAt? w h n g = .error (pixIndex w h k) := by
  induction g generalizing n with
  | zero => omega
  | succ g ih =>
    unfold extractLoop
    rcases Nat.eq_or_lt_of_le h1 with rfl | hlt
    · rw [hk]
    · obtain ⟨p, hp⟩ := Option.isSome_iff_exists.mp (hall n (Nat.le_refl n) hlt)
      simp only [hp, ih (n := n + 1) (by omega) (by omega) (fun j a b => hall j (by omega) b)]

end Sys2Proof.Machine
end

