-- ==== Sys2Proof/Laws/PerInstr.lean ====
section
/-! SUPPORT. What holds of every command as syntax, one lemma per constructor (30_encoding R54, R55). -/

namespace Sys2Proof.Laws.OwnWord

open Sys2Proof

/-- A command is well-formed, its word passes both checks, and the decoder reads it back from its word given as a table
row of 32 bits (R55, R57). -/
def Statement (i : Instr) : Prop :=
  i.wf = true ∧ commandWordWf (Sys2Proof.encode i) = true ∧ decodeTableWord 32 (Sys2Proof.encode i).toNat = some i

theorem nop : Statement .nop := by unfold Statement; decide
theorem encode : Statement .encode := by unfold Statement; decide
theorem decode : Statement .decode := by unfold Statement; decide
theorem capchk : Statement .capchk := by unfold Statement; decide
theorem embed : Statement .embed := by unfold Statement; decide
theorem extract : Statement .extract := by unfold Statement; decide
theorem encrypt : Statement .encrypt := by unfold Statement; decide
theorem decrypt : Statement .decrypt := by unfold Statement; decide

end Sys2Proof.Laws.OwnWord
end

