-- ==== Sys2Proof/Laws/Writes.lean ====
section
/-! SUPPORT. Which locations a command can have written when it ends, or would have written when it is aborted: those of
its row of 20_memory R53 and no others, whatever the reader. -/

namespace Sys2Proof.Machine

open Sys2Proof

/-- The answer is not a fault, and this is the state it holds. -/
def StepResult.At (x : StepResult) (t : State) : Prop := x = .done t ∨ ∃ e info, x = .raised e info t

theorem StepResult.written_at (x : StepResult) (s : State) : x.At (x.written s) ∨ x.written s = s := by
  cases x with
  | done t => exact .inl (.inl rfl)
  | raised e info t => exact .inl (.inr ⟨e, info, rfl⟩)
  | fault f => exact .inr rfl

/-- A sequence holds the state of its first part where that raised, and of its second part after the first is done. -/
theorem StepResult.andThen_at {x : StepResult} {f : State → StepResult} {t : State} (h : (x.andThen f).At t) :
    (∃ e info, x = .raised e info t) ∨ ∃ s, x = .done s ∧ (f s).At t := by
  cases x with
  | done s => exact .inr ⟨s, rfl, h⟩
  | raised e info s =>
    rcases h with h | ⟨e', info', h⟩
    · cases h
    · cases h; exact .inl ⟨e, info, rfl⟩
  | fault f => rcases h with h | ⟨_, _, h⟩ <;> cases h

/-- ENCODE writes BITMEM below 8 times MSG_LEN, and neither MSGMEM nor PIXMEM. -/
theorem encodeStep_writes {r : Reader} {s t : State} (h : (encodeStep r s).At t) :
    t.msg = s.msg ∧ t.pix = s.pix ∧ ∀ k, 8 * s.msgLen.toNat ≤ k → t.bit.read? k = s.bit.read? k := by
  rcases h with h | ⟨e, info, h⟩
  · obtain ⟨-, bs, hl, -, -, rfl⟩ := encodeStep_done h
    refine ⟨rfl, rfl, fun k hk => ?_⟩
    rw [Mem.read?_writeRun, textBits_length, if_neg (by omega)]
  · obtain ⟨rfl, -⟩ := encodeStep_raised h; simp

/-- DECODE writes MSGMEM below BIT_COUNT / 8, and neither BITMEM nor PIXMEM. -/
theorem decodeStep_writes {r : Reader} {s t : State} (h : (decodeStep r s).At t) :
    t.bit = s.bit ∧ t.pix = s.pix ∧ ∀ k, s.bitCount.toNat / 8 ≤ k → t.msg.read? k = s.msg.read? k := by
  rcases h with h | ⟨e, info, h⟩
  · obtain ⟨-, -, bytes, hl, -, rfl⟩ := decodeStep_done h
    refine ⟨rfl, rfl, fun k hk => ?_⟩
    rw [Mem.read?_writeRun, if_neg (by omega)]
  · obtain ⟨rfl, -⟩ := decodeStep_raised h; simp

/-- EMBED writes the words of its visits, and neither MSGMEM nor BITMEM. -/
theorem embedStep_writes {r : Reader} {s t : State} (h : (embedStep r s).At t) :
    t.msg = s.msg ∧ t.bit = s.bit ∧
      ∀ a, (∀ n, n < s.embedGroups → pixIndex s.gridW s.gridH n ≠ a) → t.pix.read? a = s.pix.read? a := by
  rcases h with h | ⟨e, info, h⟩
  · obtain ⟨-, -, m, hm, rfl⟩ := embedStep_done h
    exact ⟨rfl, rfl, fun a ha => embedLoop_read?_other hm (fun k _ hk => ha k (by omega))⟩
  · obtain ⟨rfl, -⟩ := embedStep_raised h; simp

/-- EXTRACT writes BITMEM below three times its group count, and neither MSGMEM nor PIXMEM. -/
theorem extractStep_writes {r : Reader} {s t : State} (h : (extractStep r s).At t) :
    t.msg = s.msg ∧ t.pix = s.pix ∧ ∀ k, 3 * s.extractGroups ≤ k → t.bit.read? k = s.bit.read? k := by
  rcases h with h | ⟨e, info, h⟩
  · obtain ⟨-, -, bs, hbs, rfl⟩ := extractStep_done h
    obtain ⟨hl, -⟩ := extractLoop_ok hbs
    refine ⟨rfl, rfl, fun k hk => ?_⟩
    rw [Mem.read?_writeRun, if_neg (by omega)]
  · obtain ⟨rfl, -⟩ := extractStep_raised h; simp

/-- The group count of the composites: 8 times MSG_LEN bits on the grid (R79, R80). -/
def State.messageGroups (s : State) : Nat := groups (8 * s.msgLen.toNat) s.gridW s.gridH

/-- In a legal configuration 8 times a legal MSG_LEN fits a register (R9). -/
theorem eight_msgLen_toNat {s : State} (hwf : s.cfg.wf = true) (hL : s.msgLen.toNat ≤ s.cfg.maxMsgBytes) :
    (BitVec.ofNat 32 (8 * s.msgLen.toNat)).toNat = 8 * s.msgLen.toNat := by
  simp [Config.wf] at hwf; simp; omega

/-- ENCRYPT past its checks and CAPCHK is ENCODE, then EMBED. -/
theorem encryptStep_eq {r : Reader} {s : State} (hL : s.msgLen.toNat ≤ s.cfg.maxMsgBytes)
    (hG : s.gridW * s.gridH ≤ s.cfg.pixWords) (hC : 8 * s.msgLen.toNat < 3 * s.fileSize.toNat) :
    encryptStep r s = (encodeStep r s).andThen (embedStep r) := by
  simp [encryptStep, compositeChecks_done.mpr ⟨rfl, hL, hG⟩, capchkStep, Nat.not_le.mpr hC, StepResult.andThen]

/-- DECRYPT past its checks is EXTRACT with the message's budget, then DECODE. -/
theorem decryptStep_eq {r : Reader} {s : State} (hL : s.msgLen.toNat ≤ s.cfg.maxMsgBytes)
    (hG : s.gridW * s.gridH ≤ s.cfg.pixWords) :
    decryptStep r s = (extractStep r s.setBudget).andThen (decodeStep r) := by
  simp [decryptStep, compositeChecks_done.mpr ⟨rfl, hL, hG⟩, StepResult.andThen]

/-- ENCRYPT stops at its checks or at CAPCHK with the state unchanged, or goes past them. -/
theorem encryptStep_cases (r : Reader) (s : State) :
    (∃ e info, encryptStep r s = .raised e info s) ∨
    (s.msgLen.toNat ≤ s.cfg.maxMsgBytes ∧ s.gridW * s.gridH ≤ s.cfg.pixWords ∧
      8 * s.msgLen.toNat < 3 * s.fileSize.toNat) := by
  by_cases hL : s.msgLen.toNat ≤ s.cfg.maxMsgBytes
  · by_cases hG : s.gridW * s.gridH ≤ s.cfg.pixWords
    · by_cases hC : 8 * s.msgLen.toNat < 3 * s.fileSize.toNat
      · exact .inr ⟨hL, hG, hC⟩
      · exact .inl ⟨.capacityError, 0, by
          simp [encryptStep, compositeChecks_done.mpr ⟨rfl, hL, hG⟩, capchkStep, Nat.not_lt.mp hC, StepResult.andThen]⟩
    · exact .inl ⟨.configError, infoGeometry, by
        simp [encryptStep, compositeChecks, Nat.not_lt.mpr hL, Nat.not_le.mp hG, StepResult.andThen]⟩
  · exact .inl ⟨.configError, infoMsgLen, by
      simp [encryptStep, compositeChecks, Nat.not_le.mp hL, StepResult.andThen]⟩

/-- DECRYPT stops at its checks with the state unchanged, or goes past them. -/
theorem decryptStep_cases (r : Reader) (s : State) :
    (∃ e info, decryptStep r s = .raised e info s) ∨
    (s.msgLen.toNat ≤ s.cfg.maxMsgBytes ∧ s.gridW * s.gridH ≤ s.cfg.pixWords) := by
  by_cases hL : s.msgLen.toNat ≤ s.cfg.maxMsgBytes
  · by_cases hG : s.gridW * s.gridH ≤ s.cfg.pixWords
    · exact .inr ⟨hL, hG⟩
    · exact .inl ⟨.configError, infoGeometry, by
        simp [decryptStep, compositeChecks, Nat.not_lt.mpr hL, Nat.not_le.mp hG, StepResult.andThen]⟩
  · exact .inl ⟨.configError, infoMsgLen, by
      simp [decryptStep, compositeChecks, Nat.not_le.mp hL, StepResult.andThen]⟩

/-- ENCRYPT writes what ENCODE and EMBED write, with 8 times MSG_LEN bits. -/
theorem encryptStep_writes {r : Reader} {s t : State} (hwf : s.cfg.wf = true) (h : (encryptStep r s).At t) :
    t.msg = s.msg ∧ (∀ k, 8 * s.msgLen.toNat ≤ k → t.bit.read? k = s.bit.read? k) ∧
      ∀ a, (∀ n, n < s.messageGroups → pixIndex s.gridW s.gridH n ≠ a) → t.pix.read? a = s.pix.read? a := by
  rcases encryptStep_cases r s with ⟨e, info, hx⟩ | ⟨hL, hG, hC⟩
  · rw [hx] at h
    rcases h with h | ⟨_, _, h⟩ <;> cases h
    simp
  · rw [encryptStep_eq hL hG hC] at h
    rcases StepResult.andThen_at h with ⟨e, info, hx⟩ | ⟨u, hu, ht⟩
    · obtain ⟨h1, h2, h3⟩ := encodeStep_writes (.inr ⟨e, info, hx⟩)
      exact ⟨h1, h3, fun a _ => by rw [h2]⟩
    · obtain ⟨-, bs, hl, -, -, rfl⟩ := encodeStep_done hu
      obtain ⟨h1, h2, h3⟩ := encodeStep_writes (.inl hu)
      obtain ⟨k1, k2, k3⟩ := embedStep_writes ht
      refine ⟨k1, fun k hk => by rw [k2, h3 k hk], fun a ha => k3 a (fun n hn => ha n ?_)⟩
      have e : State.embedGroups
          { s with
            bit := s.bit.writeRun 0 (textBits bs)
            bitCount := BitVec.ofNat 32 (8 * s.msgLen.toNat) } = s.messageGroups := by
        show groups (BitVec.ofNat 32 (8 * s.msgLen.toNat)).toNat s.gridW s.gridH = _
        rw [eight_msgLen_toNat hwf hL]; rfl
      rwa [e] at hn

/-- DECRYPT writes what EXTRACT and DECODE write, with a budget of 8 times MSG_LEN bits. -/
theorem decryptStep_writes {r : Reader} {s t : State} (hwf : s.cfg.wf = true) (h : (decryptStep r s).At t) :
    t.pix = s.pix ∧ (∀ k, 3 * s.messageGroups ≤ k → t.bit.read? k = s.bit.read? k) ∧
      ∀ k, 3 * s.messageGroups / 8 ≤ k → t.msg.read? k = s.msg.read? k := by
  rcases decryptStep_cases r s with ⟨e, info, hx⟩ | ⟨hL, hG⟩
  · rw [hx] at h
    rcases h with h | ⟨_, _, h⟩ <;> cases h
    simp
  · rw [decryptStep_eq hL hG] at h
    have hg : s.setBudget.extractGroups = s.messageGroups := by
      show groups (BitVec.ofNat 32 (8 * s.msgLen.toNat)).toNat s.gridW s.gridH = _
      rw [eight_msgLen_toNat hwf hL]; rfl
    rcases StepResult.andThen_at h with ⟨e, info, hx⟩ | ⟨u, hu, ht⟩
    · obtain ⟨h1, h2, h3⟩ := extractStep_writes (.inr ⟨e, info, hx⟩)
      rw [hg] at h3
      exact ⟨h2, h3, fun k _ => by rw [h1]; rfl⟩
    · obtain ⟨h1, h2, h3⟩ := extractStep_writes (.inl hu)
      obtain ⟨-, -, bs, -, rfl⟩ := extractStep_done hu
      obtain ⟨k1, k2, k3⟩ := decodeStep_writes ht
      rw [hg] at h3 k3
      refine ⟨k2, fun k hk => by rw [k1]; exact h3 k hk, fun k hk => k3 k (Nat.le_trans ?_ hk)⟩
      exact Nat.div_le_div_right (by simp; exact Nat.mod_le _ _)

/-- The state an aborted command would have left is the answer of its body, or the start where that faults. -/
theorem State.wouldWrite_at {w : Word} {i : Instr} (hd : decode w = .ok i) (s : State) :
    (commandBody (Reader.settled s.powerOns) i s).At (s.wouldWrite w) ∨ s.wouldWrite w = s := by
  unfold State.wouldWrite; rw [hd]; exact StepResult.written_at _ _

end Sys2Proof.Machine
end

