-- ==== Sys2Proof/Tests/Slice0.lean ====
section
/-! SUPPORT. Tests: ill-formed terms that each check refuses, words written out from the encoding, one-step results with
the values of 95_test_vectors, and a witness of the hypotheses of every statement that has some. -/

namespace Sys2Proof.Tests

open Sys2Proof Sys2Proof.Machine

/-! ### Helper states -/

/-- A legal small configuration: 6 message bytes, 48 bits, 8 pixel words, BASE not 0. -/
def tiny : Config := { base := 0x2000000, maxMsgBytes := 6, pixWords := 8 }

/-- A memory that holds the units of a list from index 0 on. -/
def memOf {α : Type} (vs : List α) : Mem α := Mem.writeRun [] 0 vs

/-- An idle block of the small configuration. -/
def idle0 : State := { State.reset with cfg := tiny }

/-- The same block, running a command. -/
def running (w : Word) : State := { idle0 with engine := .busy w }

/-- A text and a pixel grid written, no command run yet. -/
def loaded (text : List Byte) (w h : BitVec 16) (size : Word) (pixels : List Pixel) : State :=
  { idle0 with
    msg := memOf text, msgLen := BitVec.ofNat 32 text.length, width := w, height := h, fileSize := size
    pix := memOf pixels }

/-- The text "abc". -/
def abc : List Byte := [0x61, 0x62, 0x63]

/-- The grid of program P1. -/
def gridP1 : List Pixel :=
  [0xFF204060, 0xFF214161, 0xFF224262, 0xFF234363, 0xFF244464, 0xFF254565, 0xFF264666, 0xFF274767]

/-- Eight black pixels. -/
def black : List Pixel := List.replicate 8 0

/-- The state after a command, and the state before it where the model stops. -/
def after (i : Instr) (s : State) : State := (nextState? (exec i s)).getD s

/-- STATUS, ERR_CODE and ERR_INFO as the host reads them. -/
def outcome (s : State) : Word × Word × Word := (s.busRead 0x00C, s.busRead 0x010, s.busRead 0x014)

theorem written {α : Type} {m : Mem α} {n : Nat} (h : m.writtenTo n = true) : ∀ i, i < n → ∃ b, m.read? i = some b :=
  fun i hi => Option.isSome_iff_exists.mp (Mem.writtenTo_iff.mp h i hi)

/-- A text of bytes below 128, all written. -/
theorem ascii (s : State) (h : s.asciiText = true) :
    ∀ i, i < s.msgLen.toNat → ∃ b, s.msg.read? i = some b ∧ b.toNat < 128 := State.asciiText_iff.mp h

/-- A command that goes on answers the state `after` names. -/
theorem goes (i : Instr) (s : State) (h : (nextState? (exec i s)).isSome = true) : exec i s = .next (after i s) := by
  unfold after
  cases hx : exec i s with
  | next t => rfl
  | fault f => rw [hx] at h; cases h
  | refused r => rw [hx] at h; cases h

theorem visited {s : State} {g : Nat} (h : s.visitedWritten g = true) :
    ∀ n, n < g → ∃ p, s.pix.read? (pixIndex s.width.toNat s.height.toNat n) = some p :=
  fun n hn => Option.isSome_iff_exists.mp (State.visitedWritten_iff.mp h n hn)

/-! ### Well-formedness: an ill-formed term for each check -/

theorem test_mbz_check : mbzClear 0x10 = false ∧ opDefined 0x10 = true ∧ commandWordWf 0x10 = false := by decide
theorem test_op_check : mbzClear 0x8 = true ∧ opDefined 0x8 = false ∧ commandWordWf 0x8 = false := by decide
theorem test_width_check : Input.wf tiny (.read .byte 0x2000000) = false := by decide
theorem test_alignment_check : Input.wf tiny (.write .word 0x2000002 0) = false := by decide
theorem test_range_check :
    Input.wf tiny (.read .word 0x4000000) = false ∧ Input.wf tiny (.read .word 0x1FFFFFC) = false := by decide
theorem test_good_access : Input.wf tiny (.write .word 0x3FFFFFC 0) = true := by decide
theorem test_config_check :
    tiny.wf = true ∧ Config.wf { tiny with maxMsgBytes := 0 } = false ∧ Config.wf { tiny with pixWords := 4194305 } = false ∧
    Config.wf { tiny with base := 4 } = false := by decide

/-! ### Decoding: words written out bit by bit from R54 and R55 -/

theorem test_word_nop : decode 0b00000000000000000000000000000000#32 = .ok .nop := by decide
theorem test_word_encode : decode 0b00000000000000000000000000000001#32 = .ok .encode := by decide
theorem test_word_decode : decode 0b00000000000000000000000000000010#32 = .ok .decode := by decide
theorem test_word_capchk : decode 0b00000000000000000000000000000011#32 = .ok .capchk := by decide
theorem test_word_embed : decode 0b00000000000000000000000000000100#32 = .ok .embed := by decide
theorem test_word_extract : decode 0b00000000000000000000000000000101#32 = .ok .extract := by decide
theorem test_word_encrypt : decode 0b00000000000000000000000000000110#32 = .ok .encrypt := by decide
theorem test_word_decrypt : decode 0b00000000000000000000000000000111#32 = .ok .decrypt := by decide

/-- V67 to V69: three illegal words. -/
theorem test_illegal_words :
    decode 0x00000008#32 = .error (.opReserved 8) ∧ decode 0x00000010#32 = .error .mbzNonzero ∧
    decode 0xFFFFFFFF#32 = .error .mbzNonzero := by decide

/-- The encoder writes R55's column "word". -/
theorem test_encode_words :
    [Instr.nop, .encode, .decode, .capchk, .embed, .extract, .encrypt, .decrypt].map encode = [0, 1, 2, 3, 4, 5, 6, 7] := by
  decide

/-! ### Lanes and traversal -/

/-- V1 to V7. -/
theorem test_lanes :
    setlsb 0x01 false = 0x00 ∧ pack 0xFF102030 true false true = 0xFF112031 ∧
    pack 0x12345678 false true false = 0x12345778 ∧ unpack 0xFF112031 = (true, false, true) := by decide

/-- V10 and V11. -/
theorem test_traversal :
    (List.range 6).map (pixIndex 3 2) = [0, 3, 1, 4, 2, 5] ∧ (List.range 6).map (pixIndex 2 3) = [0, 2, 4, 1, 3, 5] := by
  decide

/-! ### One command, expected values from 95_test_vectors -/

/-- V70: the start clears an error record and NOP ends with STATUS 0x2. -/
theorem test_nop :
    outcome (after .nop ({ idle0 with err := true, errCode := 7, errInfo := 8 }.startCommand 0)) = (0x2, 0, 0) := by decide

/-- V18: "abc". -/
theorem test_encode_abc :
    let t := after .encode (loaded abc 0 0 0 [])
    t.bitCount = 24 ∧ (List.range 3).map t.bitByte = abc ∧ t.done = true := by decide

/-- V20: the byte at 1 is refused and nothing is written. -/
theorem test_encode_refuses :
    let t := after .encode (loaded [0x41, 0x80] 0 0 0 [])
    outcome t = (0x4, 1, 1) ∧ t.bitCount = 0 ∧ t.bit = [] := by decide

/-- V28: byte 3 of "xyzw" is kept. -/
theorem test_decode_keeps_the_rest :
    let t := after .decode { loaded [0x78, 0x79, 0x7A, 0x77] 0 0 0 [] with bit := memOf (textBits abc), bitCount := 24 }
    t.outLen = 3 ∧ t.busRead 0x10000 = 0x77636261 := by decide

/-- V27: 15 bits are no text. -/
theorem test_decode_format_error : outcome (after .decode { idle0 with bitCount := 15 }) = (0x4, 5, 15) := by decide

/-- V38 and V39: the products are compared exactly, beyond 32 bits. -/
theorem test_capchk_exact :
    outcome (after .capchk { idle0 with msgLen := 0x5FFFFFFF, fileSize := 0xFFFFFFFF }) = (0x2, 0, 0) ∧
    outcome (after .capchk { idle0 with msgLen := 0x60000000, fileSize := 0xFFFFFFFF }) = (0x4, 4, 0) := by decide

/-- V34 and V35: the boundary rejects. -/
theorem test_capchk_boundary :
    outcome (after .capchk { idle0 with msgLen := 3, fileSize := 8 }) = (0x4, 4, 0) ∧
    outcome (after .capchk { idle0 with msgLen := 3, fileSize := 9 }) = (0x2, 0, 0) := by decide

/-- V42: one group. -/
theorem test_embed_one_group :
    let t := after .embed { loaded [] 4 2 0 [0xFF102030, 5] with bit := memOf [true, false, true], bitCount := 3 }
    t.embedCount = 3 ∧ t.pix = [(0, 0xFF112031), (1, 5)] := by decide

/-- V43: 16 bits of ones on black: five groups, on words 0, 4, 1, 5 and 2. -/
theorem test_embed_column_major :
    let t := after .embed { loaded [] 4 2 0 black with bit := memOf (List.replicate 16 true), bitCount := 16 }
    t.embedCount = 15 ∧ (List.range 8).map t.pixWord = [0x10101, 0x10101, 0x10101, 0, 0x10101, 0x10101, 0, 0] := by decide

/-- V53a: the grid that P1's ENCRYPT leaves holds "abc". -/
theorem test_extract_abc :
    let t := after .extract { loaded [] 4 2 0 [0xFF214160, 0xFF204160, 0xFF234262, 0xFF224263, 0xFF244464, 0xFF244565,
                                               0xFF274666, 0xFF274766] with totalBits := 24 }
    t.bitCount = 24 ∧ (List.range 3).map t.bitByte = abc := by decide

/-- V53e, for MAX_BITS = 48. -/
theorem test_extract_config_error :
    outcome (after .extract { loaded [] 4 2 0 black with totalBits := 49 }) = (0x4, 6, 0x028) := by decide

/-- P1: the eight words after ENCRYPT. -/
theorem test_encrypt_p1 :
    let t := after .encrypt (loaded abc 4 2 100 gridP1)
    t.embedCount = 24 ∧ (List.range 8).map t.pixWord =
      [0xFF214160, 0xFF204160, 0xFF234262, 0xFF224263, 0xFF244464, 0xFF244565, 0xFF274666, 0xFF274766] := by decide

/-- V63 and V64: the capacity check comes before the ASCII check. -/
theorem test_encrypt_check_order :
    outcome (after .encrypt (loaded [0xFF] 1 1 2 black)) = (0x4, 4, 0) ∧
    outcome (after .encrypt (loaded [0xFF] 1 1 3 black)) = (0x4, 1, 0) := by decide

/-- V60: "abcdef" on 2 by 4 comes back as "abc" only. -/
theorem test_decrypt_truncates :
    let t := after .decrypt (after .encrypt (loaded [0x61, 0x62, 0x63, 0x64, 0x65, 0x66] 2 4 100 black))
    t.outLen = 3 ∧ t.err = false ∧ (List.range 3).map t.msgByte = abc := by decide

/-- V57: "Hi" leaves 15 bits, and EXTRACT's writes stand. -/
theorem test_decrypt_format_error :
    let t := after .decrypt { after .encrypt (loaded [0x48, 0x69] 3 2 100 black) with done := false }
    outcome t = (0x4, 5, 15) ∧ t.totalBits = 16 ∧ t.bitCount = 15 := by decide

/-! ### One step of the block, expected values from 95_test_vectors -/

/-- V71, V74, V86. -/
theorem test_reads :
    [0x000, 0x038, 0x03C].map State.reset.busRead = [0x4C534231, 0x00000100, 0x00001000] ∧
    (State.reset.busWrite 0x018 0x12345678).busRead 0x018 = 0x00005678 ∧
    (State.reset.busWrite 0x20000 0x01000080).bit.read? 0 = some true ∧
    (State.reset.busWrite 0x20000 0x01000080).bit.read? 31 = some true := by decide

/-- V80 and V83. -/
theorem test_drop_and_soft_reset :
    (running 0).busWrite 0x008 0 = { running 0 with cmdDropped := true } ∧
    ({ idle0 with width := 4, msg := [(0, 7)] }.busWrite 0x004 0x3) = { idle0 with msg := [(0, 7)] } := by decide

/-- V67 and V69 as one step from reset. -/
theorem test_illegal_steps :
    (nextState? (step (State.reset.withFetchWord 32 0x8))).map outcome = some (0x4, 7, 0x8) ∧
    (nextState? (step (State.reset.withFetchWord 32 0xFFFFFFFF))).map outcome = some (0x4, 7, 0xFFFFFFFF) := by decide

/-! ### Witnesses: hypotheses that are met, clause by clause, at the ends of their ranges -/

theorem witness_DecoderFollowsTheOpcodeMap :
    (0x10#32).extractLsb' 4 28 ≠ 0 ∧ (0xFFFFFFFF#32).extractLsb' 4 28 ≠ 0 ∧
    (∀ n : Fin 16, (BitVec.ofNat 32 n.val).extractLsb' 4 28 = 0 ∧ ((BitVec.ofNat 32 n.val).extractLsb' 0 4).toNat = n.val) := by
  decide

/-- A legal and an illegal latched word, in the default turn and in a listed one; table words that are read and refused,
the first illegal word and the last. -/
theorem witness_StepRunsTheLatchedCommand :
    ((running 1).rst = false ∧ (running 1).engine = .busy 1 ∧ decode 1 = .ok .encode ∧ (running 1).turns = []) ∧
    ((running 8).rst = false ∧ (running 8).engine = .busy 8 ∧ decode 8 = .error (.opReserved 8)) ∧
    ({ running 1 with turns := [.engine] }.turns.head? = some .engine) ∧ decodeTableWord 32 7 = some .decrypt ∧
    decodeTableWord 8 4 = some .embed ∧ (32 ≤ 32 ∧ decodeTableWord 32 8 = none) ∧
    decodeTableWord 32 0xFFFFFFFF = none ∧ decodeTableWord 4 9 = none := by decide

theorem witness_CommandStartEvent :
    idle0.rst = false ∧ idle0.engine = .idle ∧ decode 0 = .ok .nop ∧ decode 7 = .ok .decrypt ∧
    decode 8 = .error (.opReserved 8) := by decide

theorem witness_IllegalWordEndsWithIllegalCommand :
    ((0x10#32).extractLsb' 4 28 ≠ 0 ∨ 8 ≤ ((0x10#32).extractLsb' 0 4).toNat) ∧
    ((0x8#32).extractLsb' 4 28 ≠ 0 ∨ 8 ≤ ((0x8#32).extractLsb' 0 4).toNat) ∧
    ((0xF#32).extractLsb' 4 28 ≠ 0 ∨ 8 ≤ ((0xF#32).extractLsb' 0 4).toNat) ∧
    idle0.rst = false ∧ idle0.engine = .idle := by decide

theorem witness_CmdRegister :
    (idle0.rst = false ∧ idle0.engine = .idle) ∧ ((running 3).rst = false ∧ (running 3).engine = .busy 3) := by decide

theorem witness_StartedCommandEnds :
    (running 3).rst = false ∧ (running 3).busy = true ∧ (running 3).inputs = [] ∧
    { running 3 with turns := [.host, .host] }.busy = true := by decide

/-- Over the limit by one; the byte 0x80 at index 1 (V20); the limit itself, all bytes at 0x7F; and no byte at all. -/
theorem witness_EncodeFollowsItsRule :
    ({ idle0 with msgLen := 7 }.cfg.maxMsgBytes < ({ idle0 with msgLen := 7 } : State).msgLen.toNat) ∧
    (let s := loaded [0x7F, 0x80] 0 0 0 []
     s.msgLen.toNat ≤ s.cfg.maxMsgBytes ∧ 1 < s.msgLen.toNat ∧ (∃ b, s.msg.read? 1 = some b ∧ 128 ≤ b.toNat) ∧
       ∀ k, k < 1 → ∃ b, s.msg.read? k = some b ∧ b.toNat < 128) ∧
    (let s := loaded (List.replicate 6 0x7F) 0 0 0 []
     s.msgLen.toNat = s.cfg.maxMsgBytes ∧ ∀ i, i < s.msgLen.toNat → ∃ b, s.msg.read? i = some b ∧ b.toNat < 128) ∧
    (idle0.msgLen.toNat = 0 ∧ idle0.msgLen.toNat ≤ idle0.cfg.maxMsgBytes) := by
  refine ⟨by decide, ⟨by decide, by decide, ⟨0x80, by decide, by decide⟩, ?_⟩, ⟨by decide, ?_⟩, by decide⟩
  · intro k hk
    exact ⟨0x7F, by rw [show k = 0 by omega]; decide, by decide⟩
  · exact State.asciiText_iff.mp (by decide)

/-- 49 bits; 15 bits; all 48 bits written; no bit at all. -/
theorem witness_DecodeFollowsItsRule :
    ({ idle0 with bitCount := 49 }.cfg.maxBits < ({ idle0 with bitCount := 49 } : State).bitCount.toNat) ∧
    (let s := { idle0 with bitCount := 15 }
     s.bitCount.toNat ≤ s.cfg.maxBits ∧ s.bitCount.toNat % 8 ≠ 0) ∧
    (let s := { idle0 with bitCount := 48, bit := memOf (List.replicate 48 true) }
     s.bitCount.toNat = s.cfg.maxBits ∧ s.bitCount.toNat % 8 = 0 ∧ ∀ i, i < s.bitCount.toNat → ∃ b, s.bit.read? i = some b) ∧
    (idle0.bitCount.toNat ≤ idle0.cfg.maxBits ∧ idle0.bitCount.toNat % 8 = 0) := by
  refine ⟨by decide, by decide, ⟨by decide, by decide, ?_⟩, by decide⟩
  exact written (m := memOf (List.replicate 48 true)) (n := 48) (by decide)

/-- The boundary pair 3, 8 and 3, 9. -/
theorem witness_CapchkFollowsItsRule :
    (3 * ({ idle0 with msgLen := 3, fileSize := 8 } : State).fileSize.toNat ≤
      8 * ({ idle0 with msgLen := 3, fileSize := 8 } : State).msgLen.toNat) ∧
    (8 * ({ idle0 with msgLen := 3, fileSize := 9 } : State).msgLen.toNat <
      3 * ({ idle0 with msgLen := 3, fileSize := 9 } : State).fileSize.toNat) := by decide

/-- A grid of 9 words; 49 bits on a grid of 8; 25 bits on all 8 words; no bit. -/
theorem witness_EmbedFollowsItsRule :
    ({ idle0 with width := 9, height := 1 }.cfg.pixWords < 9 * 1) ∧
    (let s := { idle0 with width := 4, height := 2, bitCount := 49 }
     s.width.toNat * s.height.toNat ≤ s.cfg.pixWords ∧ s.cfg.maxBits < s.bitCount.toNat) ∧
    (let s := { loaded [] 4 2 0 black with bit := memOf (List.replicate 25 true), bitCount := 25 }
     8 = min (s.bitCount.toNat / 3) (s.width.toNat * s.height.toNat) ∧ s.width.toNat * s.height.toNat ≤ s.cfg.pixWords ∧
       s.bitCount.toNat ≤ s.cfg.maxBits ∧ (∀ i, i < 3 * 8 → ∃ b, s.bit.read? i = some b) ∧
       ∀ n, n < 8 → ∃ p, s.pix.read? (pixIndex s.width.toNat s.height.toNat n) = some p) ∧
    (0 = min (idle0.bitCount.toNat / 3) (idle0.width.toNat * idle0.height.toNat)) := by
  refine ⟨by decide, by decide, ⟨by decide, by decide, by decide, ?_, ?_⟩, by decide⟩
  · exact written (m := memOf (List.replicate 25 true)) (n := 24) (by decide)
  · exact visited (s := loaded [] 4 2 0 black) (g := 8) (by decide)

/-- A grid of 9 words; 49 bits; a budget past the grid's 24 bits, all 8 words written; no budget. -/
theorem witness_ExtractFollowsItsRule :
    ({ idle0 with width := 3, height := 3 }.cfg.pixWords < 3 * 3) ∧
    (let s := { idle0 with width := 4, height := 2, totalBits := 49 }
     s.width.toNat * s.height.toNat ≤ s.cfg.pixWords ∧ s.cfg.maxBits < s.totalBits.toNat) ∧
    (let s := { loaded [] 4 2 0 black with totalBits := 48 }
     8 = min (s.totalBits.toNat / 3) (s.width.toNat * s.height.toNat) ∧ s.width.toNat * s.height.toNat ≤ s.cfg.pixWords ∧
       s.totalBits.toNat ≤ s.cfg.maxBits ∧
       ∀ n, n < 8 → ∃ p, s.pix.read? (pixIndex s.width.toNat s.height.toNat n) = some p) ∧
    (0 = min (idle0.totalBits.toNat / 3) (idle0.width.toNat * idle0.height.toNat)) := by
  refine ⟨by decide, by decide, ⟨by decide, by decide, by decide, ?_⟩, by decide⟩
  exact visited (s := loaded [] 4 2 0 black) (g := 8) (by decide)

/-- The five clauses: 7 bytes; a grid of 9; the capacity boundary 3, 8; byte 0x80 with 3, 9; "abc" with 3, 9. -/
theorem witness_EncryptFollowsItsRule :
    (tiny.wf = true ∧ tiny.maxMsgBytes < 7) ∧
    (let s := { loaded abc 9 1 8 black with done := false }
     s.msgLen.toNat ≤ s.cfg.maxMsgBytes ∧ s.cfg.pixWords < s.width.toNat * s.height.toNat) ∧
    (let s := loaded abc 4 2 8 black
     s.msgLen.toNat ≤ s.cfg.maxMsgBytes ∧ s.width.toNat * s.height.toNat ≤ s.cfg.pixWords ∧
       3 * s.fileSize.toNat ≤ 8 * s.msgLen.toNat) ∧
    (let s := loaded [0x61, 0x62, 0x80] 4 2 9 black
     s.msgLen.toNat ≤ s.cfg.maxMsgBytes ∧ s.width.toNat * s.height.toNat ≤ s.cfg.pixWords ∧
       8 * s.msgLen.toNat < 3 * s.fileSize.toNat ∧ 2 < s.msgLen.toNat ∧
       (∃ b, s.msg.read? 2 = some b ∧ 128 ≤ b.toNat) ∧ ∀ k, k < 2 → ∃ b, s.msg.read? k = some b ∧ b.toNat < 128) ∧
    (let s := loaded abc 4 2 9 black
     8 = min (8 * s.msgLen.toNat / 3) (s.width.toNat * s.height.toNat) ∧ s.msgLen.toNat ≤ s.cfg.maxMsgBytes ∧
       s.width.toNat * s.height.toNat ≤ s.cfg.pixWords ∧ 8 * s.msgLen.toNat < 3 * s.fileSize.toNat ∧
       (∀ i, i < s.msgLen.toNat → ∃ b, s.msg.read? i = some b ∧ b.toNat < 128) ∧
       ∀ n, n < 8 → ∃ p, s.pix.read? (pixIndex s.width.toNat s.height.toNat n) = some p) := by
  refine ⟨by decide, by decide, by decide, ⟨by decide, by decide, by decide, by decide, ⟨0x80, by decide, by decide⟩, ?_⟩,
    ⟨by decide, by decide, by decide, by decide, ?_, ?_⟩⟩
  · intro k hk
    rcases (show k = 0 ∨ k = 1 by omega) with rfl | rfl
    · exact ⟨0x61, by decide, by decide⟩
    · exact ⟨0x62, by decide, by decide⟩
  · exact ascii (loaded abc 4 2 9 black) (by decide)
  · exact visited (s := loaded abc 4 2 9 black) (g := 8) (by decide)

/-- 7 bytes; a grid of 9; 15 bits (a FormatError); 24 bits (a text). -/
theorem witness_DecryptFollowsItsRule :
    (tiny.wf = true ∧ tiny.maxMsgBytes < 7) ∧
    (let s := loaded abc 9 1 0 black
     s.msgLen.toNat ≤ s.cfg.maxMsgBytes ∧ s.cfg.pixWords < s.width.toNat * s.height.toNat) ∧
    (let s := loaded [0x48, 0x69] 4 2 0 black
     5 = min (8 * s.msgLen.toNat / 3) (s.width.toNat * s.height.toNat) ∧ 3 * 5 % 8 ≠ 0 ∧
       s.msgLen.toNat ≤ s.cfg.maxMsgBytes ∧ s.width.toNat * s.height.toNat ≤ s.cfg.pixWords ∧
       ∀ n, n < 5 → ∃ p, s.pix.read? (pixIndex s.width.toNat s.height.toNat n) = some p) ∧
    (let s := loaded abc 4 2 0 black
     8 = min (8 * s.msgLen.toNat / 3) (s.width.toNat * s.height.toNat) ∧ 3 * 8 % 8 = 0 ∧
       s.msgLen.toNat ≤ s.cfg.maxMsgBytes ∧ s.width.toNat * s.height.toNat ≤ s.cfg.pixWords ∧
       ∀ n, n < 8 → ∃ p, s.pix.read? (pixIndex s.width.toNat s.height.toNat n) = some p) := by
  refine ⟨by decide, by decide, ⟨by decide, by decide, by decide, by decide, ?_⟩,
    ⟨by decide, by decide, by decide, by decide, ?_⟩⟩
  · exact visited (s := loaded [0x48, 0x69] 4 2 0 black) (g := 5) (by decide)
  · exact visited (s := loaded abc 4 2 0 black) (g := 8) (by decide)

/-- Every command goes on from one state: the text and the grid written, 24 bits in BITMEM, a budget of 24. -/
theorem witness_CommandsTouchOnlyTheirLocations :
    let s := { loaded abc 4 2 100 black with bit := memOf (textBits abc), bitCount := 24, totalBits := 24 }
    [Instr.nop, .encode, .decode, .capchk, .embed, .extract, .encrypt, .decrypt].all
      (fun i => (nextState? (exec i s)).isSome) = true := by decide

/-- Every command but NOP ends with an error from some state in which ERR is 0. -/
theorem witness_ErrorCodesByCommand :
    let s := { loaded (List.replicate 7 0) 9 1 0 [] with bitCount := 49, totalBits := 49 }
    s.err = false ∧ [Instr.encode, .decode, .capchk, .embed, .extract, .encrypt, .decrypt].all
      (fun i => (after i s).err) = true := by decide

/-- The other errors: EncodingError of ENCODE and ENCRYPT, CapacityError of ENCRYPT, FormatError of DECODE and DECRYPT;
and the ConfigError of DECRYPT. -/
theorem witness_ErrorEndsWriteNothing :
    (after .encode (loaded [0x80] 0 0 0 [])).errCode = 1 ∧ (after .encrypt (loaded [0x80] 0 0 9 [])).errCode = 1 ∧
    (after .encrypt (loaded [0x41] 0 0 0 [])).errCode = 4 ∧ (after .decode { idle0 with bitCount := 7 }).errCode = 5 ∧
    (after .decrypt (loaded [0x48, 0x69] 4 2 0 black)).errCode = 5 ∧
    (after .decrypt { idle0 with msgLen := 7 }).errCode = 6 := by decide

/-- ENCODE with byte 1 of a text of 2 unwritten; DECODE with bit 7 of 8 unwritten. -/
theorem witness_UnwrittenReadsFault :
    (let s := { loaded [0x41] 0 0 0 [] with msgLen := 2 }
     s.msgLen.toNat ≤ s.cfg.maxMsgBytes ∧ 1 < s.msgLen.toNat ∧ s.msg.read? 1 = none ∧
       ∀ k, k < 1 → ∃ b, s.msg.read? k = some b ∧ b.toNat < 128) ∧
    (let s := { idle0 with bitCount := 8, bit := memOf (List.replicate 7 true) }
     s.bitCount.toNat ≤ s.cfg.maxBits ∧ s.bitCount.toNat % 8 = 0 ∧ 7 < s.bitCount.toNat ∧ s.bit.read? 7 = none ∧
       ∀ k, k < 7 → ∃ b, s.bit.read? k = some b) := by
  refine ⟨⟨by decide, by decide, by decide, ?_⟩, ⟨by decide, by decide, by decide, by decide, ?_⟩⟩
  · intro k hk
    exact ⟨0x41, by rw [show k = 0 by omega]; decide, by decide⟩
  · exact written (m := memOf (List.replicate 7 true)) (n := 7) (by decide)

/-- Pixel words 0 and 4 of a 4 by 2 grid, which are visits 0 and 1, and no other. -/
def twoVisits (w : Mem Pixel) : State := { idle0 with width := 4, height := 2, bitCount := 9, totalBits := 9, pix := w }

/-- EMBED at bit 5, the last bit of group 1, with visit 0 written; EMBED at its first bit; EMBED at visit 2, with bits 0
to 8 and visits 0 and 1 written; EMBED at visit 0. -/
theorem witness_UnwrittenReadsFault_embed :
    (let s := { twoVisits [(0, 7)] with bit := memOf (List.replicate 5 true) }
     s.width.toNat * s.height.toNat ≤ s.cfg.pixWords ∧ s.bitCount.toNat ≤ s.cfg.maxBits ∧
       5 < 3 * min (s.bitCount.toNat / 3) (s.width.toNat * s.height.toNat) ∧ s.bit.read? 5 = none ∧
       (∀ k, k < 5 → ∃ b, s.bit.read? k = some b) ∧
       (∀ n, n < 5 / 3 → ∃ p, s.pix.read? (pixIndex s.width.toNat s.height.toNat n) = some p) ∧
       exec .embed s = .fault (.unwrittenBit 5)) ∧
    ((twoVisits []).bit.read? 0 = none ∧ exec .embed (twoVisits []) = .fault (.unwrittenBit 0)) ∧
    (let s := { twoVisits [(0, 7), (4, 7)] with bit := memOf (List.replicate 9 true) }
     2 < min (s.bitCount.toNat / 3) (s.width.toNat * s.height.toNat) ∧
       s.pix.read? (pixIndex s.width.toNat s.height.toNat 2) = none ∧
       (∀ k, k < 3 * 2 + 3 → ∃ b, s.bit.read? k = some b) ∧
       (∀ k, k < 2 → ∃ p, s.pix.read? (pixIndex s.width.toNat s.height.toNat k) = some p) ∧
       exec .embed s = .fault (.unwrittenPix 1)) ∧
    exec .embed { twoVisits [] with bit := memOf [true, true, true] } = .fault (.unwrittenPix 0) := by
  refine ⟨⟨by decide, by decide, by decide, by decide, ?_, ?_, rfl⟩, ⟨by decide, rfl⟩,
    ⟨by decide, by decide, ?_, ?_, rfl⟩, rfl⟩
  · exact written (m := memOf (List.replicate 5 true)) (n := 5) (by decide)
  · exact visited (s := twoVisits [(0, 7)]) (g := 1) (by decide)
  · exact written (m := memOf (List.replicate 9 true)) (n := 9) (by decide)
  · exact visited (s := twoVisits [(0, 7), (4, 7)]) (g := 2) (by decide)

/-- EXTRACT at visit 2, with visits 0 and 1 written, and at visit 0. -/
theorem witness_UnwrittenReadsFault_extract :
    (let s := twoVisits [(0, 7), (4, 7)]
     s.totalBits.toNat ≤ s.cfg.maxBits ∧ 2 < min (s.totalBits.toNat / 3) (s.width.toNat * s.height.toNat) ∧
       s.pix.read? (pixIndex s.width.toNat s.height.toNat 2) = none ∧
       (∀ k, k < 2 → ∃ p, s.pix.read? (pixIndex s.width.toNat s.height.toNat k) = some p) ∧
       exec .extract s = .fault (.unwrittenPix 1)) ∧
    exec .extract (twoVisits []) = .fault (.unwrittenPix 0) :=
  ⟨⟨by decide, by decide, by decide, visited (s := twoVisits [(0, 7), (4, 7)]) (g := 2) (by decide), rfl⟩, rfl⟩

/-- ENCRYPT of a text of 2 with byte 1 unwritten; ENCRYPT and DECRYPT of "abc" at visit 2 of a 4 by 2 grid, with visits 0
and 1 written; both at visit 0. -/
theorem witness_UnwrittenReadsFault_composites :
    (let s := { loaded [0x41] 8 1 6 [] with msgLen := 2 }
     s.msgLen.toNat ≤ s.cfg.maxMsgBytes ∧ s.width.toNat * s.height.toNat ≤ s.cfg.pixWords ∧
       8 * s.msgLen.toNat < 3 * s.fileSize.toNat ∧ 1 < s.msgLen.toNat ∧ s.msg.read? 1 = none ∧
       ∀ k, k < 1 → ∃ b, s.msg.read? k = some b ∧ b.toNat < 128) ∧
    (let s := { loaded abc 4 2 9 [] with pix := [(0, 7), (4, 7)] }
     s.cfg.wf = true ∧ s.msgLen.toNat ≤ s.cfg.maxMsgBytes ∧ s.width.toNat * s.height.toNat ≤ s.cfg.pixWords ∧
       8 * s.msgLen.toNat < 3 * s.fileSize.toNat ∧
       (∀ i, i < s.msgLen.toNat → ∃ b, s.msg.read? i = some b ∧ b.toNat < 128) ∧
       2 < min (8 * s.msgLen.toNat / 3) (s.width.toNat * s.height.toNat) ∧
       s.pix.read? (pixIndex s.width.toNat s.height.toNat 2) = none ∧
       (∀ k, k < 2 → ∃ p, s.pix.read? (pixIndex s.width.toNat s.height.toNat k) = some p) ∧
       exec .encrypt s = .fault (.unwrittenPix 1) ∧ exec .decrypt s = .fault (.unwrittenPix 1)) ∧
    (exec .encrypt (loaded abc 4 2 9 []) = .fault (.unwrittenPix 0) ∧
      exec .decrypt (loaded abc 4 2 9 []) = .fault (.unwrittenPix 0)) := by
  refine ⟨⟨by decide, by decide, by decide, by decide, by decide, ?_⟩,
    ⟨by decide, by decide, by decide, by decide, ?_, by decide, by decide, ?_, rfl, rfl⟩, ⟨rfl, rfl⟩⟩
  · intro k hk
    exact ⟨0x41, by rw [show k = 0 by omega]; decide, by decide⟩
  · exact ascii (loaded abc 4 2 9 []) (by decide)
  · exact visited (s := { loaded abc 4 2 9 [] with pix := [(0, 7), (4, 7)] }) (g := 2) (by decide)

/-- A fault of each kind, and each of the two kinds of end, in a legal configuration. -/
theorem witness_CommandsFaultOnlyOnUnwrittenReads :
    tiny.wf = true ∧ exec .encode { idle0 with msgLen := 1 } = .fault (.unwrittenMsg 0) ∧
    exec .decode { idle0 with bitCount := 8 } = .fault (.unwrittenBit 0) ∧
    exec .embed { idle0 with width := 1, height := 1, bitCount := 3 } = .fault (.unwrittenBit 0) ∧
    exec .extract { idle0 with width := 1, height := 1, totalBits := 3 } = .fault (.unwrittenPix 0) ∧
    exec .nop idle0 = .next idle0.complete ∧
    exec .decode { idle0 with bitCount := 7 } =
      .next (State.latchError .formatError 7 { idle0 with bitCount := 7 }) :=
  ⟨rfl, rfl, rfl, rfl, rfl, rfl, rfl⟩

/-- Visits 0 and 5 of a 3 by 2 grid, and the word 5. -/
theorem witness_TraversalVisitsEveryPixelOnce : 0 < 3 * 2 ∧ 5 < 3 * 2 ∧ pixIndex 3 2 5 = 5 ∧ pixIndex 3 2 0 = 0 := by
  decide

theorem witness_EmbedLaws :
    let s := { loaded [] 4 2 0 black with bit := memOf (List.replicate 25 true), bitCount := 25 }
    s.Inv ∧ exec .embed s = .next (after .embed s) ∧ (after .embed s).err = false :=
  ⟨by decide, goes _ _ (by decide), by decide⟩

/-- The four cases: "abc" on 8 pixels, "Hi" on 6, "abc" on 4, "abcdef" on 8. -/
theorem witness_RoundTrip :
    (let s := loaded abc 4 2 0 black
     s.Inv ∧ s.msgLen.toNat ≤ s.cfg.maxMsgBytes ∧ s.width.toNat * s.height.toNat ≤ s.cfg.pixWords ∧
       (∀ i, i < s.msgLen.toNat → ∃ b, s.msg.read? i = some b ∧ b.toNat < 128) ∧
       (∀ a, a < s.width.toNat * s.height.toNat → ∃ p, s.pix.read? a = some p) ∧
       s.msgLen.toNat % 3 = 0 ∧ 8 * s.msgLen.toNat / 3 ≤ s.width.toNat * s.height.toNat) ∧
    (let s := loaded [0x48, 0x69] 3 2 0 black
     s.Inv ∧ (∀ i, i < s.msgLen.toNat → ∃ b, s.msg.read? i = some b ∧ b.toNat < 128) ∧
       (∀ a, a < s.width.toNat * s.height.toNat → ∃ p, s.pix.read? a = some p) ∧
       s.msgLen.toNat % 3 ≠ 0 ∧ 8 * s.msgLen.toNat / 3 ≤ s.width.toNat * s.height.toNat) ∧
    (let s := loaded abc 2 2 0 black
     s.Inv ∧ (∀ i, i < s.msgLen.toNat → ∃ b, s.msg.read? i = some b ∧ b.toNat < 128) ∧
       (∀ a, a < s.width.toNat * s.height.toNat → ∃ p, s.pix.read? a = some p) ∧
       s.width.toNat * s.height.toNat < 8 * s.msgLen.toNat / 3 ∧ s.width.toNat * s.height.toNat % 8 ≠ 0) ∧
    (let s := loaded (abc ++ abc) 2 4 0 black
     s.Inv ∧ (∀ i, i < s.msgLen.toNat → ∃ b, s.msg.read? i = some b ∧ b.toNat < 128) ∧
       (∀ a, a < s.width.toNat * s.height.toNat → ∃ p, s.pix.read? a = some p) ∧
       s.width.toNat * s.height.toNat < 8 * s.msgLen.toNat / 3 ∧ s.width.toNat * s.height.toNat % 8 = 0) := by
  refine ⟨⟨by decide, by decide, by decide, ?_, ?_, by decide, by decide⟩, ⟨by decide, ?_, ?_, by decide, by decide⟩,
    ⟨by decide, ?_, ?_, by decide, by decide⟩, ⟨by decide, ?_, ?_, by decide, by decide⟩⟩
  · exact ascii (loaded abc 4 2 0 black) (by decide)
  · exact written (m := memOf black) (n := 8) (by decide)
  · exact ascii (loaded [0x48, 0x69] 3 2 0 black) (by decide)
  · exact written (m := memOf black) (n := 6) (by decide)
  · exact ascii (loaded abc 2 2 0 black) (by decide)
  · exact written (m := memOf black) (n := 4) (by decide)
  · exact ascii (loaded (abc ++ abc) 2 4 0 black) (by decide)
  · exact written (m := memOf black) (n := 8) (by decide)

theorem witness_HardwiredRegisters :
    State.reset.rst = false ∧ step State.reset = .next State.reset ∧ (nextState? (step (running 3))).isSome = true :=
  ⟨rfl, rfl, by decide⟩

theorem witness_CtrlRegister :
    idle0.rst = false ∧ (0x1#32).getLsbD 1 = false ∧ (0x3#32).getLsbD 1 = true ∧ (running 0).rst = false := by decide

theorem witness_StatusRegister : idle0.rst = false ∧ (running 0).rst = false := by decide

theorem witness_OperandRegisters : idle0.rst = false ∧ idle0.engine = .idle := by decide

theorem witness_ResultRegistersReadOnly : idle0.rst = false ∧ idle0.engine = .idle := by decide

/-- The three ways CMD_DROPPED is cleared: a W1C write, a soft reset, an edge of RST. -/
theorem witness_CmdDroppedClearedOnlyByHost :
    let s := { idle0 with cmdDropped := true }
    [Input.write .word 0x200000C 8, .write .word 0x2000004 2, .rst true].all
      (fun x => (nextState? (step { s with inputs := [x] })).any (fun t => !t.cmdDropped)) = true := by decide

theorem witness_InterruptOutput :
    exec .nop idle0 = .next (after .nop idle0) ∧ idle0.rst = false ∧ idle0.engine = .idle ∧
    (0x6#32).getLsbD 1 = true ∧ (0x6#32).getLsbD 2 = true := ⟨rfl, rfl, rfl, rfl, rfl⟩

/-- The host moves with no turn listed, while the engine is idle and while RST is high, and where its turn is listed. -/
theorem witness_hostMoves :
    State.reset.mover = .host ∧ idle0.mover = .host ∧ { running 4 with rst := true }.mover = .host ∧
    { idle0 with turns := [.host] }.mover = .host ∧ { running 4 with turns := [.host] }.mover = .host := by decide

/-- A read in the default turn, in an idle block and in one held in reset. -/
theorem witness_ReadsHaveNoSideEffect :
    (let s := { idle0 with inputs := [.read .word 0x2000000] }
     s.mover = .host ∧ (nextState? (step s)).map (fun t => t.reads) = some [(0, 0x4C534231)]) ∧
    (let s := { running 4 with rst := true, inputs := [.read .word 0x2000000] }
     s.mover = .host ∧ (nextState? (step s)).map (fun t => t.reads) = some [(0, 0)]) := by decide

/-- A byte access at 0; a word access at the last byte offset. -/
theorem witness_OtherAccessesRefused :
    (0 < 0x2000000 ∧ (AccessWidth.byte ≠ .word ∨ 0 % 4 ≠ 0)) ∧
    (0x1FFFFFF < 0x2000000 ∧ (AccessWidth.word ≠ .word ∨ 0x1FFFFFF % 4 ≠ 0)) ∧
    { idle0 with inputs := [.read .byte 0x2000000] }.mover = .host := by decide

/-- The first and the last word of the block. -/
theorem witness_AlignedAccessesHaveTheirEffect :
    0 < 0x2000000 ∧ 0 % 4 = 0 ∧ 0x1FFFFFC < 0x2000000 ∧ 0x1FFFFFC % 4 = 0 ∧
    { idle0 with inputs := [.write .word 0x3FFFFFC 1] }.mover = .host ∧
    { running 4 with inputs := [.read .word 0x2000000], turns := [.host] }.mover = .host := by decide

/-- The ends of the reserved ranges; word 2 of the byte windows, wholly past 6 bytes; lanes 2 and 3 of word 1; pixel word
8; and the last words of the windows. -/
theorem witness_ReservedAndPastTheEndReadZero :
    (∀ off ∈ [0x40, 0xFFFC, 0x30000, 0xFFFFFC], (0x40 ≤ off ∧ off < 0x10000) ∨ (0x30000 ≤ off ∧ off < 0x1000000)) ∧
    (2 < 0x4000 ∧ idle0.cfg.maxMsgBytes ≤ 4 * 2 ∧ 0x3FFF < 0x4000 ∧ idle0.cfg.maxMsgBytes ≤ 4 * 0x3FFF) ∧
    (1 < 0x4000 ∧ 2 < 4 ∧ 3 < 4 ∧ idle0.cfg.maxMsgBytes ≤ 4 * 1 + 2) ∧
    (8 < 0x400000 ∧ idle0.cfg.pixWords ≤ 8 ∧ 0x3FFFFF < 0x400000) := by decide

/-- Of 6 bytes, word 0 lies whole in the memory and lanes 0 and 1 of word 1 are its last; bit 47 and pixel word 7 are the
last ones. -/
theorem witness_Windows :
    idle0.rst = false ∧ idle0.engine = .idle ∧ (0 < 0x4000 ∧ 3 < 4 ∧ 4 * 0 + 3 < idle0.cfg.maxMsgBytes) ∧
    (1 < 0x4000 ∧ 1 < 4 ∧ 4 * 1 + 1 < idle0.cfg.maxMsgBytes ∧ ¬4 * 1 + 2 < idle0.cfg.maxMsgBytes) ∧
    (47 < 0x80000 ∧ 47 < idle0.cfg.maxBits) ∧ (7 < 0x400000 ∧ 7 < idle0.cfg.pixWords) ∧
    ({ idle0 with msg := [(5, 1)], bit := [(47, true)], pix := [(7, 5)] }.msg.read? 5 = some 1) := by decide

theorem witness_UnwrittenLocationsReadStably :
    idle0.rst = false ∧ idle0.engine = .idle ∧ 4 * 1 + 1 < idle0.cfg.maxMsgBytes ∧ idle0.msg.read? 5 = none ∧
    idle0.bit.read? 47 = none ∧ idle0.pix.read? 7 = none := by decide

theorem witness_GatingWhileBusy : (running 4).rst = false ∧ (running 4).engine = .busy 4 := by decide

theorem witness_HostCannotDisturbARunningCommand :
    let s := { loaded abc 4 2 100 black with engine := .busy 6 }
    s.Inv ∧ s.engine = .busy 6 ∧ decode 6 = .ok .encrypt ∧ 0x018 % 4 = 0 ∧ ¬(0x018 = 0x004 ∧ (7#32).getLsbD 1 = true) ∧
    ¬(0x004 = 0x004 ∧ (1#32).getLsbD 1 = true) ∧ exec .encrypt s = .next (after .encrypt s) :=
  ⟨by decide, rfl, rfl, rfl, by decide, by decide, goes _ _ (by decide)⟩

/-- A command that faults, on a location not written. -/
theorem witness_HostCannotDisturbARunningCommand_fault :
    let s := { idle0 with engine := .busy 1, msgLen := 1 }
    s.Inv ∧ s.engine = .busy 1 ∧ decode 1 = .ok .encode ∧ exec .encode s = .fault (.unwrittenMsg 0) :=
  ⟨by decide, rfl, rfl, rfl⟩

/-- An illegal word running. -/
theorem witness_HostCannotDisturbARunningCommand_illegal :
    (running 8).Inv ∧ (running 8).engine = .busy 8 ∧ decode 8 = .error (.opReserved 8) := by decide

theorem witness_WaitPollsStatus :
    { idle0 with inputs := [.wait] }.mover = .host ∧ { running 4 with rst := true, inputs := [.wait] }.mover = .host ∧
    { running 4 with inputs := [.wait], turns := [.host] }.mover = .host := by decide

/-- Lists that end at the last byte and the last pixel word of the windows, and the ends of every index range. -/
theorem witness_StatementsExpandInsideTheContract :
    tiny.wf = true ∧ abc.length ≤ 0x10000 ∧ 0x3FFFF8 + black.length ≤ 0x400000 ∧ 0x3FFFFF + 1 ≤ 0x400000 ∧
    0x10000 ≤ 0x10000 ∧ ((Dst.off 0x1FFFFFC).offset < 0x2000000 ∧ (Dst.off 0x1FFFFFC).offset % 4 = 0) ∧
    (4 * 0 < abc.length ∧ 4 * 1 < 5 ∧ black[7]? = some 0 ∧ 0 < 1) := by decide

/-- R59's columns: ISSUE, LDMSG of three, four and five characters, LDPIX, RDPIX and RDMSG of five bytes. -/
theorem test_expansions :
    Stmt.expand tiny (.issue .encrypt) = [.write .word 0x2000008 6, .wait] ∧
    Stmt.expand tiny (.ldmsg abc) = [.write .word 0x2010000 0x00636261, .write .word 0x2000020 3] ∧
    Stmt.expand tiny (.ldmsg (abc ++ [0x64, 0x65])) =
      [.write .word 0x2010000 0x64636261, .write .word 0x2010004 0x65, .write .word 0x2000020 5] ∧
    Stmt.expand tiny (.ldpix 2 [7, 8]) = [.write .word 0x3000008 7, .write .word 0x300000C 8] ∧
    Stmt.expand tiny (.rdpix 0x3FFFFF 1) = [.read .word 0x3FFFFFC] ∧
    Stmt.expand tiny (.rdmsg 5) = [.read .word 0x2010000, .read .word 0x2010004] := by decide

theorem witness_SoftResetWhileIdle : idle0.rst = false ∧ idle0.engine = .idle ∧ (0x2#32).getLsbD 1 = true := by decide

theorem witness_SoftResetAborts :
    let s := { loaded abc 4 2 100 black with engine := .busy 6 }
    s.Inv ∧ s.rst = false ∧ s.engine = .busy 6 ∧ (0x2#32).getLsbD 1 = true ∧ decode 6 = .ok .encrypt ∧
    exec .encrypt s = .next (after .encrypt s) ∧ decode 8 = .error (.opReserved 8) ∧ (running 8).Inv :=
  ⟨by decide, rfl, rfl, rfl, rfl, goes _ _ (by decide), rfl, by decide⟩

/-- A command that would have faulted on its first byte; and locations just past the writes of ENCODE and of EMBED. -/
theorem witness_SoftResetAborts_fault :
    (let s := { running 1 with msgLen := 1 }
     s.Inv ∧ s.rst = false ∧ s.engine = .busy 1 ∧ exec .encode s = .fault (.unwrittenMsg 0) ∧
       ¬((Instr.encode = .encode ∨ Instr.encode = .encrypt) ∧ 8 < 8 * s.msgLen.toNat)) ∧
    (let s := { running 4 with width := 4, height := 2, bitCount := 3 }
     s.Inv ∧ exec .embed s = .fault (.unwrittenBit 0) ∧
       ∀ n, n < min (s.bitCount.toNat / 3) (s.width.toNat * s.height.toNat) → pixIndex s.width.toNat s.height.toNat n ≠ 4) := by
  refine ⟨⟨by decide, rfl, rfl, rfl, by decide⟩, by decide, rfl, fun n hn => ?_⟩
  rw [show n = 0 by simp at hn; omega]; decide

theorem witness_PowerOnReset :
    let s := { running 6 with rst := true, inputs := [.rst false] }
    s.rst = true ∧ s.inputs = [.rst false] ∧ s.mover = .host ∧ { s with turns := [.host] }.mover = .host := by decide

theorem witness_EveryStepKeepsTheInvariant :
    let s := { loaded abc 4 2 100 black with engine := .busy 6 }
    s.Inv ∧ (nextState? (step s)).isSome = true ∧ (running 8).Inv ∧ (nextState? (step (running 8))).isSome = true := by
  decide

/-- Each clause: a listed turn of each agent; no turn listed with the engine idle, with RST high, and with a command
running; and moves with nothing to do. -/
theorem witness_StepIsTheMoversTurn :
    ({ idle0 with turns := [.engine, .host] }.mover = .engine ∧ idle0.engine = .idle) ∧
    ({ running 4 with turns := [.host] }.mover = .host ∧ (running 4).inputs = []) ∧
    (idle0.turns = [] ∧ { running 4 with rst := true }.turns = []) ∧
    ((running 4).turns = [] ∧ (running 4).engine = .busy 4 ∧ (running 4).rst = false ∧ (running 4).mover = .engine) ∧
    ({ running 4 with rst := true, turns := [.engine] }.mover = .engine) := by decide

/-- The text and the grid at their full sizes, every location written: the last byte, bit and visit of each clause. -/
theorem witness_AbortedCommandWouldHaveWritten :
    let s := { loaded (abc ++ abc) 4 2 100 black with bit := memOf (textBits (abc ++ abc)), bitCount := 48, totalBits := 48 }
    tiny.wf = true ∧ s.cfg = tiny ∧ s.msgLen.toNat = s.cfg.maxMsgBytes ∧ (∀ k, k < 6 → (s.msgByte k).toNat < 128) ∧
    5 < s.msgLen.toNat ∧ s.bitCount.toNat = s.cfg.maxBits ∧ s.bitCount.toNat % 8 = 0 ∧ 5 < s.bitCount.toNat / 8 ∧
    s.width.toNat * s.height.toNat = s.cfg.pixWords ∧ 7 < min (s.bitCount.toNat / 3) (s.width.toNat * s.height.toNat) ∧
    s.totalBits.toNat = s.cfg.maxBits ∧ 7 < min (s.totalBits.toNat / 3) (s.width.toNat * s.height.toNat) ∧
    8 * s.msgLen.toNat < 3 * s.fileSize.toNat := by decide

/-- The clauses in which nothing is written: a byte of 128, and each check that fails. -/
theorem witness_AbortedCommandWouldHaveWritten_checks :
    (let s := loaded [0x41, 0x80] 4 2 6 black
     1 < s.msgLen.toNat ∧ 128 ≤ (s.msgByte 1).toNat ∧ 8 * s.msgLen.toNat < 3 * s.fileSize.toNat) ∧
    (tiny.maxMsgBytes < ({ idle0 with msgLen := 7 } : State).msgLen.toNat) ∧
    (tiny.maxBits < ({ idle0 with bitCount := 49 } : State).bitCount.toNat ∧
      ({ idle0 with bitCount := 15 } : State).bitCount.toNat % 8 ≠ 0) ∧ tiny.pixWords < 9 * 1 ∧
    (tiny.maxBits < ({ idle0 with totalBits := 49 } : State).totalBits.toNat) ∧
    (3 * (loaded abc 4 2 8 black).fileSize.toNat ≤ 8 * (loaded abc 4 2 8 black).msgLen.toNat) := by decide

end Sys2Proof.Tests
end

section
/-! SUPPORT. One host access to a register by its offset (10_state R16): what a read returns and what a write does. -/

namespace Sys2Proof.Machine

open Sys2Proof

theorem targetOf_offset (r : RegName) : targetOf r.offset = .reg r := by
  cases r <;> exact targetOf_reg (by decide) rfl

theorem State.whenIdle_of_idle {s : State} (hi : s.engine = .idle) (t : State) : s.whenIdle t = t := by
  simp [State.whenIdle, (State.not_busy_eq s).mpr hi]

theorem State.whenIdle_of_busy {s : State} (hb : s.busy = true) (t : State) : s.whenIdle t = s := by
  simp [State.whenIdle, hb]

/-! ### Reads -/

theorem State.busRead_reg (s : State) (r : RegName) :
    s.busRead r.offset = if s.rst then 0 else if s.busy && !r.readableBusy then 0 else s.regValue r := by
  rw [State.busRead, targetOf_offset]; rfl

theorem State.busRead_reg_idle {s : State} (hr : s.rst = false) (hi : s.engine = .idle) (r : RegName) :
    s.busRead r.offset = s.regValue r := by
  simp [State.busRead_reg, hr, (State.not_busy_eq s).mpr hi]

theorem State.busRead_reg_readable {s : State} (hr : s.rst = false) {r : RegName} (h : r.readableBusy = true) :
    s.busRead r.offset = s.regValue r := by
  simp [State.busRead_reg, hr, h]

theorem State.ctrlWord_eq (s : State) : s.ctrlWord = if s.irqEn then 1 else 0 := by
  unfold State.ctrlWord
  cases s.irqEn <;> rfl

/-- The bits of the STATUS word (R20). -/
theorem State.statusWord_bits (s : State) :
    s.statusWord.getLsbD 0 = s.busy ∧ s.statusWord.getLsbD 1 = s.done ∧ s.statusWord.getLsbD 2 = s.err ∧
      s.statusWord.getLsbD 3 = s.cmdDropped ∧ s.statusWord.extractLsb' 4 28 = 0 := by
  unfold State.statusWord
  generalize s.busy = b, s.done = d, s.err = e, s.cmdDropped = c
  revert b d e c
  decide

/-! ### Writes -/

theorem State.busWrite_reg {s : State} (hr : s.rst = false) (r : RegName) (v : Word) :
    s.busWrite r.offset v = s.writeReg v r := by
  rw [State.busWrite_low hr, targetOf_offset]; rfl

/-- A register whose write changes nothing with RST low is read-only in every state. -/
theorem State.busWrite_reg_readOnly {s : State} {r : RegName} {v : Word} (h : s.writeReg v r = s) :
    s.busWrite r.offset v = s := by
  cases hr : s.rst with
  | false => rw [State.busWrite_reg hr, h]
  | true => exact State.busWrite_high hr _ _

/-- A write to an idle block's operand register stores what `writeReg` would (R46). -/
theorem State.busWrite_reg_idle {s t : State} {r : RegName} {v : Word} (hr : s.rst = false) (hi : s.engine = .idle)
    (h : s.writeReg v r = s.whenIdle t) : s.busWrite r.offset v = t := by
  rw [State.busWrite_reg hr, h, State.whenIdle_of_idle hi]

/-- Bit 1 of a CTRL write is the soft reset, whatever the other bits (R18). -/
theorem State.writeCtrl_softReset {v : Word} (hv : v.getLsbD 1 = true) (s : State) : s.writeCtrl v = s.softReset :=
  if_pos hv

theorem State.writeCtrl_irqEn {v : Word} (hv : v.getLsbD 1 = false) (s : State) :
    s.writeCtrl v = { s with irqEn := v.getLsbD 0 } :=
  if_neg (ne_true_of_eq_false hv)

theorem State.writeCmd_idle {s : State} (hb : s.busy = false) (v : Word) : s.writeCmd v = s.startCommand v :=
  if_neg (ne_true_of_eq_false hb)

theorem State.writeCmd_busy {s : State} (hb : s.busy = true) (v : Word) : s.writeCmd v = s.dropCommand :=
  if_pos hb

/-- The W1C write, bit by bit as R20 words it. -/
theorem State.w1cStatus_eq (v : Word) (s : State) :
    s.w1cStatus v = { s with done := if v.getLsbD 1 then false else s.done,
                             err := if v.getLsbD 2 then false else s.err,
                             cmdDropped := if v.getLsbD 3 then false else s.cmdDropped } := by
  have and_not (b c : Bool) : (b && !c) = if c then false else b := by cases c <;> simp
  simp only [State.w1cStatus, and_not]

/-! ### Everything a host write can do -/

/-- From `s` to `t` nothing changed but IRQ_EN, operand registers and memories: not the engine, not STATUS, not the
error record, not a result register. -/
def State.OperandsOnly (s t : State) : Prop :=
  t = { s with irqEn := t.irqEn, width := t.width, height := t.height, msgLen := t.msgLen, bitCount := t.bitCount,
               totalBits := t.totalBits, fileSize := t.fileSize, msg := t.msg, bit := t.bit, pix := t.pix }

theorem State.OperandsOnly.refl (s : State) : s.OperandsOnly s := rfl

theorem State.OperandsOnly.whenIdle {s t : State} (h : s.OperandsOnly t) : s.OperandsOnly (s.whenIdle t) := by
  cases hb : s.busy with
  | false => rwa [State.whenIdle_of_idle ((State.not_busy_eq s).mp hb)]
  | true => rw [State.whenIdle_of_busy hb]; exact .refl s

/-- A write to a register is a write of data, or one of the four writes that act on the life of a command: the soft
reset (R18), a command's start (R19), a dropped command (R19) and the W1C write (R20). -/
theorem State.writeReg_cases (s : State) (v : Word) (r : RegName) :
    s.OperandsOnly (s.writeReg v r) ∨
    (r = .ctrl ∧ v.getLsbD 1 = true ∧ s.writeReg v r = s.softReset) ∨
    (r = .cmd ∧ s.busy = false ∧ s.writeReg v r = s.startCommand v) ∨
    (r = .cmd ∧ s.busy = true ∧ s.writeReg v r = s.dropCommand) ∨
    (r = .status ∧ s.writeReg v r = s.w1cStatus v) := by
  cases r with
  | ctrl =>
    cases hv : v.getLsbD 1 with
    | true => exact .inr (.inl ⟨rfl, rfl, State.writeCtrl_softReset hv s⟩)
    | false => exact .inl (by rw [State.writeReg, State.writeCtrl_irqEn hv]; rfl)
  | cmd =>
    cases hb : s.busy with
    | true => exact .inr (.inr (.inr (.inl ⟨rfl, rfl, State.writeCmd_busy hb v⟩)))
    | false => exact .inr (.inr (.inl ⟨rfl, rfl, State.writeCmd_idle hb v⟩))
  | status => exact .inr (.inr (.inr (.inr ⟨rfl, rfl⟩)))
  | width | height | msgLen | bitCount | totalBits | fileSize => exact .inl (State.OperandsOnly.whenIdle rfl)
  | id | errCode | errInfo | outLen | embedCount | paramMsg | paramPix => exact .inl (.refl s)

theorem State.writeTarget_window (s : State) (v : Word) {g : Target} (hg : ∀ r, g ≠ .reg r) :
    s.OperandsOnly (s.writeTarget v g) := by
  cases g with
  | reg r => exact absurd rfl (hg r)
  | msg j => exact State.OperandsOnly.whenIdle rfl
  | bit j => exact State.OperandsOnly.whenIdle rfl
  | pix i =>
    refine State.OperandsOnly.whenIdle ?_
    split
    · rfl
    · exact .refl s
  | reserved => exact .refl s

/-- Everything an aligned host write can do, by the offset it names. -/
theorem State.busWrite_cases (s : State) {off : Nat} (ha : off % 4 = 0) (v : Word) :
    s.OperandsOnly (s.busWrite off v) ∨
    (off = RegName.ctrl.offset ∧ v.getLsbD 1 = true ∧ s.busWrite off v = s.softReset) ∨
    (off = RegName.cmd.offset ∧ s.busy = false ∧ s.busWrite off v = s.startCommand v) ∨
    (off = RegName.cmd.offset ∧ s.busy = true ∧ s.busWrite off v = s.dropCommand) ∨
    (off = RegName.status.offset ∧ s.busWrite off v = s.w1cStatus v) := by
  cases hr : s.rst with
  | true => rw [State.busWrite_high hr]; exact .inl (.refl s)
  | false =>
    by_cases hg : ∃ r, targetOf off = .reg r
    · obtain ⟨r, hg⟩ := hg
      obtain rfl := targetOf_eq_reg ha hg
      rw [State.busWrite_reg hr]
      rcases s.writeReg_cases v r with h | ⟨rfl, hv, h⟩ | ⟨rfl, hb, h⟩ | ⟨rfl, hb, h⟩ | ⟨rfl, h⟩
      · exact .inl h
      · exact .inr (.inl ⟨rfl, hv, h⟩)
      · exact .inr (.inr (.inl ⟨rfl, hb, h⟩))
      · exact .inr (.inr (.inr (.inl ⟨rfl, hb, h⟩)))
      · exact .inr (.inr (.inr (.inr ⟨rfl, h⟩)))
    · rw [State.busWrite_low hr]
      exact .inl (s.writeTarget_window v (not_exists.mp hg))

@[simp] theorem State.softReset_cfg (s : State) : s.softReset.cfg = s.cfg := by rw [State.softReset_frame]; rfl

@[simp] theorem State.softReset_irqEn (s : State) : s.softReset.irqEn = false := by rw [State.softReset_frame]; rfl

theorem State.busWrite_cfg (s : State) {off : Nat} (ha : off % 4 = 0) (v : Word) : (s.busWrite off v).cfg = s.cfg := by
  rcases s.busWrite_cases ha v with hw | ⟨-, -, hw⟩ | ⟨-, -, hw⟩ | ⟨-, -, hw⟩ | ⟨-, hw⟩ <;> rw [hw]
  · exact s.softReset_cfg
  all_goals rfl

/-- The host writes that clear CMD_DROPPED: bit 3 of STATUS (W1C, R20) and bit 1 of CTRL (soft reset, R92). A command's
start is not one of them (R75). -/
theorem State.busWrite_cmdDropped (s : State) {off : Nat} (ha : off % 4 = 0) (v : Word) (hs : s.cmdDropped = true)
    (ht : (s.busWrite off v).cmdDropped = false) :
    (off = RegName.status.offset ∧ v.getLsbD 3 = true) ∨ (off = RegName.ctrl.offset ∧ v.getLsbD 1 = true) := by
  rcases s.busWrite_cases ha v with hw | ⟨hoff, hv, -⟩ | ⟨-, -, hw⟩ | ⟨-, -, hw⟩ | ⟨hoff, hw⟩
  · rw [hw] at ht; exact absurd (hs.symm.trans ht) (by decide)
  · exact .inr ⟨hoff, hv⟩
  · rw [hw] at ht; exact absurd (hs.symm.trans ht) (by decide)
  · rw [hw] at ht; cases ht
  · rw [hw] at ht
    exact .inl ⟨hoff, by simpa [State.w1cStatus, hs] using ht⟩

/-! ### Everything a step can do -/

/-- A running command ended from `s` to `t`: successfully (R76) or with an error latched (R82), after steps that
`StepsTo` describes. RangeError and NotFoundError end no command (R81). -/
def State.CommandEnd (s t : State) : Prop :=
  ∃ u, s.StepsTo u ∧
    (t = u.complete ∨ ∃ e info, e ≠ .rangeError ∧ e ≠ .notFoundError ∧ t = u.latchError e info)

theorem exec_commandEnd {i : Instr} {s t : State} (h : exec i s = .next t) : s.CommandEnd t := by
  obtain ⟨u, hu, ⟨-, ht⟩ | ⟨e, info, he, ht⟩⟩ := exec_next h
  · exact ⟨u, hu, .inl ht⟩
  · refine ⟨u, hu, .inr ⟨e, info, ?_, ?_, ht⟩⟩ <;>
      rcases commandBody_raised_code he with rfl | rfl | rfl | rfl <;> decide

theorem State.commandEnd_illegal (s : State) (w : Word) : s.CommandEnd (s.latchError .illegalCommand w) :=
  ⟨s, .refl s, .inr ⟨.illegalCommand, w, by decide, by decide, rfl⟩⟩

theorem State.CommandEnd.cfg_eq {s t : State} (h : s.CommandEnd t) : t.cfg = s.cfg := by
  obtain ⟨u, hu, rfl | ⟨e, info, -, -, rfl⟩⟩ := h <;> exact hu.cfg_eq

theorem State.CommandEnd.cmdDropped_eq {s t : State} (h : s.CommandEnd t) : t.cmdDropped = s.cmdDropped := by
  obtain ⟨u, hu, hend⟩ := h
  have hkeep : u.cmdDropped = s.cmdDropped := by rw [hu.frame]
  rcases hend with rfl | ⟨e, info, -, -, rfl⟩ <;> exact hkeep

theorem base_le_of_offsetOf {c : Config} {addr off : Nat} (h : offsetOf c addr = some off) : c.base ≤ addr := by
  unfold offsetOf at h
  split at h
  · rename_i hrange; exact hrange.1
  · cases h

/-- From `s` to `t` nothing of the block changed, only the script, the record and the turns. -/
def State.HostOnly (s t : State) : Prop := t = { s with inputs := t.inputs, reads := t.reads, turns := t.turns }

/-- Everything a step can do to the block: nothing, the end of its command, an aligned host write, or a power-on reset
at an edge of RST. -/
theorem step_cases {s t : State} (h : step s = .next t) :
    s.HostOnly t ∨
    (s.rst = false ∧ s.busy = true ∧ s.popTurn.CommandEnd t) ∨
    (∃ addr v rest, s.inputs = .write .word addr v :: rest ∧ s.cfg.base ≤ addr ∧ (addr - s.cfg.base) % 4 = 0 ∧
      t = State.busWrite { s.popTurn with inputs := rest } (addr - s.cfg.base) v) ∨
    (∃ level rest, s.inputs = .rst level :: rest ∧ s.rst = !level ∧
      t = { State.powerOn { s.popTurn with inputs := rest } with rst := level }) := by
  rcases step_next h with ⟨-, h⟩ | ⟨-, h⟩
  · rcases engineTurn_next h with ⟨rfl, -⟩ | ⟨w, i, hr, he, -, hx⟩ | ⟨w, _, hr, he, -, rfl⟩
    · exact .inl rfl
    · exact .inr (.inl ⟨hr, (State.busy_eq s).mpr ⟨w, he⟩, exec_commandEnd hx⟩)
    · exact .inr (.inl ⟨hr, (State.busy_eq s).mpr ⟨w, he⟩, State.commandEnd_illegal _ w⟩)
  · rcases hostTurn_next h with
      ⟨-, rfl⟩ | ⟨_, _, -, -, -, rfl⟩ | ⟨addr, v, rest, hi, ho, ha, rfl⟩ | ⟨rest, -, rfl⟩ | ⟨level, rest, hi, rfl⟩
    · exact .inl rfl
    · exact .inl rfl
    · exact .inr (.inr (.inl ⟨addr, v, rest, hi, base_le_of_offsetOf ho, ha, rfl⟩))
    · refine .inl ?_
      unfold waitStep
      dsimp only
      split <;> rfl
    · unfold State.setRst
      split
      · exact .inl rfl
      · rename_i hne
        exact .inr (.inr (.inr ⟨level, rest, hi, Bool.eq_not_of_ne hne, rfl⟩))

/-! ### The invariant of the block, operation by operation -/

theorem State.statusOk_iff {s : State} :
    s.statusOk = true ↔ ¬(s.done = true ∧ s.err = true) ∧ (s.busy = true → s.done = false ∧ s.err = false) := by
  unfold State.statusOk
  cases s.done <;> cases s.err <;> cases s.busy <;> decide

theorem State.errorOk_iff {s : State} :
    s.errorOk = true ↔ s.errCode ∈ [0, 1, 4, 5, 6, 7] ∧ (s.busy = true ∨ s.done = true → s.errCode = 0) ∧
      (s.err = true → s.errCode ≠ 0) ∧ (s.errCode = 0 → s.errInfo = 0) := by
  simp [State.errorOk, or_assoc, and_assoc, imp_iff_not_or]

theorem State.HostOnly.inv {s t : State} (h : s.HostOnly t) (hs : s.Inv) : t.Inv := by rw [h]; exact hs

theorem State.OperandsOnly.inv {s t : State} (h : s.OperandsOnly t) (ht : t.memOk = true) (hs : s.Inv) : t.Inv := by
  obtain ⟨hcfg, -, hstatus, herror, hcounts⟩ := hs
  refine ⟨?_, ht, ?_, ?_, ?_⟩ <;> rw [h] <;> assumption

theorem State.StepsTo.inv {s t : State} (h : s.StepsTo t) (hs : s.Inv) : t.Inv := by
  obtain ⟨hcfg, hmem, hstatus, herror, hcounts⟩ := hs
  refine ⟨?_, h.memOk hmem, ?_, ?_, h.countsOk hcounts⟩ <;> rw [h.frame] <;> assumption

/-- While a command runs STATUS and the error record are clear (R20, R75). -/
theorem State.Inv.clear_of_busy {s : State} (h : s.Inv) (hb : s.busy = true) :
    s.done = false ∧ s.err = false ∧ s.errCode = 0 ∧ s.errInfo = 0 := by
  obtain ⟨-, -, hstatus, herror, -⟩ := h
  obtain ⟨-, hflags⟩ := State.statusOk_iff.mp hstatus
  obtain ⟨-, hcode, -, hinfo⟩ := State.errorOk_iff.mp herror
  exact ⟨(hflags hb).1, (hflags hb).2, hcode (.inl hb), hinfo (hcode (.inl hb))⟩

theorem State.inv_startCommand {s : State} (h : s.Inv) (w : Word) : (s.startCommand w).Inv := by
  obtain ⟨hcfg, hmem, -, -, hcounts⟩ := h
  exact ⟨hcfg, hmem, State.statusOk_iff.mpr (by simp), State.errorOk_iff.mpr (by simp), hcounts⟩

theorem State.inv_complete {s : State} (h : s.Inv) (hb : s.busy = true) : s.complete.Inv := by
  obtain ⟨-, herr, hcode, hinfo⟩ := h.clear_of_busy hb
  obtain ⟨hcfg, hmem, -, -, hcounts⟩ := h
  exact ⟨hcfg, hmem, State.statusOk_iff.mpr (by simp [herr]), State.errorOk_iff.mpr (by simp [herr, hcode, hinfo]),
    hcounts⟩

theorem State.inv_latchError {s : State} (h : s.Inv) (hb : s.busy = true) {e : CmdError} (h2 : e ≠ .rangeError)
    (h3 : e ≠ .notFoundError) (info : Word) : (s.latchError e info).Inv := by
  obtain ⟨hdone, -⟩ := h.clear_of_busy hb
  obtain ⟨hcfg, hmem, -, -, hcounts⟩ := h
  have hcode : e.code ∈ [0, 1, 4, 5, 6, 7] ∧ e.code ≠ 0 := by
    cases e with
    | rangeError => exact absurd rfl h2
    | notFoundError => exact absurd rfl h3
    | encodingError | capacityError | formatError | configError | illegalCommand => decide
  refine ⟨hcfg, hmem, State.statusOk_iff.mpr (by simp [hdone]), State.errorOk_iff.mpr ⟨hcode.1, ?_, ?_, ?_⟩, hcounts⟩
  · simp [hdone]
  · exact fun _ => hcode.2
  · exact fun h0 => absurd h0 hcode.2

/-- The W1C write only takes flags away, and a taken flag asks for less. -/
theorem State.inv_w1cStatus {s : State} (h : s.Inv) (v : Word) : (s.w1cStatus v).Inv := by
  obtain ⟨hcfg, hmem, hstatus, herror, hcounts⟩ := h
  have hbusy : (s.w1cStatus v).busy = s.busy := rfl
  have hdone : (s.w1cStatus v).done = true → s.done = true := fun h => (Bool.and_eq_true_iff.mp h).1
  have herr : (s.w1cStatus v).err = true → s.err = true := fun h => (Bool.and_eq_true_iff.mp h).1
  obtain ⟨hboth, hflags⟩ := State.statusOk_iff.mp hstatus
  obtain ⟨hlegal, hclear, hset, hinfo⟩ := State.errorOk_iff.mp herror
  refine ⟨hcfg, hmem, State.statusOk_iff.mpr ⟨?_, fun hb => ?_⟩, State.errorOk_iff.mpr ⟨hlegal, ?_, ?_, hinfo⟩, hcounts⟩
  · exact fun hde => hboth ⟨hdone hde.1, herr hde.2⟩
  · simp [State.w1cStatus, hflags hb]
  · exact fun hbd => hclear (hbd.imp id hdone)
  · exact fun he => hset (herr he)

/-- The register part of a reset meets the invariant whatever the registers held. -/
theorem State.inv_resetRegs {s : State} (hcfg : s.cfg.wf = true) (hmem : s.memOk = true) : s.resetRegs.Inv :=
  ⟨hcfg, hmem, State.statusOk_iff.mpr (by simp), State.errorOk_iff.mpr (by simp), State.countsOk_iff.mpr (by simp)⟩

theorem State.inv_softReset {s : State} (h : s.Inv) : s.softReset.Inv := by
  obtain ⟨hcfg, hmem, -⟩ := h
  unfold State.softReset
  split
  · exact State.inv_resetRegs hcfg hmem
  · exact State.inv_resetRegs hcfg (State.abortMemories_memOk _ hmem)

theorem State.inv_powerOn {s : State} (h : s.Inv) : s.powerOn.Inv :=
  State.inv_resetRegs (s := { s with msg := [], bit := [], pix := [], powerOns := s.powerOns + 1 }) h.1 rfl

theorem State.inv_busWrite {s : State} (h : s.Inv) {off : Nat} (ha : off % 4 = 0) (v : Word) :
    (s.busWrite off v).Inv := by
  rcases s.busWrite_cases ha v with hw | ⟨-, -, hw⟩ | ⟨-, -, hw⟩ | ⟨-, -, hw⟩ | ⟨-, hw⟩
  · exact hw.inv (State.busWrite_memOk h.2.1 off v) h
  · rw [hw]; exact State.inv_softReset h
  · rw [hw]; exact State.inv_startCommand h v
  · rw [hw]; exact h
  · rw [hw]; exact State.inv_w1cStatus h v

theorem State.CommandEnd.inv {s t : State} (h : s.CommandEnd t) (hb : s.busy = true) (hs : s.Inv) : t.Inv := by
  obtain ⟨u, hu, hend⟩ := h
  have hub : u.busy = true := by rw [hu.frame]; exact hb
  rcases hend with rfl | ⟨e, info, h2, h3, rfl⟩
  · exact State.inv_complete (hu.inv hs) hub
  · exact State.inv_latchError (hu.inv hs) hub h2 h3 info

end Sys2Proof.Machine

/-! ### The obligations -/

section

open Sys2Proof Sys2Proof.Machine

/-- Settles O53: each of the four things a step can do keeps the invariant. -/
theorem everyStepKeepsTheInvariant : Obligations.EveryStepKeepsTheInvariant := by
  unfold Obligations.EveryStepKeepsTheInvariant
  intro s t hs h
  rcases step_cases h with hsame | ⟨-, hb, hend⟩ | ⟨addr, v, rest, -, -, ha, rfl⟩ | ⟨level, rest, -, -, rfl⟩
  · exact hsame.inv hs
  · exact hend.inv hb hs
  · exact State.inv_busWrite (s := { s.popTurn with inputs := rest }) hs ha v
  · exact State.inv_powerOn (s := { s.popTurn with inputs := rest }) hs

/-- Settles O30: the three registers read their values in every state with RST low and are read-only, and each of the
four things a step can do keeps the parameters. -/
theorem hardwiredRegisters : Obligations.HardwiredRegisters := by
  unfold Obligations.HardwiredRegisters
  refine ⟨fun s hr => ⟨?_, ?_, ?_⟩, fun s v => ⟨?_, ?_, ?_⟩, fun s t h => ?_⟩
  · exact State.busRead_reg_readable hr (r := .id) rfl
  · exact State.busRead_reg_readable hr (r := .paramMsg) rfl
  · exact State.busRead_reg_readable hr (r := .paramPix) rfl
  · exact State.busWrite_reg_readOnly (r := .id) rfl
  · exact State.busWrite_reg_readOnly (r := .paramMsg) rfl
  · exact State.busWrite_reg_readOnly (r := .paramPix) rfl
  · rcases step_cases h with hsame | ⟨-, -, hend⟩ | ⟨addr, v, rest, -, -, ha, rfl⟩ | ⟨level, rest, -, -, rfl⟩
    · rw [hsame]
    · exact hend.cfg_eq
    · exact State.busWrite_cfg _ ha v
    · rfl

/-- Settles O35: of the four things a step can do, the end of a command keeps CMD_DROPPED, and a host write clears it
only as a soft reset or a W1C write. -/
theorem cmdDroppedClearedOnlyByHost : Obligations.CmdDroppedClearedOnlyByHost := by
  unfold Obligations.CmdDroppedClearedOnlyByHost
  intro s t h hs ht
  rcases step_cases h with hsame | ⟨-, -, hend⟩ | ⟨addr, v, rest, hi, hbase, ha, rfl⟩ | ⟨level, rest, hi, hedge, -⟩
  · have hkeep : t.cmdDropped = s.cmdDropped := by rw [hsame]
    exact absurd (hkeep.trans hs) (by simp [ht])
  · exact absurd (hend.cmdDropped_eq.trans hs) (by simp [ht])
  · have hwhere := State.busWrite_cmdDropped { s.popTurn with inputs := rest } ha v hs ht
    exact .inl ⟨addr, v, rest, hi, hbase, hwhere⟩
  · exact .inr ⟨level, rest, hi, hedge⟩

/-- Settles O7: CMD has no value to read, and its write is a start or a dropped command by BUSY. -/
theorem cmdRegister : Obligations.CmdRegister := by
  unfold Obligations.CmdRegister
  refine fun s v => ⟨?_, fun hr hi => ?_, fun w hr hw => ?_⟩
  · have hread := s.busRead_reg .cmd
    simpa [RegName.offset, State.regValue] using hread
  · have hstart := (State.busWrite_reg hr .cmd v).trans (State.writeCmd_idle ((State.not_busy_eq s).mpr hi) v)
    exact congrArg State.engine hstart
  · exact (State.busWrite_reg hr .cmd v).trans (State.writeCmd_busy ((State.busy_eq s).mpr ⟨w, hw⟩) v)

/-- Settles O29: the state after reset is one closed term, and every register of it is read. -/
theorem resetRegisterValues : Obligations.ResetRegisterValues := by
  unfold Obligations.ResetRegisterValues
  decide

/-- Settles O31: the two kinds of write, by bit 1 of the word. -/
theorem ctrlRegister : Obligations.CtrlRegister := by
  unfold Obligations.CtrlRegister
  intro s v hr
  have hwrite : s.busWrite 0x004 v = s.writeCtrl v := State.busWrite_reg hr .ctrl v
  refine ⟨?_, fun hv => ?_, fun hv => ?_⟩
  · exact (State.busRead_reg_readable hr (r := .ctrl) rfl).trans s.ctrlWord_eq
  · rw [hwrite, State.writeCtrl_irqEn hv]
  · rw [hwrite, State.writeCtrl_softReset hv]
    exact ⟨rfl, s.softReset_irqEn⟩

/-- Settles O32: a read of STATUS returns the STATUS word, whose bits `statusWord_bits` gives. -/
theorem statusRegister : Obligations.StatusRegister := by
  unfold Obligations.StatusRegister
  intro s v hr
  have hread : s.busRead 0x00C = s.statusWord := State.busRead_reg_readable hr (r := .status) rfl
  obtain ⟨hbusy, hdone, herr, hdropped, hreserved⟩ := s.statusWord_bits
  rw [hread]
  exact ⟨hbusy, hdone, herr, hdropped, hreserved, (State.busWrite_reg hr .status v).trans (s.w1cStatus_eq v)⟩

/-- Settles O33: with the block idle no access to an operand register is gated. -/
theorem operandRegisters : Obligations.OperandRegisters := by
  unfold Obligations.OperandRegisters
  intro s v hr hi
  have hlow : v.setWidth 16 = v.extractLsb' 0 16 := BitVec.setWidth_eq_extractLsb' (by decide)
  refine ⟨⟨?_, ?_⟩, ⟨?_, ?_⟩, ⟨?_, ?_⟩, ⟨?_, ?_⟩, ⟨?_, ?_⟩, ⟨?_, ?_⟩⟩
  · rw [hlow]; exact State.busWrite_reg_idle (r := .width) hr hi rfl
  · exact State.busRead_reg_idle hr hi .width
  · rw [hlow]; exact State.busWrite_reg_idle (r := .height) hr hi rfl
  · exact State.busRead_reg_idle hr hi .height
  · exact State.busWrite_reg_idle (r := .msgLen) hr hi rfl
  · exact State.busRead_reg_idle hr hi .msgLen
  · exact State.busWrite_reg_idle (r := .bitCount) hr hi rfl
  · exact State.busRead_reg_idle hr hi .bitCount
  · exact State.busWrite_reg_idle (r := .totalBits) hr hi rfl
  · exact State.busRead_reg_idle hr hi .totalBits
  · exact State.busWrite_reg_idle (r := .fileSize) hr hi rfl
  · exact State.busRead_reg_idle hr hi .fileSize

/-- Settles O34: with the block idle no read is gated, and the four registers are read-only. -/
theorem resultRegistersReadOnly : Obligations.ResultRegistersReadOnly := by
  unfold Obligations.ResultRegistersReadOnly
  refine fun s v => ⟨fun hr hi => ⟨?_, ?_, ?_, ?_⟩, ?_, ?_, ?_, ?_⟩
  · exact State.busRead_reg_idle hr hi .errCode
  · exact State.busRead_reg_idle hr hi .errInfo
  · exact State.busRead_reg_idle hr hi .outLen
  · exact State.busRead_reg_idle hr hi .embedCount
  · exact State.busWrite_reg_readOnly (r := .errCode) rfl
  · exact State.busWrite_reg_readOnly (r := .errInfo) rfl
  · exact State.busWrite_reg_readOnly (r := .outLen) rfl
  · exact State.busWrite_reg_readOnly (r := .embedCount) rfl

/-- Settles O52: the state after reset is a register reset on empty memories with legal parameters. -/
theorem invariantAtReset : Obligations.InvariantAtReset :=
  State.inv_resetRegs (s := State.reset) rfl rfl

end
end

section
/-! SUPPORT. One move of the host or the engine (20_memory R43, R45, R47; log 6): the statement a host's turn performs,
and what an access answers. -/

namespace Sys2Proof.Machine

open Sys2Proof

/-! ### Whose move it is -/

theorem State.mover_of_turn {s : State} {a : Agent} {rest : List Agent} (h : s.turns = a :: rest) : s.mover = a := by
  unfold State.mover; rw [h]

/-- An engine with no command to end, or held by RST, does nothing (R91). -/
theorem engineTurn_of_nothing {s : State} (h : s.engine = .idle ∨ s.rst = true) : engineTurn s = .next s := by
  unfold engineTurn
  rcases h with he | hr
  · rw [he]; exact ite_self _
  · exact if_pos hr

theorem hostTurn_of_end {s : State} (h : s.inputs = []) : hostTurn s = .next s := by
  unfold hostTurn; rw [h]

/-- The host's step performs the first statement of its script. -/
theorem step_statement {s : State} {i : Input} {rest : List Input} (hm : s.mover = .host) (hi : s.inputs = i :: rest) :
    step s = perform i { s.popTurn with inputs := rest } := by
  rw [step_of_host hm, hostTurn, State.popTurn_inputs, hi]

/-! ### What an access answers -/

theorem offsetOf_base_add (c : Config) {off : Nat} (h : off < 0x2000000) : offsetOf c (c.base + off) = some off := by
  unfold offsetOf blockBytes
  rw [if_pos (by omega), Nat.add_sub_cancel_left]

theorem offsetOf_eq_some {c : Config} {addr off : Nat} (h : offsetOf c addr = some off) : off = addr - c.base := by
  unfold offsetOf at h
  split at h
  · exact (Option.some.inj h).symm
  · cases h

/-- An access that goes on had its effect at the offset of its address. -/
theorem access_next {width : AccessWidth} {addr : Nat} {f : Nat → State} {s t : State}
    (h : access width addr f s = .next t) : t = f (addr - s.cfg.base) := by
  unfold access at h
  split at h
  · cases h
  · rename_i off ho
    split at h
    · cases h; rw [offsetOf_eq_some ho]
    · cases h

theorem access_aligned (f : Nat → State) (s : State) {off : Nat} (h : off < 0x2000000) (ha : off % 4 = 0) :
    access .word (s.cfg.base + off) f s = .next (f off) := by
  rw [access, offsetOf_base_add s.cfg h]
  exact if_pos ⟨rfl, ha⟩

/-- An access of another form has no effect and is refused (R43). -/
theorem access_refused (f : Nat → State) (s : State) {width : AccessWidth} {off : Nat} (h : off < 0x2000000)
    (hw : width ≠ .word ∨ off % 4 ≠ 0) : access width (s.cfg.base + off) f s = .refused (.accessForm width off) := by
  rw [access, offsetOf_base_add s.cfg h]
  exact if_neg (not_and_or.mpr hw)

end Sys2Proof.Machine

/-! ### The obligations -/

section

open Sys2Proof Sys2Proof.Machine

/-- Settles O54: the first turn listed decides, or the two defaults; a step is the mover's turn. -/
theorem stepIsTheMoversTurn : Obligations.StepIsTheMoversTurn := by
  unfold Obligations.StepIsTheMoversTurn
  refine fun s => ⟨fun a rest => State.mover_of_turn, State.mover_host_default, fun w ht he hr => ?_, step_of_engine,
    step_of_host, fun hm h => ?_, fun hm h => ?_⟩
  · exact State.mover_engine (.inr ⟨ht, (State.busy_eq s).mpr ⟨w, he⟩, hr⟩)
  · exact (step_of_engine hm).trans (engineTurn_of_nothing (s := s.popTurn) h)
  · exact (step_of_host hm).trans (hostTurn_of_end (s := s.popTurn) h)

/-- Settles O37: a read that goes on did nothing but record the value. -/
theorem readsHaveNoSideEffect : Obligations.ReadsHaveNoSideEffect := by
  unfold Obligations.ReadsHaveNoSideEffect
  intro s t width addr rest hi hm h
  rw [step_statement hm hi] at h
  exact access_next h

/-- Settles O38: reads and writes share one check of the access's form. -/
theorem otherAccessesRefused : Obligations.OtherAccessesRefused := by
  unfold Obligations.OtherAccessesRefused
  refine fun s width off v rest hoff hw hm => ⟨fun hi => ?_, fun hi => ?_⟩
  · rw [step_statement hm hi]; exact access_refused _ { s.popTurn with inputs := rest } hoff hw
  · rw [step_statement hm hi]; exact access_refused _ { s.popTurn with inputs := rest } hoff hw

/-- Settles O39: an aligned access inside the block passes the check of its form. -/
theorem alignedAccessesHaveTheirEffect : Obligations.AlignedAccessesHaveTheirEffect := by
  unfold Obligations.AlignedAccessesHaveTheirEffect
  refine fun s off v rest hoff ha hm => ⟨fun hi => ?_, fun hi => ?_⟩
  · refine ⟨State.recordRead { s.popTurn with inputs := rest } off, ?_, rfl, rfl⟩
    rw [step_statement hm hi]; exact access_aligned _ { s.popTurn with inputs := rest } hoff ha
  · rw [step_statement hm hi]; exact access_aligned _ { s.popTurn with inputs := rest } hoff ha

end
end

section
/-! SUPPORT. One host access to a window by its offset (20_memory R39, R41, R42, R44), with RST and BUSY in whatever
state: a window answers only with RST low and BUSY = 0 (R46, R91). -/

namespace Sys2Proof.Machine

open Sys2Proof

/-! ### Reads -/

/-- A target that is gated while BUSY = 1 (R46) is read with RST low and BUSY = 0 only. -/
theorem State.busRead_eq_ite {s : State} {off : Nat} (hg : (targetOf off).readableBusy = false) :
    s.busRead off = if s.rst || s.busy then 0 else s.targetValue (targetOf off) := by
  unfold State.busRead
  rw [hg]
  cases s.rst <;> cases s.busy <;> rfl

theorem State.busRead_msg (s : State) {j : Nat} (hj : j < 0x4000) :
    s.busRead (0x10000 + 4 * j) = if s.rst || s.busy then 0 else windowWord s.cfg s.msgByte j := by
  rw [State.busRead_eq_ite] <;> rw [targetOf_msg hj] <;> rfl

theorem State.busRead_bit (s : State) {j : Nat} (hj : j < 0x4000) :
    s.busRead (0x20000 + 4 * j) = if s.rst || s.busy then 0 else windowWord s.cfg s.bitByte j := by
  rw [State.busRead_eq_ite] <;> rw [targetOf_bit hj] <;> rfl

theorem State.busRead_pix (s : State) {i : Nat} (hi : i < 0x400000) :
    s.busRead (0x1000000 + 4 * i) =
      if s.rst || s.busy then 0 else if i < s.cfg.pixWords then s.pixWord i else 0 := by
  rw [State.busRead_eq_ite] <;> rw [targetOf_pix hi] <;> rfl

/-- The lane of a byte past the memory reads 0, whether the window is gated or not (R44). -/
theorem lane_ite_windowWord_past (b : Bool) (c : Config) (f : Nat → Byte) (j : Nat) {t : Nat} (ht : t < 4)
    (hpast : c.maxMsgBytes ≤ 4 * j + t) : lane (if b then 0 else windowWord c f j) t = 0 := by
  cases b with
  | true => simp [lane]
  | false => exact (lane_windowWord c f j ht).trans (if_neg (Nat.not_lt.mpr hpast))

/-! ### Writes -/

/-- A write that is gated while BUSY = 1 (R46) takes effect with RST low and BUSY = 0 only. -/
theorem State.busWrite_eq_ite {s t : State} {off : Nat} {v : Word}
    (hw : s.writeTarget v (targetOf off) = s.whenIdle t) : s.busWrite off v = if s.rst || s.busy then s else t := by
  unfold State.busWrite
  rw [hw]
  unfold State.whenIdle
  cases s.rst <;> cases s.busy <;> rfl

theorem State.busWrite_msg (s : State) {j : Nat} (hj : j < 0x4000) (v : Word) :
    s.busWrite (0x10000 + 4 * j) v =
      if s.rst || s.busy then s else { s with msg := [0, 1, 2, 3].foldl (msgLane s.cfg j v) s.msg } :=
  State.busWrite_eq_ite (by rw [targetOf_msg hj]; rfl)

theorem State.busWrite_bit (s : State) {j : Nat} (hj : j < 0x4000) (v : Word) :
    s.busWrite (0x20000 + 4 * j) v =
      if s.rst || s.busy then s else { s with bit := [0, 1, 2, 3].foldl (bitLane s.cfg j v) s.bit } :=
  State.busWrite_eq_ite (by rw [targetOf_bit hj]; rfl)

theorem State.busWrite_pix (s : State) {i : Nat} (hi : i < 0x400000) (v : Word) :
    s.busWrite (0x1000000 + 4 * i) v =
      if s.rst || s.busy then s else if i < s.cfg.pixWords then { s with pix := s.pix.write i v } else s :=
  State.busWrite_eq_ite (by rw [targetOf_pix hi]; rfl)

/-- A MSG window write stores nothing past the memory (R44). -/
theorem State.busWrite_msg_read?_past (s : State) {j k : Nat} (hj : j < 0x4000) (v : Word)
    (hk : s.cfg.maxMsgBytes ≤ k) : (s.busWrite (0x10000 + 4 * j) v).msg.read? k = s.msg.read? k := by
  rw [State.busWrite_msg s hj]
  split
  · rfl
  · rw [msgLanes_read?, if_neg (by omega)]

/-- A BIT window write stores nothing past the memory (R44). -/
theorem State.busWrite_bit_read?_past (s : State) {j k : Nat} (hj : j < 0x4000) (v : Word)
    (hk : s.cfg.maxMsgBytes ≤ k / 8) : (s.busWrite (0x20000 + 4 * j) v).bit.read? k = s.bit.read? k := by
  rw [State.busWrite_bit s hj]
  split
  · rfl
  · rw [bitLanes_read?, if_neg (by omega)]

/-! ### Reserved offsets -/

theorem State.busRead_reserved (s : State) {off : Nat} (h : targetOf off = .reserved) : s.busRead off = 0 := by
  rw [State.busRead_eq_ite (by rw [h]; rfl), h]
  exact ite_self _

theorem State.busWrite_reserved (s : State) {off : Nat} (h : targetOf off = .reserved) (v : Word) :
    s.busWrite off v = s := by
  rw [State.busWrite, h]
  exact ite_self _

/-! ### Bits of a BIT window word -/

/-- Stream bit `i` stands in lane `(i/8) % 4` of its bus word, at bit `7 - i % 8` of the lane (R42). -/
theorem windowWord_bitByte_getLsbD (s : State) {i : Nat} (hi : i < s.cfg.maxBits) :
    (windowWord s.cfg s.bitByte (i / 32)).getLsbD (8 * (i / 8 % 4) + 7 - i % 8) = s.streamBit i := by
  have hin : i / 8 < s.cfg.maxMsgBytes := by unfold Config.maxBits at hi; omega
  have hbyte : 4 * (i / 32) + i / 8 % 4 = i / 8 := by omega
  calc (windowWord s.cfg s.bitByte (i / 32)).getLsbD (8 * (i / 8 % 4) + 7 - i % 8)
      = (lane (windowWord s.cfg s.bitByte (i / 32)) (i / 8 % 4)).getLsbD (7 - i % 8) := by
        rw [← getLsbD_eq_lane _ _ (by omega), Nat.add_sub_assoc (by omega)]
    _ = (s.bitByte (i / 8)).getLsbD (7 - i % 8) := by
        rw [lane_windowWord _ _ _ (by omega), hbyte, if_pos hin]
    _ = s.streamBit i := by rw [bitByte_getLsbD s _ (by omega), Nat.div_add_mod]

end Sys2Proof.Machine

/-! ### The obligations -/

section

open Sys2Proof Sys2Proof.Machine

/-- Settles O40: reserved offsets select nothing; past the memories a window word has no lane to read or to store; in
the last word the lanes past the memory are the ones left out. -/
theorem reservedAndPastTheEndReadZero : Obligations.ReservedAndPastTheEndReadZero := by
  unfold Obligations.ReservedAndPastTheEndReadZero
  refine fun s v => ⟨fun off h => ?_, fun j hj hpast => ⟨?_, ?_, ?_, ?_⟩, fun j t hj ht hpast => ⟨?_, ?_, ?_, ?_⟩,
    fun i hi hpast => ⟨?_, ?_⟩⟩
  · have htarget := targetOf_reserved h
    exact ⟨s.busRead_reserved htarget, s.busWrite_reserved htarget v⟩
  · rw [State.busRead_msg s hj, windowWord_past _ _ hpast, ite_self]
  · rw [State.busWrite_msg s hj, msgLanes_past _ _ _ hpast, ite_self]
  · rw [State.busRead_bit s hj, windowWord_past _ _ hpast, ite_self]
  · rw [State.busWrite_bit s hj, bitLanes_past _ _ _ hpast, ite_self]
  · rw [State.busRead_msg s hj]; exact lane_ite_windowWord_past _ _ _ _ ht hpast
  · rw [State.busRead_bit s hj]; exact lane_ite_windowWord_past _ _ _ _ ht hpast
  · exact s.busWrite_msg_read?_past hj v hpast
  · exact fun n hn => s.busWrite_bit_read?_past hj v (by omega)
  · rw [State.busRead_pix s hi, if_neg (Nat.not_lt.mpr hpast), ite_self]
  · rw [State.busWrite_pix s hi, if_neg (Nat.not_lt.mpr hpast), ite_self]

/-- Settles O41: with the window open, the four lanes of the word are stored and read one by one. -/
theorem msgWindowLittleEndian : Obligations.MsgWindowLittleEndian := by
  unfold Obligations.MsgWindowLittleEndian
  intro s j v hr hi hj
  have hb := (State.not_busy_eq s).mpr hi
  have hwrite : s.busWrite (0x10000 + 4 * j) v = { s with msg := [0, 1, 2, 3].foldl (msgLane s.cfg j v) s.msg } := by
    simp [State.busWrite_msg s hj, hr, hb]
  have hread : s.busRead (0x10000 + 4 * j) = windowWord s.cfg s.msgByte j := by
    simp [State.busRead_msg s hj, hr, hb]
  rw [hwrite, hread]
  refine ⟨rfl, fun t ht hin => ?_, fun k hk => ?_, fun t b ht hin hw => ?_⟩
  · rw [msgLanes_read?, if_pos (by omega), Nat.add_sub_cancel_left]; rfl
  · rw [msgLanes_read?, if_neg (by omega)]
  · refine (lane_windowWord _ _ _ ht).trans ?_
    rw [if_pos hin, State.msgByte, hw]; rfl

/-- Settles O42: with the window open, the lanes of the word hold the bits of BITMEM at the places of R42. -/
theorem bitWindowBitOrder : Obligations.BitWindowBitOrder := by
  unfold Obligations.BitWindowBitOrder
  intro s i v hr he hi hin
  have hb := (State.not_busy_eq s).mpr he
  have hj : i / 32 < 0x4000 := by omega
  have hwrite : s.busWrite (0x20000 + 4 * (i / 32)) v =
      { s with bit := [0, 1, 2, 3].foldl (bitLane s.cfg (i / 32) v) s.bit } := by
    simp [State.busWrite_bit s hj, hr, hb]
  have hread : s.busRead (0x20000 + 4 * (i / 32)) = windowWord s.cfg s.bitByte (i / 32) := by
    simp [State.busRead_bit s hj, hr, hb]
  have hbyte : i / 8 < s.cfg.maxMsgBytes := by unfold Config.maxBits at hin; omega
  rw [hwrite, hread]
  refine ⟨rfl, ?_, fun b hw => ?_, fun k hk => ?_⟩
  · rw [bitLanes_read?, if_pos ⟨rfl, hbyte⟩]
  · rw [windowWord_bitByte_getLsbD s hin, State.streamBit, hw]; rfl
  · rw [bitLanes_read?, if_neg (fun h => hk h.1)]

/-- Settles O43: with the window open, an access to a word inside PIXMEM is one read or write of the memory. -/
theorem pixWindow : Obligations.PixWindow := by
  unfold Obligations.PixWindow
  intro s i v hr he hi hin
  have hb := (State.not_busy_eq s).mpr he
  have hwrite : s.busWrite (0x1000000 + 4 * i) v = { s with pix := s.pix.write i v } := by
    simp [State.busWrite_pix s hi, hr, hb, hin]
  have hread : s.busRead (0x1000000 + 4 * i) = s.pixWord i := by
    simp [State.busRead_pix s hi, hr, hb, hin]
  rw [hwrite, hread]
  refine ⟨rfl, ?_, fun k hk => ?_, fun p hw => ?_⟩
  · rw [Mem.read?_write, if_pos rfl]
  · rw [Mem.read?_write, if_neg (Ne.symm hk)]
  · rw [State.pixWord, hw]; rfl

end
end

section
/-! SUPPORT. What the host can reach while a command runs (20_memory R46), and that a command's end does not depend on
what it can. -/

namespace Sys2Proof.Machine

open Sys2Proof

/-! ### Gated accesses -/

theorem targetOf_ne_reg {off : Nat} (h : 0x40 ≤ off) (r : RegName) : targetOf off ≠ .reg r := by
  unfold targetOf
  by_cases h1 : off < 0x1000
  · rw [if_pos h1, regAt_none (by omega)]; exact nofun
  · rw [if_neg h1]
    repeat' split
    all_goals exact nofun

theorem Target.readableBusy_window {g : Target} (hg : ∀ r, g ≠ .reg r) : g.readableBusy = false := by
  cases g with
  | reg r => exact absurd rfl (hg r)
  | msg | bit | pix | reserved => rfl

/-- While a command runs a write to a window changes nothing. -/
theorem State.writeTarget_busy {s : State} (hb : s.busy = true) (v : Word) {g : Target} (hg : ∀ r, g ≠ .reg r) :
    s.writeTarget v g = s := by
  cases g with
  | reg r => exact absurd rfl (hg r)
  | msg | bit | pix => exact State.whenIdle_of_busy hb _
  | reserved => rfl

/-- While a command runs a write to a register changes nothing, CTRL, CMD and STATUS aside. -/
theorem State.writeReg_busy {s : State} (hb : s.busy = true) (v : Word) {r : RegName}
    (hr : r ≠ .ctrl ∧ r ≠ .cmd ∧ r ≠ .status) : s.writeReg v r = s := by
  obtain ⟨hctrl, hcmd, hstatus⟩ := hr
  cases r with
  | ctrl => exact absurd rfl hctrl
  | cmd => exact absurd rfl hcmd
  | status => exact absurd rfl hstatus
  | width | height | msgLen | bitCount | totalBits | fileSize => exact State.whenIdle_of_busy hb _
  | id | errCode | errInfo | outLen | embedCount | paramMsg | paramPix => rfl

theorem State.busRead_reg_gated {s : State} (hb : s.busy = true) {r : RegName} (h : r.readableBusy = false) :
    s.busRead r.offset = 0 :=
  State.busRead_gated hb (by rw [targetOf_offset]; exact h)

/-! ### The two flags a host can change under a running command -/

/-- IRQ_EN and CMD_DROPPED replaced. -/
def State.withHostFlags (irqEn cmdDropped : Bool) (s : State) : State :=
  { s with irqEn := irqEn, cmdDropped := cmdDropped }

/-- While a command runs an aligned host write that is no soft reset changes IRQ_EN and CMD_DROPPED at most: DONE and
ERR, which a W1C write could clear, are clear (R20). -/
theorem State.busWrite_running {s : State} (hs : s.Inv) (hb : s.busy = true) {off : Nat} (ha : off % 4 = 0) {v : Word}
    (hv : ¬(off = RegName.ctrl.offset ∧ v.getLsbD 1 = true)) : ∃ q d, s.busWrite off v = s.withHostFlags q d := by
  have hsame {t : State} (h : t = s) : ∃ q d, t = s.withHostFlags q d := ⟨s.irqEn, s.cmdDropped, h⟩
  cases hr : s.rst with
  | true => exact hsame (State.busWrite_high hr off v)
  | false =>
    by_cases hg : ∃ r, targetOf off = .reg r
    · obtain ⟨r, hg⟩ := hg
      obtain rfl := targetOf_eq_reg ha hg
      rw [State.busWrite_reg hr]
      by_cases hplain : r ≠ .ctrl ∧ r ≠ .cmd ∧ r ≠ .status
      · exact hsame (State.writeReg_busy hb v hplain)
      · have hcases : r = .ctrl ∨ r = .cmd ∨ r = .status := by tauto
        rcases hcases with rfl | rfl | rfl
        · have hbit : v.getLsbD 1 = false := Bool.eq_false_iff.mpr fun h => hv ⟨rfl, h⟩
          exact ⟨v.getLsbD 0, s.cmdDropped, State.writeCtrl_irqEn hbit s⟩
        · exact ⟨s.irqEn, true, State.writeCmd_busy hb v⟩
        · obtain ⟨hdone, herr, -, -⟩ := hs.clear_of_busy hb
          refine ⟨s.irqEn, s.cmdDropped && !v.getLsbD 3, ?_⟩
          simp [State.writeReg, State.w1cStatus, State.withHostFlags, hdone, herr]
    · rw [State.busWrite_low hr]
      exact hsame (State.writeTarget_busy hb v (not_exists.mp hg))

theorem State.StepsTo.withControl_eq {s u : State} (h : s.StepsTo u) (q d : Bool) :
    u.withControl { s.control with irqEn := q, cmdDropped := d } = u.withHostFlags q d := by
  rw [h.frame]; rfl

/-- A command carries the two flags through: it neither reads nor writes them. -/
theorem commandBody_withHostFlags (r : Reader) (i : Instr) (q d : Bool) (s : State) :
    commandBody r i (s.withHostFlags q d) = (commandBody r i s).mapState (State.withHostFlags q d) := by
  have hk := commandBody_keeps r i s
  have hcontrol : s.withHostFlags q d = s.withControl { s.control with irqEn := q, cmdDropped := d } := rfl
  rw [hcontrol, commandBody_withControl]
  cases hx : commandBody r i s with
  | done u => rw [hx] at hk; exact congrArg StepResult.done (State.StepsTo.withControl_eq hk q d)
  | raised e info u => rw [hx] at hk; exact congrArg (StepResult.raised e info) (State.StepsTo.withControl_eq hk q d)
  | fault f => rfl

theorem exec_withHostFlags_next {i : Instr} {s t : State} (h : exec i s = .next t) (q d : Bool) :
    exec i (s.withHostFlags q d) = .next (t.withHostFlags q d) := by
  rw [exec_eq_finish] at h ⊢
  rw [commandBody_withHostFlags]
  cases hx : commandBody .strict i s with
  | done u => rw [hx] at h; cases h; rfl
  | raised e info u => rw [hx] at h; cases h; rfl
  | fault f => rw [hx] at h; cases h

theorem exec_withHostFlags_fault {i : Instr} {s : State} {f : Fault} (h : exec i s = .fault f) (q d : Bool) :
    exec i (s.withHostFlags q d) = .fault f := by
  rw [exec_eq_finish, StepResult.finish_fault] at h ⊢
  rw [commandBody_withHostFlags, h]; rfl

end Sys2Proof.Machine

/-! ### The obligations -/

section

open Sys2Proof Sys2Proof.Machine

/-- Settles O45: the rows of R46's table, register by register, and everything from 0x40 on as one row. -/
theorem gatingWhileBusy : Obligations.GatingWhileBusy := by
  unfold Obligations.GatingWhileBusy
  intro s w v hr he
  have hb : s.busy = true := (State.busy_eq s).mpr ⟨w, he⟩
  refine ⟨?_, ?_, ?_, ?_, ?_, ?_, fun off h => ?_, ?_, ?_, ?_, ?_⟩
  · exact State.busRead_reg_readable hr (r := .id) rfl
  · exact State.busRead_reg_readable hr (r := .ctrl) rfl
  · exact State.busRead_reg_readable hr (r := .status) rfl
  · exact State.busRead_reg_readable hr (r := .paramMsg) rfl
  · exact State.busRead_reg_readable hr (r := .paramPix) rfl
  · refine (List.forall_mem_map (f := RegName.offset) (l := [.cmd, .errCode, .errInfo, .width, .height, .msgLen,
      .bitCount, .totalBits, .fileSize, .outLen, .embedCount])).mpr fun r hmem => State.busRead_reg_gated hb ?_
    revert r; decide
  · have hwindow := targetOf_ne_reg h
    exact ⟨State.busRead_gated hb (Target.readableBusy_window hwindow),
      (State.busWrite_low hr off v).trans (State.writeTarget_busy hb v hwindow)⟩
  · refine (List.forall_mem_map (f := RegName.offset) (l := [.width, .height, .msgLen, .bitCount, .totalBits,
      .fileSize])).mpr fun r hmem => (State.busWrite_reg hr r v).trans (State.writeReg_busy hb v ?_)
    revert r; decide
  · exact State.busWrite_reg hr .ctrl v
  · exact State.busWrite_reg hr .status v
  · exact (State.busWrite_reg hr .cmd v).trans (State.writeCmd_busy hb v)

/-- Settles O46: the write changes IRQ_EN and CMD_DROPPED at most, which the command carries through to its end. -/
theorem hostCannotDisturbARunningCommand : Obligations.HostCannotDisturbARunningCommand := by
  unfold Obligations.HostCannotDisturbARunningCommand
  intro s w off v hs he ha hv
  obtain ⟨q, d, hw⟩ := State.busWrite_running hs ((State.busy_eq s).mpr ⟨w, he⟩) ha hv
  rw [hw]
  refine ⟨he, fun i t _ h => ?_, fun i f _ h => ?_, fun e hd => ?_⟩
  · exact exec_withHostFlags_next h q d
  · exact exec_withHostFlags_fault h q d
  · rw [endCommand, hd]; rfl

end
end

section
/-! SUPPORT. The frame of every command (20_memory R53): which registers and memories its row of the table lets it
write, in whatever configuration and however it ends. -/

namespace Sys2Proof.Machine

open Sys2Proof

/-! ### Composites, part by part -/

theorem StepResult.done_at {s t : State} (h : (StepResult.done s).At t) : t = s := by
  rcases h with h | ⟨_, _, h⟩ <;> cases h
  rfl

theorem StepResult.raised_at {e : CmdError} {info : Word} {s t : State} (h : (StepResult.raised e info s).At t) :
    t = s := by
  rcases h with h | ⟨_, _, h⟩ <;> cases h
  rfl

/-- A sequence ends in its first part, or in its second part on what the first left. -/
theorem StepResult.andThen_at_parts {x : StepResult} {f : State → StepResult} {t : State} (h : (x.andThen f).At t) :
    x.At t ∨ ∃ u, x.At u ∧ (f u).At t := by
  rcases StepResult.andThen_at h with ⟨e, info, hx⟩ | ⟨u, hu, ht⟩
  · exact .inl (.inr ⟨e, info, hx⟩)
  · exact .inr ⟨u, .inl hu, ht⟩

/-- ENCRYPT ends at its checks with nothing changed, in ENCODE, or in EMBED after ENCODE. -/
theorem encryptStep_at {r : Reader} {s t : State} (h : (encryptStep r s).At t) :
    t = s ∨ (encodeStep r s).At t ∨ ∃ u, (encodeStep r s).At u ∧ (embedStep r u).At t := by
  rcases encryptStep_cases r s with ⟨e, info, hx⟩ | ⟨hL, hG, hC⟩
  · rw [hx] at h
    exact .inl (StepResult.raised_at h)
  · rw [encryptStep_eq hL hG hC] at h
    exact .inr (StepResult.andThen_at_parts h)

/-- DECRYPT ends at its checks with nothing changed, in EXTRACT, or in DECODE after EXTRACT. -/
theorem decryptStep_at {r : Reader} {s t : State} (h : (decryptStep r s).At t) :
    t = s ∨ (extractStep r s.setBudget).At t ∨ ∃ u, (extractStep r s.setBudget).At u ∧ (decodeStep r u).At t := by
  rcases decryptStep_cases r s with ⟨e, info, hx⟩ | ⟨hL, hG⟩
  · rw [hx] at h
    exact .inl (StepResult.raised_at h)
  · rw [decryptStep_eq hL hG] at h
    exact .inr (StepResult.andThen_at_parts h)

/-! ### The frames -/

theorem encodeStep_frame {r : Reader} {s t : State} (h : (encodeStep r s).At t) :
    t = { s with bit := t.bit, bitCount := t.bitCount } := by
  rcases h with h | ⟨e, info, h⟩
  · obtain ⟨-, bs, -, -, -, rfl⟩ := encodeStep_done h; rfl
  · obtain ⟨rfl, -⟩ := encodeStep_raised h; rfl

theorem decodeStep_frame {r : Reader} {s t : State} (h : (decodeStep r s).At t) :
    t = { s with msg := t.msg, outLen := t.outLen } := by
  rcases h with h | ⟨e, info, h⟩
  · obtain ⟨-, -, bytes, -, -, rfl⟩ := decodeStep_done h; rfl
  · obtain ⟨rfl, -⟩ := decodeStep_raised h; rfl

theorem capchkStep_frame {s t : State} (h : (capchkStep s).At t) : t = s := by
  rcases h with h | ⟨e, info, h⟩
  · exact (capchkStep_done h).1
  · exact (capchkStep_raised h).1

theorem embedStep_frame {r : Reader} {s t : State} (h : (embedStep r s).At t) :
    t = { s with pix := t.pix, embedCount := t.embedCount } := by
  rcases h with h | ⟨e, info, h⟩
  · obtain ⟨-, -, m, -, rfl⟩ := embedStep_done h; rfl
  · obtain ⟨rfl, -⟩ := embedStep_raised h; rfl

theorem extractStep_frame {r : Reader} {s t : State} (h : (extractStep r s).At t) :
    t = { s with bit := t.bit, bitCount := t.bitCount } := by
  rcases h with h | ⟨e, info, h⟩
  · obtain ⟨-, -, bs, -, rfl⟩ := extractStep_done h; rfl
  · obtain ⟨rfl, -⟩ := extractStep_raised h; rfl

/-- The state `s` with what the row of a command in R53 lets it write taken from `t`. -/
def State.overwrittenBy (i : Instr) (s t : State) : State :=
  match i with
  | .nop => s
  | .encode => { s with bit := t.bit, bitCount := t.bitCount }
  | .decode => { s with msg := t.msg, outLen := t.outLen }
  | .capchk => s
  | .embed => { s with pix := t.pix, embedCount := t.embedCount }
  | .extract => { s with bit := t.bit, bitCount := t.bitCount }
  | .encrypt => { s with bit := t.bit, bitCount := t.bitCount, pix := t.pix, embedCount := t.embedCount }
  | .decrypt =>
    { s with totalBits := t.totalBits, bit := t.bit, bitCount := t.bitCount, msg := t.msg, outLen := t.outLen }

/-- A command writes nothing but its row of R53. -/
theorem commandBody_frame {r : Reader} {i : Instr} {s t : State} (h : (commandBody r i s).At t) :
    t = s.overwrittenBy i t := by
  cases i with
  | nop => exact StepResult.done_at h
  | encode => exact encodeStep_frame h
  | decode => exact decodeStep_frame h
  | capchk => exact capchkStep_frame h
  | embed => exact embedStep_frame h
  | extract => exact extractStep_frame h
  | encrypt =>
    rcases encryptStep_at h with rfl | h | ⟨u, hu, ht⟩
    · rfl
    · rw [encodeStep_frame h]; rfl
    · rw [embedStep_frame ht, encodeStep_frame hu]; rfl
  | decrypt =>
    rcases decryptStep_at h with rfl | h | ⟨u, hu, ht⟩
    · rfl
    · rw [extractStep_frame h]; rfl
    · rw [decodeStep_frame ht, extractStep_frame hu]; rfl

theorem State.overwrittenBy_msg {i : Instr} (h : i ≠ .decode ∧ i ≠ .decrypt) (s t : State) :
    (s.overwrittenBy i t).msg = s.msg ∧ (s.overwrittenBy i t).outLen = s.outLen := by
  cases i with
  | decode => exact absurd rfl h.1
  | decrypt => exact absurd rfl h.2
  | nop | encode | capchk | embed | extract | encrypt => exact ⟨rfl, rfl⟩

theorem State.overwrittenBy_bit {i : Instr} (h : i ≠ .encode ∧ i ≠ .extract ∧ i ≠ .encrypt ∧ i ≠ .decrypt)
    (s t : State) : (s.overwrittenBy i t).bit = s.bit ∧ (s.overwrittenBy i t).bitCount = s.bitCount := by
  obtain ⟨hencode, hextract, hencrypt, hdecrypt⟩ := h
  cases i with
  | encode => exact absurd rfl hencode
  | extract => exact absurd rfl hextract
  | encrypt => exact absurd rfl hencrypt
  | decrypt => exact absurd rfl hdecrypt
  | nop | decode | capchk | embed => exact ⟨rfl, rfl⟩

theorem State.overwrittenBy_pix {i : Instr} (h : i ≠ .embed ∧ i ≠ .encrypt) (s t : State) :
    (s.overwrittenBy i t).pix = s.pix ∧ (s.overwrittenBy i t).embedCount = s.embedCount := by
  cases i with
  | embed => exact absurd rfl h.1
  | encrypt => exact absurd rfl h.2
  | nop | encode | decode | capchk | extract | decrypt => exact ⟨rfl, rfl⟩

theorem State.overwrittenBy_totalBits {i : Instr} (h : i ≠ .decrypt) (s t : State) :
    (s.overwrittenBy i t).totalBits = s.totalBits := by
  cases i with
  | decrypt => exact absurd rfl h
  | nop | encode | decode | capchk | embed | extract | encrypt => rfl

/-! ### Pixel words outside the grid -/

/-- Every visit of EMBED is of a word inside the grid (R70). -/
theorem embedStep_pix_outside {r : Reader} {s t : State} (h : (embedStep r s).At t) {a : Nat}
    (ha : s.gridW * s.gridH ≤ a) : t.pix.read? a = s.pix.read? a := by
  obtain ⟨-, -, hpix⟩ := embedStep_writes h
  refine hpix a fun n hn e => ?_
  have hcells : s.embedGroups ≤ s.gridW * s.gridH := groups_le_cells _ _ _
  have hlt : pixIndex s.gridW s.gridH n < s.gridW * s.gridH := pixIndex_lt (by omega)
  omega

theorem encryptStep_pix_outside {r : Reader} {s t : State} (h : (encryptStep r s).At t) {a : Nat}
    (ha : s.gridW * s.gridH ≤ a) : t.pix.read? a = s.pix.read? a := by
  rcases encryptStep_at h with rfl | h | ⟨u, hu, ht⟩
  · rfl
  · rw [encodeStep_frame h]
  · have hgrid : u.gridW * u.gridH = s.gridW * s.gridH := by rw [encodeStep_frame hu]; rfl
    rw [embedStep_pix_outside ht (hgrid ▸ ha), encodeStep_frame hu]

/-- No command changes a pixel word outside the grid. -/
theorem commandBody_pix_outside {r : Reader} {i : Instr} {s t : State} (h : (commandBody r i s).At t) {a : Nat}
    (ha : s.gridW * s.gridH ≤ a) : t.pix.read? a = s.pix.read? a := by
  by_cases hi : i ≠ .embed ∧ i ≠ .encrypt
  · rw [commandBody_frame h, (State.overwrittenBy_pix hi s t).1]
  · have hcases : i = .embed ∨ i = .encrypt := by tauto
    rcases hcases with rfl | rfl
    · exact embedStep_pix_outside h ha
    · exact encryptStep_pix_outside h ha

/-- The end of a command changes STATUS and the error record only, on the state its body left. -/
theorem exec_at {i : Instr} {s t : State} (h : exec i s = .next t) :
    ∃ u, s.StepsTo u ∧ (commandBody .strict i s).At u ∧
      t = { u with engine := .idle, done := t.done, err := t.err, errCode := t.errCode, errInfo := t.errInfo } := by
  obtain ⟨u, hu, ⟨hx, rfl⟩ | ⟨e, info, hx, rfl⟩⟩ := exec_next h
  · exact ⟨u, hu, .inl hx, rfl⟩
  · exact ⟨u, hu, .inr ⟨e, info, hx⟩, rfl⟩

end Sys2Proof.Machine

/-! ### The obligations -/

section

open Sys2Proof Sys2Proof.Machine

/-- Settles O17: the body of a command overwrites its row of R53 only, and its end nothing more than the control part. -/
theorem commandsTouchOnlyTheirLocations : Obligations.CommandsTouchOnlyTheirLocations := by
  unfold Obligations.CommandsTouchOnlyTheirLocations
  intro i s t h
  obtain ⟨u, hu, hx, ht⟩ := exec_at h
  have hframe := commandBody_frame hx
  refine ⟨by rw [ht, hu.frame], fun hi => ?_, fun hi => ?_, fun hi => ?_, fun hi => ?_, fun a ha => ?_⟩
  · rw [ht, hframe]; exact State.overwrittenBy_msg hi s u
  · rw [ht, hframe]; exact State.overwrittenBy_bit hi s u
  · rw [ht, hframe]; exact State.overwrittenBy_pix hi s u
  · rw [ht, hframe]; exact State.overwrittenBy_totalBits hi s u
  · rw [ht]; exact commandBody_pix_outside hx ha

end
end

section
/-! SUPPORT. The decoder and the encoder by the two fields of a command word (30_encoding R54 to R57), and the engine's
turn on a word that was just written to CMD (45_orchestration R75). -/

namespace Sys2Proof

/-! ### The two fields of a word -/

theorem mbzField_append_opField (w : Word) : mbzField w ++ opField w = w :=
  BitVec.extractLsb'_append_extractLsb'_eq_extractLsb' rfl |>.trans BitVec.extractLsb'_eq_self

/-- MBZ and OP are all 32 bits of a word (R54). -/
theorem word_eq_iff_fields {w w' : Word} : w = w' ↔ mbzField w = mbzField w' ∧ opField w = opField w' := by
  refine ⟨fun h => h ▸ ⟨rfl, rfl⟩, fun ⟨hmbz, hop⟩ => ?_⟩
  rw [← mbzField_append_opField w, hmbz, hop, mbzField_append_opField]

theorem mbzField_encode (i : Instr) : mbzField (encode i) = 0 := by cases i <;> rfl

/-! ### The decoder -/

theorem decode_of_mbzField_ne_zero {w : Word} (h : mbzField w ≠ 0) : decode w = .error .mbzNonzero := if_pos h

theorem decode_of_mbzField_eq_zero {w : Word} (h : mbzField w = 0) : decode w = decodeOp (opField w) :=
  if_neg (not_not_intro h)

/-- The opcode map of R57, read from an opcode and from a command. -/
theorem decodeOp_eq_ok_iff {op : BitVec 4} {i : Instr} : decodeOp op = .ok i ↔ op = opField (encode i) := by
  cases i <;> (revert op; decide)

theorem decodeOp_of_reserved {op : BitVec 4} (h : 8 ≤ op.toNat) : decodeOp op = .error (.opReserved op) := by
  revert op; decide

/-- Command `i` is read from the words with MBZ zero and the opcode of `i`. -/
theorem decode_eq_ok_iff_fields {w : Word} {i : Instr} :
    decode w = .ok i ↔ mbzField w = 0 ∧ opField w = opField (encode i) := by
  by_cases hmbz : mbzField w = 0
  · rw [decode_of_mbzField_eq_zero hmbz, decodeOp_eq_ok_iff, and_iff_right hmbz]
  · rw [decode_of_mbzField_ne_zero hmbz]
    exact ⟨nofun, fun h => absurd h.1 hmbz⟩

theorem decode_eq_ok_iff {w : Word} {i : Instr} : decode w = .ok i ↔ w = encode i := by
  rw [decode_eq_ok_iff_fields, word_eq_iff_fields, mbzField_encode]

theorem decode_encode (i : Instr) : decode (encode i) = .ok i := decode_eq_ok_iff.mpr rfl

/-- A reserved opcode is refused, MBZ zero or not (R56). -/
theorem decode_of_opField_reserved {w : Word} (h : 8 ≤ (opField w).toNat) : ∃ e, decode w = .error e := by
  by_cases hmbz : mbzField w = 0
  · exact ⟨_, (decode_of_mbzField_eq_zero hmbz).trans (decodeOp_of_reserved h)⟩
  · exact ⟨_, decode_of_mbzField_ne_zero hmbz⟩

/-- R56: the words the decoder refuses. -/
theorem decode_of_illegal {w : Word} (h : mbzField w ≠ 0 ∨ 8 ≤ (opField w).toNat) : ∃ e, decode w = .error e :=
  h.elim (fun hmbz => ⟨_, decode_of_mbzField_ne_zero hmbz⟩) decode_of_opField_reserved

/-! ### The engine's turn after a CMD write -/

namespace Machine

/-- With RST low and BUSY = 0 the write of a word to CMD is the start event (R75). -/
theorem State.busWrite_cmd_idle {s : State} (hr : s.rst = false) (hi : s.engine = .idle) (w : Word) :
    s.busWrite RegName.cmd.offset w = s.startCommand w :=
  (State.busWrite_reg hr .cmd w).trans (State.writeCmd_idle ((State.not_busy_eq s).mpr hi) w)

theorem engineTurn_startCommand {s : State} (hr : s.rst = false) (w : Word) :
    engineTurn (s.startCommand w) = endCommand w (s.startCommand w) := by
  rw [engineTurn, State.startCommand_rst, hr]; rfl

theorem endCommand_of_error {w : Word} {e : DecodeError} (h : decode w = .error e) (s : State) :
    endCommand w s = .next (s.latchError .illegalCommand w) := by
  rw [endCommand, h]

end Machine

end Sys2Proof

/-! ### The obligations -/

section

open Sys2Proof Sys2Proof.Machine

/-- Settles O2: MBZ zero and the opcode of `i` are the two fields of the word of `i`, and of no other word. -/
theorem onlyItsOwnWordSelectsACommand : Obligations.OnlyItsOwnWordSelectsACommand := by
  unfold Obligations.OnlyItsOwnWordSelectsACommand
  exact fun w i => decode_eq_ok_iff

/-- Settles O3: MBZ decides first, then the opcode of each command, and the reserved opcodes are refused. -/
theorem decoderFollowsTheOpcodeMap : Obligations.DecoderFollowsTheOpcodeMap := by
  unfold Obligations.DecoderFollowsTheOpcodeMap
  intro w
  refine ⟨fun hmbz => ⟨_, decode_of_mbzField_ne_zero hmbz⟩, fun hmbz => ?_⟩
  have hcommand (i : Instr) (hop : opField w = opField (encode i)) : decode w = .ok i :=
    decode_eq_ok_iff_fields.mpr ⟨hmbz, hop⟩
  exact ⟨hcommand .nop, hcommand .encode, hcommand .decode, hcommand .capchk, hcommand .embed, hcommand .extract,
    hcommand .encrypt, hcommand .decrypt, decode_of_opField_reserved⟩

/-- Settles O1: the eight words are the encodings of the commands; each of the two illegal words fails one field. -/
theorem commandWordsDecode : Obligations.CommandWordsDecode := by
  unfold Obligations.CommandWordsDecode
  refine ⟨decode_encode .nop, decode_encode .encode, decode_encode .decode, decode_encode .capchk,
    decode_encode .embed, decode_encode .extract, decode_encode .encrypt, decode_encode .decrypt, ?_, ?_⟩
  · exact (decode_of_mbzField_eq_zero (by decide)).trans (decodeOp_of_reserved (by decide))
  · exact decode_of_mbzField_ne_zero (by decide)

/-- Settles O6: the write starts the word, which the decoder refuses, so its end is the error latch. -/
theorem illegalWordEndsWithIllegalCommand : Obligations.IllegalWordEndsWithIllegalCommand := by
  unfold Obligations.IllegalWordEndsWithIllegalCommand
  intro s w hillegal hr hi
  obtain ⟨e, he⟩ := decode_of_illegal hillegal
  have hstart : s.busWrite 0x008 w = s.startCommand w := State.busWrite_cmd_idle hr hi w
  rw [hstart, engineTurn_startCommand hr, endCommand_of_error he]
  rfl

end
end

section
/-! SUPPORT. Host scripts (30_encoding R58, R59): what one WAIT does, and what every statement expands to. -/

namespace Sys2Proof.Machine

open Sys2Proof

/-! ### WAIT -/

/-- A read does not depend on the script, the record or the turns. -/
theorem State.HostOnly.busRead_eq {s t : State} (h : s.HostOnly t) (off : Nat) : t.busRead off = s.busRead off := by
  rw [h]; rfl

/-- One WAIT with the script after it in `s.inputs` (R59). -/
theorem waitStep_eq (s : State) :
    waitStep s = { s with
      inputs := if (s.busRead RegName.status.offset).getLsbD 0 then .wait :: s.inputs else s.inputs
      reads := (RegName.status.offset, s.busRead RegName.status.offset) :: s.reads } := by
  unfold waitStep
  dsimp only
  split <;> rfl

/-! ### Offsets of a `<dst>` (R39, R58) -/

@[simp] theorem Dst.offset_reg (r : RegName) : (Dst.reg r).offset = r.offset := rfl
@[simp] theorem Dst.offset_msg (k : Nat) : (Dst.msg k).offset = 0x10000 + k := rfl
@[simp] theorem Dst.offset_bit (k : Nat) : (Dst.bit k).offset = 0x20000 + k := rfl
@[simp] theorem Dst.offset_pix (i : Nat) : (Dst.pix i).offset = 0x1000000 + 4 * i := rfl
@[simp] theorem Dst.offset_off (o : Nat) : (Dst.off o).offset = o := rfl

/-! ### The accesses of the pseudo-statements, by number and by place -/

/-- Byte `t` of a word of LDMSG is character `4j + t`, or 0 past the text's end. -/
theorem lane_textWord (text : List Byte) (j : Nat) {t : Nat} (ht : t < 4) :
    lane (textWord text j) t = (text[4 * j + t]?).getD 0 := by
  obtain ⟨h0, h1, h2, h3⟩ := lane_ofLanes (text.getD (4 * j) 0) (text.getD (4 * j + 1) 0) (text.getD (4 * j + 2) 0)
    (text.getD (4 * j + 3) 0)
  rw [← List.getD_eq_getElem?_getD]
  exact match t, ht with
    | 0, _ => h0
    | 1, _ => h1
    | 2, _ => h2
    | 3, _ => h3

theorem lt_wordsFor {j n : Nat} (h : 4 * j < n) : j < wordsFor n := by unfold wordsFor; omega

theorem expand_ldmsg_length (c : Config) (text : List Byte) :
    (Stmt.expand c (.ldmsg text)).length = wordsFor text.length + 1 := by
  simp [Stmt.expand]

theorem expand_ldmsg_word (c : Config) {text : List Byte} {j : Nat} (hj : 4 * j < text.length) :
    (Stmt.expand c (.ldmsg text))[j]? = some (wrInput c (.msg (4 * j)) (textWord text j)) := by
  have hword := lt_wordsFor hj
  simp [Stmt.expand, List.getElem?_append_left, hword]

theorem expand_ldmsg_last (c : Config) (text : List Byte) :
    (Stmt.expand c (.ldmsg text))[wordsFor text.length]? =
      some (wrInput c (.reg .msgLen) (BitVec.ofNat 32 text.length)) := by
  simp [Stmt.expand]

theorem expand_ldpix_length (c : Config) (i : Nat) (vs : List Pixel) :
    (Stmt.expand c (.ldpix i vs)).length = vs.length := by
  simp [Stmt.expand]

theorem expand_ldpix_getElem? (c : Config) (i : Nat) {vs : List Pixel} {k : Nat} {v : Pixel} (hv : vs[k]? = some v) :
    (Stmt.expand c (.ldpix i vs))[k]? = some (wrInput c (.pix (i + k)) v) := by
  simp [Stmt.expand, hv]

theorem expand_rdpix_length (c : Config) (i n : Nat) : (Stmt.expand c (.rdpix i n)).length = n := by
  simp [Stmt.expand]

theorem expand_rdpix_getElem? (c : Config) (i : Nat) {n k : Nat} (hk : k < n) :
    (Stmt.expand c (.rdpix i n))[k]? = some (rdInput c (.pix (i + k))) := by
  simp [Stmt.expand, hk]

theorem expand_rdmsg_length (c : Config) (n : Nat) : (Stmt.expand c (.rdmsg n)).length = wordsFor n := by
  simp [Stmt.expand]

theorem expand_rdmsg_getElem? (c : Config) {n j : Nat} (hj : 4 * j < n) :
    (Stmt.expand c (.rdmsg n))[j]? = some (rdInput c (.msg (4 * j))) := by
  have hword := lt_wordsFor hj
  simp [Stmt.expand, hword]

/-! ### The bus contract (R39, R43) -/

/-- An aligned word access inside the block is in the contract, whatever BASE is. -/
theorem accessWf_base_add (c : Config) {off : Nat} (h : off < 0x2000000) (ha : off % 4 = 0) :
    accessWf c .word (c.base + off) = true := by
  rw [accessWf, offsetOf_base_add c h]
  simpa using ha

theorem wrInput_wf (c : Config) {d : Dst} (v : Word) (h : d.offset < 0x2000000) (ha : d.offset % 4 = 0) :
    (wrInput c d v).wf c = true :=
  accessWf_base_add c h ha

theorem rdInput_wf (c : Config) {d : Dst} (h : d.offset < 0x2000000) (ha : d.offset % 4 = 0) :
    (rdInput c d).wf c = true :=
  accessWf_base_add c h ha

theorem wrInput_reg_wf (c : Config) (r : RegName) (v : Word) : (wrInput c (.reg r) v).wf c = true :=
  wrInput_wf c v (by cases r <;> decide) (by cases r <;> decide)

theorem expand_wr_wf (c : Config) {d : Dst} (v : Word) (h : d.offset < 0x2000000) (ha : d.offset % 4 = 0) :
    ∀ x ∈ Stmt.expand c (.wr d v), x.wf c = true :=
  List.forall_mem_singleton.mpr (wrInput_wf c v h ha)

theorem expand_rd_wf (c : Config) {d : Dst} (h : d.offset < 0x2000000) (ha : d.offset % 4 = 0) :
    ∀ x ∈ Stmt.expand c (.rd d), x.wf c = true :=
  List.forall_mem_singleton.mpr (rdInput_wf c h ha)

theorem expand_cmd_wf (c : Config) (i : Instr) : ∀ x ∈ Stmt.expand c (.cmd i), x.wf c = true :=
  List.forall_mem_singleton.mpr (wrInput_reg_wf c .cmd _)

theorem expand_wait_wf (c : Config) : ∀ x ∈ Stmt.expand c .wait, x.wf c = true :=
  List.forall_mem_singleton.mpr rfl

theorem expand_issue_wf (c : Config) (i : Instr) : ∀ x ∈ Stmt.expand c (.issue i), x.wf c = true :=
  List.forall_mem_cons.mpr ⟨wrInput_reg_wf c .cmd _, expand_wait_wf c⟩

theorem expand_clr_wf (c : Config) : ∀ x ∈ Stmt.expand c .clr, x.wf c = true :=
  List.forall_mem_singleton.mpr (wrInput_reg_wf c .status _)

theorem expand_ldmsg_wf (c : Config) {text : List Byte} (h : text.length ≤ 0x10000) :
    ∀ x ∈ Stmt.expand c (.ldmsg text), x.wf c = true := by
  refine List.forall_mem_append.mpr ⟨List.forall_mem_map.mpr fun j hj => ?_, List.forall_mem_singleton.mpr ?_⟩
  · have hlast : j < (text.length + 3) / 4 := List.mem_range.mp hj
    exact wrInput_wf c _ (by rw [Dst.offset_msg]; omega) (by rw [Dst.offset_msg]; omega)
  · exact wrInput_reg_wf c .msgLen _

theorem expand_ldpix_wf (c : Config) {i : Nat} {vs : List Pixel} (h : i + vs.length ≤ 0x400000) :
    ∀ x ∈ Stmt.expand c (.ldpix i vs), x.wf c = true := by
  intro x hx
  obtain ⟨k, hk, rfl⟩ := List.mem_mapIdx.mp hx
  exact wrInput_wf c _ (by rw [Dst.offset_pix]; omega) (by rw [Dst.offset_pix]; omega)

theorem expand_rdpix_wf (c : Config) {i n : Nat} (h : i + n ≤ 0x400000) :
    ∀ x ∈ Stmt.expand c (.rdpix i n), x.wf c = true := by
  refine List.forall_mem_map.mpr fun k hk => ?_
  have hlast : k < n := List.mem_range.mp hk
  exact rdInput_wf c (by rw [Dst.offset_pix]; omega) (by rw [Dst.offset_pix]; omega)

theorem expand_rdmsg_wf (c : Config) {n : Nat} (h : n ≤ 0x10000) :
    ∀ x ∈ Stmt.expand c (.rdmsg n), x.wf c = true := by
  refine List.forall_mem_map.mpr fun j hj => ?_
  have hlast : j < (n + 3) / 4 := List.mem_range.mp hj
  exact rdInput_wf c (by rw [Dst.offset_msg]; omega) (by rw [Dst.offset_msg]; omega)

end Sys2Proof.Machine

/-! ### The obligations -/

section

open Sys2Proof Sys2Proof.Machine

/-- Settles O47: the host's step performs the WAIT, whose read sees the block as it was before the turn. -/
theorem waitPollsStatus : Obligations.WaitPollsStatus := by
  unfold Obligations.WaitPollsStatus
  intro s rest hi hm
  have hread := State.HostOnly.busRead_eq (s := s) (t := { s.popTurn with inputs := rest }) rfl RegName.status.offset
  rw [step_statement hm hi, perform, waitStep_eq, hread]
  rfl

/-- Settles O48: each statement's accesses by number and place, and each of them at an aligned offset of the block. -/
theorem statementsExpandInsideTheContract : Obligations.StatementsExpandInsideTheContract := by
  unfold Obligations.StatementsExpandInsideTheContract
  refine ⟨rfl, fun k => ⟨Dst.offset_msg k, Dst.offset_bit k, Dst.offset_pix k, Dst.offset_off k⟩, fun c =>
    ⟨fun d v => rfl, fun d => rfl, fun i => rfl, rfl, fun i => rfl, rfl, fun text => ⟨?_, fun j hj => ?_, ?_⟩,
      fun i vs => ⟨?_, fun k v => ?_⟩, fun i n => ⟨?_, fun k => ?_⟩, fun n => ⟨?_, fun j => ?_⟩,
      ⟨rfl, fun x p => List.flatMap_cons⟩, fun s p => rfl, fun _ => ⟨fun d v x h ha hx => ?_, fun i x hx => ?_,
        fun x hx => ?_, fun text x h => ?_, fun i vs x h => ?_, fun i n x h => ?_, fun n x h => ?_⟩⟩⟩
  · exact expand_ldmsg_length c text
  · exact ⟨textWord text j, expand_ldmsg_word c hj, fun t => lane_textWord text j⟩
  · exact expand_ldmsg_last c text
  · exact expand_ldpix_length c i vs
  · exact expand_ldpix_getElem? c i
  · exact expand_rdpix_length c i n
  · exact expand_rdpix_getElem? c i
  · exact expand_rdmsg_length c n
  · exact expand_rdmsg_getElem? c
  · exact hx.elim (expand_wr_wf c v h ha x) (expand_rd_wf c h ha x)
  · exact hx.elim (expand_cmd_wf c i x) (expand_issue_wf c i x)
  · exact hx.elim (expand_clr_wf c x) (expand_wait_wf c x)
  · exact expand_ldmsg_wf c h x
  · exact expand_ldpix_wf c h x
  · exact expand_rdpix_wf c h x
  · exact expand_rdmsg_wf c h x

end
end

section
/-! SUPPORT. The channel codec and the pixel lanes (40_channel_codec R60 to R64) bit by bit: the value of a string of eight
bits, the bits of `setlsb` and of `pack`, and the bits `unpack` reads. -/

namespace Sys2Proof.Machine

open Sys2Proof

/-! ### The channel codec -/

/-- The value of a string of eight bits; the sum is below 256, so the byte holds it (R60). -/
theorem fromBinary_toNat (b0 b1 b2 b3 b4 b5 b6 b7 : Bool) :
    (fromBinary [b0, b1, b2, b3, b4, b5, b6, b7]).toNat =
      b0.toNat * 128 + b1.toNat * 64 + b2.toNat * 32 + b3.toNat * 16 + b4.toNat * 8 + b5.toNat * 4 + b6.toNat * 2 +
        b7.toNat := by
  have hsum : (fromBinary [b0, b1, b2, b3, b4, b5, b6, b7]).toNat =
      (b0.toNat * 128 + (b1.toNat * 64 + (b2.toNat * 32 + (b3.toNat * 16 + (b4.toNat * 8 + (b5.toNat * 4 +
        (b6.toNat * 2 + (b7.toNat * 1 + 0)))))))) % 256 := rfl
  have hbit := Bool.toNat_le
  rw [hsum, Nat.mod_eq_of_lt (by linarith [hbit b0, hbit b1, hbit b2, hbit b3, hbit b4, hbit b5, hbit b6, hbit b7])]
  omega

/-! ### `lsb` and `setlsb` -/

/-- `setlsb` replaces bit 0 and keeps every other bit (R62). -/
theorem setlsb_getLsbD (v : Byte) (b : Bool) (i : Nat) : (setlsb v b).getLsbD i = if i = 0 then b else v.getLsbD i := by
  rw [setlsb, BitVec.getLsbD_append]
  cases i with
  | zero => simp
  | succ i =>
    have hpast : 7 ≤ i → v.getLsbD (i + 1) = false := fun h => BitVec.getLsbD_of_ge v (i + 1) (by omega)
    by_cases hi : i < 7
    · simp [hi, Nat.add_comm]
    · simp [hi, hpast (by omega)]

/-- Bit `i` of the mask `0xFE` (R62). -/
theorem byteMask_getLsbD {i : Nat} (hi : i < 8) : (0xFE : Byte).getLsbD i = decide (i ≠ 0) := by
  revert i; decide

/-- Bit `i` of the mask `0xFFFEFEFE` (R63). -/
theorem pixelMask_getLsbD {i : Nat} (hi : i < 32) :
    (0xFFFEFEFE : Pixel).getLsbD i = decide (i ≠ 0 ∧ i ≠ 8 ∧ i ≠ 16) := by
  revert i; decide

/-- A single bit, extended to `w` bits, is bit 0 of the word. -/
theorem ofBool_setWidth_getLsbD (b : Bool) {w i : Nat} (hi : i < w) :
    ((BitVec.ofBool b).setWidth w).getLsbD i = (decide (i = 0) && b) := by
  simp [hi]

/-- A single bit, shifted to place `k`, is bit `k` of the word. -/
theorem ofBool_shiftLeft_getLsbD (b : Bool) (k : Nat) {w i : Nat} (hi : i < w) :
    ((BitVec.ofBool b).setWidth w <<< k).getLsbD i = (decide (i = k) && b) := by
  rw [BitVec.getLsbD_shiftLeft, ofBool_setWidth_getLsbD b (by omega)]
  by_cases hk : i < k
  · simp [hi, hk, hk.ne]
  · have hplace : i - k = 0 ↔ i = k := by omega
    simp only [hi, hk, hplace, decide_true, decide_false, Bool.not_false, Bool.true_and]

theorem setlsb_eq_mask_or (v : Byte) (b : Bool) : setlsb v b = (v &&& 0xFE) ||| (BitVec.ofBool b).setWidth 8 := by
  apply BitVec.eq_of_getLsbD_eq
  intro i hi
  rw [setlsb_getLsbD, BitVec.getLsbD_or, BitVec.getLsbD_and, byteMask_getLsbD hi, ofBool_setWidth_getLsbD b hi]
  by_cases h : i = 0 <;> simp [h]

theorem setlsb_extract_high (v : Byte) (b : Bool) : (setlsb v b).extractLsb' 1 7 = v.extractLsb' 1 7 := by
  apply BitVec.eq_of_getLsbD_eq
  intro i hi
  rw [BitVec.getLsbD_extractLsb', BitVec.getLsbD_extractLsb', setlsb_getLsbD, if_neg (by omega)]

theorem setlsb_lsb (v : Byte) : setlsb v (lsb v) = v := by
  apply BitVec.eq_of_getLsbD_eq
  intro i hi
  rw [setlsb_getLsbD]
  split
  · next h => rw [h, lsb]
  · rfl

/-! ### `pack` and `unpack` -/

theorem lsb_lane (p : Pixel) (t : Nat) : lsb (lane p t) = p.getLsbD (8 * t) := lane_getLsbD p t (by omega)

/-- `pack` replaces bits 0, 8 and 16 and keeps every other bit (R63). -/
theorem pack_getLsbD (p : Pixel) (b0 b1 b2 : Bool) {i : Nat} (hi : i < 32) :
    (pack p b0 b1 b2).getLsbD i =
      if i = 0 then b0 else if i = 8 then b1 else if i = 16 then b2 else p.getLsbD i := by
  rw [pack, ofLanes_getLsbD, setlsb_getLsbD, setlsb_getLsbD, setlsb_getLsbD]
  by_cases h0 : i < 8
  · rw [lane_getLsbD p 0 h0]; grind
  · by_cases h1 : i < 16
    · rw [lane_getLsbD p 1 (by omega)]; grind
    · by_cases h2 : i < 24
      · rw [lane_getLsbD p 2 (by omega)]; grind
      · rw [lane_getLsbD p 3 (by omega)]; grind

theorem pack_lane_alpha (p : Pixel) (b0 b1 b2 : Bool) : lane (pack p b0 b1 b2) 3 = lane p 3 := by
  obtain ⟨-, -, -, h3⟩ := lane_ofLanes (setlsb (lane p 0) b0) (setlsb (lane p 1) b1) (setlsb (lane p 2) b2) (lane p 3)
  exact h3

theorem pack_eq_mask_or (p : Pixel) (b0 b1 b2 : Bool) :
    pack p b0 b1 b2 =
      (p &&& (0xFFFEFEFE : Pixel)) ||| ((BitVec.ofBool b2).setWidth 32 <<< 16) ||| ((BitVec.ofBool b1).setWidth 32 <<< 8) |||
        (BitVec.ofBool b0).setWidth 32 := by
  apply BitVec.eq_of_getLsbD_eq
  intro i hi
  rw [pack_getLsbD p b0 b1 b2 hi, BitVec.getLsbD_or, BitVec.getLsbD_or, BitVec.getLsbD_or, BitVec.getLsbD_and,
    pixelMask_getLsbD hi, ofBool_shiftLeft_getLsbD b2 16 hi, ofBool_shiftLeft_getLsbD b1 8 hi,
    ofBool_setWidth_getLsbD b0 hi]
  by_cases h0 : i = 0
  · simp [h0]
  · by_cases h8 : i = 8
    · simp [h8]
    · by_cases h16 : i = 16 <;> simp [h0, h8, h16]

end Sys2Proof.Machine

/-! ### The obligations -/

section

open Sys2Proof Sys2Proof.Machine

/-- Settles O22: the characters are the bits of the byte, and the weighted sum of eight bits is below 256. -/
theorem channelCodecIsIdentity : Obligations.ChannelCodecIsIdentity := by
  unfold Obligations.ChannelCodecIsIdentity
  exact ⟨fun v => ⟨bitsByte_byteBits v, byteBits_length v, fun k hk => byteBits_getElem? v hk⟩, fromBinary_toNat⟩

/-- Settles O23: every clause is about one bit of `setlsb`, which `setlsb_getLsbD` gives. -/
theorem setlsbChangesBitZeroOnly : Obligations.SetlsbChangesBitZeroOnly := by
  unfold Obligations.SetlsbChangesBitZeroOnly
  exact fun v b => ⟨setlsb_eq_mask_or v b, rfl, setlsb_extract_high v b, lsb_setlsb v b, setlsb_lsb v⟩

/-- Settles O24: the concatenation is the definition; the masked form agrees with it bit by bit; alpha is lane 3. -/
theorem packFormula : Obligations.PackFormula := by
  unfold Obligations.PackFormula
  exact fun p b0 b1 b2 => ⟨rfl, pack_eq_mask_or p b0 b1 b2, pack_lane_alpha p b0 b1 b2⟩

/-- Settles O25: the bits read are bit 0 of the lanes R, G and B, where `pack` wrote them. -/
theorem unpackReadsRedGreenBlue : Obligations.UnpackReadsRedGreenBlue := by
  unfold Obligations.UnpackReadsRedGreenBlue
  intro p b0 b1 b2
  refine ⟨?_, unpack_pack p b0 b1 b2⟩
  rw [unpack, lsb_lane, lsb_lane, lsb_lane]

end
end

section
/-! SUPPORT. ENCODE and DECODE (41_text_converter R65, R66): the end of each of their checks, that they complete when
what they read is there, and what the stream and the message hold after they are done. -/

namespace Sys2Proof.Machine

open Sys2Proof

/-! ### The end of a command from its body -/

theorem exec_of_done {i : Instr} {s u : State} (h : commandBody .strict i s = .done u) :
    exec i s = .next u.complete := by
  rw [exec_eq_finish, h]; rfl

theorem exec_of_raised {i : Instr} {s u : State} {e : CmdError} {info : Word}
    (h : commandBody .strict i s = .raised e info u) : exec i s = .next (u.latchError e info) := by
  rw [exec_eq_finish, h]; rfl

/-! ### A run of writes from index 0 -/

theorem Mem.read?_writeRun_zero {α : Type} (m : Mem α) {vs : List α} {j : Nat} (hj : j < vs.length) :
    (m.writeRun 0 vs).read? j = vs[j]? := by
  rw [Mem.read?_writeRun, if_pos (by omega), Nat.sub_zero]

/-! ### ENCODE (R65) -/

theorem encodeStep_of_tooLong (r : Reader) {s : State} (hL : s.cfg.maxMsgBytes < s.msgLen.toNat) :
    encodeStep r s = .raised .configError infoMsgLen s := if_pos hL

theorem encodeStep_of_nonAscii {r : Reader} {s : State} {i : Nat} (hL : s.msgLen.toNat ≤ s.cfg.maxMsgBytes)
    (hi : i < s.msgLen.toNat) (hbyte : ∃ b, r.msg s.msg i = some b ∧ 128 ≤ b.toNat)
    (hbefore : ∀ k, k < i → ∃ b, r.msg s.msg k = some b ∧ b.toNat < 128) :
    encodeStep r s = .raised .encodingError (BitVec.ofNat 32 i) s := by
  have hscan : scanText (r.msg s.msg) 0 s.msgLen.toNat = .nonAscii i :=
    scanText_nonAscii.mpr ⟨Nat.zero_le i, by omega, hbyte, fun k _ hk => hbefore k hk⟩
  rw [encodeStep, if_neg (Nat.not_lt.mpr hL), hscan]

theorem encodeStep_of_ascii {r : Reader} {s : State} (hL : s.msgLen.toNat ≤ s.cfg.maxMsgBytes)
    (hascii : ∀ i, i < s.msgLen.toNat → ∃ b, r.msg s.msg i = some b ∧ b.toNat < 128) :
    ∃ t, encodeStep r s = .done t := by
  obtain ⟨bs, hl, hbs⟩ := exists_list_of_isSome (f := r.msg s.msg) (n := s.msgLen.toNat) fun i hi => by
    obtain ⟨b, hb, -⟩ := hascii i hi
    rw [hb]; rfl
  refine ⟨_, encodeStep_of_text hL hl hbs fun c hc => ?_⟩
  obtain ⟨i, hi, rfl⟩ := List.mem_iff_getElem.mp hc
  obtain ⟨b, hb, hlt⟩ := hascii i (by omega)
  rw [hbs i (by omega), List.getElem?_eq_getElem hi] at hb
  rwa [Option.some.inj hb]

theorem encodeStep_done_eq {r : Reader} {s t : State} (h : encodeStep r s = .done t) :
    t = { s with bit := t.bit, bitCount := BitVec.ofNat 32 (8 * s.msgLen.toNat) } := by
  obtain ⟨-, bs, -, -, -, rfl⟩ := encodeStep_done h; rfl

/-- The stream holds the bits of each byte, first bit 7. -/
theorem encodeStep_done_bit {r : Reader} {s t : State} (h : encodeStep r s = .done t) {i j : Nat}
    (hi : i < s.msgLen.toNat) (hj : j < 8) :
    t.bit.read? (8 * i + j) = (r.msg s.msg i).map (fun b => b.getLsbD (7 - j)) := by
  obtain ⟨-, bs, hl, hbs, -, rfl⟩ := encodeStep_done h
  have hin : 8 * i + j < (textBits bs).length := by rw [textBits_length]; omega
  rw [Mem.read?_writeRun_zero _ hin, textBits_getElem? bs hj, hbs i hi]

/-! ### DECODE (R66) -/

theorem decodeStep_of_tooLong (r : Reader) {s : State} (hn : s.cfg.maxBits < s.bitCount.toNat) :
    decodeStep r s = .raised .configError infoBitCount s := if_pos hn

theorem decodeStep_of_partialByte (r : Reader) {s : State} (hn : s.bitCount.toNat ≤ s.cfg.maxBits)
    (hmod : s.bitCount.toNat % 8 ≠ 0) : decodeStep r s = .raised .formatError s.bitCount s := by
  rw [decodeStep, if_neg (Nat.not_lt.mpr hn), if_pos hmod]

theorem decodeStep_done_eq {r : Reader} {s t : State} (h : decodeStep r s = .done t) :
    t = { s with msg := t.msg, outLen := BitVec.ofNat 32 (s.bitCount.toNat / 8) } := by
  obtain ⟨-, -, bytes, -, -, rfl⟩ := decodeStep_done h; rfl

/-- Each byte of the message holds its chunk of the stream, first bit in bit 7. -/
theorem decodeStep_done_byte {r : Reader} {s t : State} (h : decodeStep r s = .done t) {k : Nat}
    (hk : k < s.bitCount.toNat / 8) :
    ∃ b, t.msg.read? k = some b ∧ ∀ j, j < 8 → r.bit s.bit (8 * k + j) = some (b.getLsbD (7 - j)) := by
  obtain ⟨-, -, bytes, hl, hbits, rfl⟩ := decodeStep_done h
  have hin : k < bytes.length := by omega
  have hbyte : bytes[k]? = some bytes[k] := List.getElem?_eq_getElem hin
  refine ⟨bytes[k], (Mem.read?_writeRun_zero _ hin).trans hbyte, fun j hj => ?_⟩
  rw [hbits k hk j hj, hbyte]; rfl

end Sys2Proof.Machine

/-! ### The obligations -/

section

open Sys2Proof Sys2Proof.Machine

/-- Settles O10: the length check, the first byte at or above 128, and a text, whose step is done with its bits in the
stream. -/
theorem encodeFollowsItsRule : Obligations.EncodeFollowsItsRule := by
  unfold Obligations.EncodeFollowsItsRule
  refine ⟨decode_encode .encode, fun s => ⟨fun hL => ?_, fun i hL hi hbyte hbefore => ?_, fun hL hascii => ?_⟩⟩
  · exact exec_of_raised (i := .encode) (encodeStep_of_tooLong .strict hL)
  · exact exec_of_raised (i := .encode) (encodeStep_of_nonAscii (r := .strict) hL hi hbyte hbefore)
  · obtain ⟨u, hu⟩ := encodeStep_of_ascii (r := .strict) hL hascii
    obtain ⟨-, -, hframe⟩ := encodeStep_writes (.inl hu)
    exact ⟨u.complete, exec_of_done hu, congrArg State.complete (encodeStep_done_eq hu),
      fun i j hi hj => encodeStep_done_bit hu hi hj, hframe⟩

/-- Settles O11: the two checks, and a stream of written whole bytes, whose step is done with its chunks in the
message. -/
theorem decodeFollowsItsRule : Obligations.DecodeFollowsItsRule := by
  unfold Obligations.DecodeFollowsItsRule
  refine ⟨decode_encode .decode, fun s => ⟨fun hn => ?_, fun hn hmod => ?_, fun hn hmod hwritten => ?_⟩⟩
  · exact exec_of_raised (i := .decode) (decodeStep_of_tooLong .strict hn)
  · exact exec_of_raised (i := .decode) (decodeStep_of_partialByte .strict hn hmod)
  · obtain ⟨u, hu⟩ := decodeStep_of_written (r := .strict) hn hmod
      fun i hi => Option.isSome_iff_exists.mpr (hwritten i hi)
    obtain ⟨-, -, hframe⟩ := decodeStep_writes (.inl hu)
    exact ⟨u.complete, exec_of_done hu, congrArg State.complete (decodeStep_done_eq hu),
      fun k hk => decodeStep_done_byte hu hk, hframe⟩

end
end

section
/-! SUPPORT. CAPCHK (42_capacity_guard R67): the end of its comparison on either side of the bound. -/

namespace Sys2Proof.Machine

open Sys2Proof

theorem capchkStep_of_over {s : State} (hcap : 3 * s.fileSize.toNat ≤ 8 * s.msgLen.toNat) :
    capchkStep s = .raised .capacityError 0 s := if_pos hcap

theorem capchkStep_of_fits {s : State} (hcap : 8 * s.msgLen.toNat < 3 * s.fileSize.toNat) :
    capchkStep s = .done s := if_neg (Nat.not_le.mpr hcap)

end Sys2Proof.Machine

/-! ### The obligations -/

section

open Sys2Proof Sys2Proof.Machine

/-- Settles O12: the two sides of the comparison are the two ends of the step, and neither changes the state before the
end of the command. -/
theorem capchkFollowsItsRule : Obligations.CapchkFollowsItsRule := by
  unfold Obligations.CapchkFollowsItsRule
  refine ⟨decode_encode .capchk, fun s => ⟨fun hover => ?_, fun hfits => ?_⟩⟩
  · exact exec_of_raised (i := .capchk) (capchkStep_of_over hover)
  · exact exec_of_done (i := .capchk) (capchkStep_of_fits hfits)

end
end

section
/-! SUPPORT. The traversal and EMBED (43_traversal_and_embed R70 to R72): the traversal of the transposed grid is its
inverse; the end of each of EMBED's checks; what the visited words hold after EMBED is done; and that EMBED changes
nothing where every visited word already holds its group, from which it is idempotent. -/

namespace Sys2Proof.Machine

open Sys2Proof

/-! ### The traversal (R70) -/

/-- The word `a` of the grid is reached by the visit `(a % W) * H + a / W`: the traversal of the grid with `W` and `H`
exchanged. -/
theorem pixIndex_pixIndex_swap {w h a : Nat} (ha : a < w * h) : pixIndex w h (pixIndex h w a) = a := by
  have hrow : a / w < h := Nat.div_lt_of_lt_mul ha
  have hh : 0 < h := Nat.zero_lt_of_lt hrow
  simp only [pixIndex, row, column]
  rw [Nat.add_comm (a % w * h), Nat.add_mul_mod_self_right, Nat.add_mul_div_right _ _ hh, Nat.mod_eq_of_lt hrow,
    Nat.div_eq_of_lt hrow, Nat.zero_add]
  exact Nat.div_add_mod' a w

/-! ### `pack` (R63) -/

/-- The mask `0xFFFEFEFE` hides all that `pack` changes. -/
theorem pack_and_mask (p : Pixel) (b0 b1 b2 : Bool) :
    pack p b0 b1 b2 &&& (0xFFFEFEFE : Pixel) = p &&& (0xFFFEFEFE : Pixel) := by
  apply BitVec.eq_of_getLsbD_eq
  intro i hi
  rw [BitVec.getLsbD_and, BitVec.getLsbD_and, pack_getLsbD p b0 b1 b2 hi, pixelMask_getLsbD hi]
  by_cases hlsb : i ≠ 0 ∧ i ≠ 8 ∧ i ≠ 16
  · simp [hlsb]
  · simp only [hlsb, decide_false, Bool.and_false]

/-- Packing a word with the bits it already holds changes nothing. -/
theorem pack_own_bits (p : Pixel) : pack p (p.getLsbD 0) (p.getLsbD 8) (p.getLsbD 16) = p := by
  apply BitVec.eq_of_getLsbD_eq
  intro i hi
  rw [pack_getLsbD _ _ _ _ hi]
  split_ifs with h0 h8 h16
  · rw [h0]
  · rw [h8]
  · rw [h16]
  · rfl

/-! ### EMBED: its checks and what it leaves (R71) -/

theorem embedStep_of_gridOver (r : Reader) {s : State} (hg : s.cfg.pixWords < s.gridW * s.gridH) :
    embedStep r s = .raised .configError infoGeometry s := if_pos hg

theorem embedStep_of_tooManyBits (r : Reader) {s : State} (hg : s.gridW * s.gridH ≤ s.cfg.pixWords)
    (hn : s.cfg.maxBits < s.bitCount.toNat) : embedStep r s = .raised .configError infoBitCount s := by
  rw [embedStep, if_neg (Nat.not_lt.mpr hg), if_pos hn]

theorem embedStep_done_eq {r : Reader} {s u : State} (h : embedStep r s = .done u) :
    u = { s with pix := u.pix, embedCount := BitVec.ofNat 32 (3 * s.embedGroups) } := by
  obtain ⟨-, -, m, -, rfl⟩ := embedStep_done h; rfl

/-- The word of each visit is packed with its group. -/
theorem embedStep_done_visit {r : Reader} (hr : r.Lawful) {s u : State} (h : embedStep r s = .done u) {n : Nat}
    (hn : n < s.embedGroups) :
    ∃ b0 b1 b2 p, r.bit s.bit (3 * n) = some b0 ∧ r.bit s.bit (3 * n + 1) = some b1 ∧
      r.bit s.bit (3 * n + 2) = some b2 ∧ r.pix s.pix (pixIndex s.gridW s.gridH n) = some p ∧
      u.pix.read? (pixIndex s.gridW s.gridH n) = some (pack p b0 b1 b2) := by
  obtain ⟨-, -, m, hm, rfl⟩ := embedStep_done h
  have hcells : s.embedGroups ≤ s.gridW * s.gridH := groups_le_cells _ _ _
  exact embedLoop_read?_visit hr.pix_other (by omega) hm (Nat.zero_le n) (by omega)

/-- `3 * G` is at most BIT_COUNT, so EMBED_COUNT holds it. -/
theorem State.three_embedGroups_toNat (s : State) : (BitVec.ofNat 32 (3 * s.embedGroups)).toNat = 3 * s.embedGroups := by
  have hbits : 3 * s.embedGroups ≤ s.bitCount.toNat := three_groups_le _ _ _
  rw [BitVec.toNat_ofNat, Nat.mod_eq_of_lt (by omega)]

/-- EMBED keeps every bit of every word but bits 0, 8 and 16: a visited word is packed, the others are not written. -/
theorem embedStep_done_mask {s u : State} (h : embedStep .strict s = .done u) (a : Nat) :
    (u.pix.read? a).map (fun q => q &&& 0xFFFEFEFE) = (s.pix.read? a).map (fun p => p &&& 0xFFFEFEFE) := by
  by_cases hvisit : ∃ n, n < s.embedGroups ∧ pixIndex s.gridW s.gridH n = a
  · obtain ⟨n, hn, rfl⟩ := hvisit
    obtain ⟨b0, b1, b2, p, -, -, -, hp, hq⟩ := embedStep_done_visit Reader.strict_lawful h hn
    have hp' : s.pix.read? (pixIndex s.gridW s.gridH n) = some p := hp
    rw [hp', hq]
    exact congrArg some (pack_and_mask p b0 b1 b2)
  · obtain ⟨-, -, hother⟩ := embedStep_writes (.inl h)
    rw [hother a fun n hn e => hvisit ⟨n, hn, e⟩]

/-! ### EMBED where it has already run (R72) -/

/-- The word of every visit of EMBED holds its group of the stream: bits `3k`, `3k+1`, `3k+2` are its R, G and B LSBs. -/
def State.HoldsGroups (s : State) : Prop :=
  ∀ k, k < s.embedGroups → ∃ q, s.pix.read? (pixIndex s.gridW s.gridH k) = some q ∧
    s.bit.read? (3 * k) = some (q.getLsbD 0) ∧ s.bit.read? (3 * k + 1) = some (q.getLsbD 8) ∧
    s.bit.read? (3 * k + 2) = some (q.getLsbD 16)

/-- EMBED leaves the groups in their words. -/
theorem embedStep_done_holdsGroups {s u : State} (h : embedStep .strict s = .done u) : u.HoldsGroups := by
  have hu := embedStep_done_eq h
  rw [State.HoldsGroups, show u.embedGroups = s.embedGroups by rw [hu]; rfl, show u.gridW = s.gridW by rw [hu]; rfl,
    show u.gridH = s.gridH by rw [hu]; rfl, show u.bit = s.bit by rw [hu]]
  intro k hk
  obtain ⟨b0, b1, b2, p, h0, h1, h2, -, hq⟩ := embedStep_done_visit Reader.strict_lawful h hk
  refine ⟨pack p b0 b1 b2, hq, ?_, ?_, ?_⟩
  · rw [pack_getLsbD _ _ _ _ (by decide)]; exact h0
  · rw [pack_getLsbD _ _ _ _ (by decide)]; exact h1
  · rw [pack_getLsbD _ _ _ _ (by decide)]; exact h2

/-- Writing what is already there leaves a memory in canonical form the same data. -/
theorem Mem.write_of_read? {α : Type} {m : Mem α} (hm : m.wf = true) {i : Nat} {v : α} (h : m.read? i = some v) :
    m.write i v = m := by
  refine Mem.ext_of_wf (Mem.wf_write hm i v) hm fun j => ?_
  rw [Mem.read?_write]
  split
  · next hij => rw [← hij, h]
  · rfl

/-- Visits whose words hold their bits write nothing new. -/
theorem embedLoop_of_held {bitAt? : Nat → Option Bool} {w h n g : Nat} {m : Mem Pixel} (hm : m.wf = true)
    (hheld : ∀ k, n ≤ k → k < n + g → ∃ q, m.read? (pixIndex w h k) = some q ∧ bitAt? (3 * k) = some (q.getLsbD 0) ∧
      bitAt? (3 * k + 1) = some (q.getLsbD 8) ∧ bitAt? (3 * k + 2) = some (q.getLsbD 16)) :
    embedLoop bitAt? Mem.read? w h n g m = .ok m := by
  induction g generalizing n with
  | zero => rfl
  | succ g ih =>
    obtain ⟨q, hq, h0, h1, h2⟩ := hheld n (Nat.le_refl n) (by omega)
    rw [embedLoop_succ _ _ _ _ _ _ _ h0 h1 h2 hq, pack_own_bits, Mem.write_of_read? hm hq]
    exact ih fun k hk1 hk2 => hheld k (by omega) (by omega)

/-- EMBED changes nothing where the groups are in their words and EMBED_COUNT counts them. -/
theorem embedStep_of_holdsGroups {s : State} (hg : s.gridW * s.gridH ≤ s.cfg.pixWords)
    (hn : s.bitCount.toNat ≤ s.cfg.maxBits) (hwf : s.pix.wf = true) (hheld : s.HoldsGroups)
    (hcount : s.embedCount = BitVec.ofNat 32 (3 * s.embedGroups)) : embedStep .strict s = .done s := by
  have hloop : embedLoop (Reader.strict.bit s.bit) Reader.strict.pix s.gridW s.gridH 0 s.embedGroups s.pix = .ok s.pix :=
    embedLoop_of_held hwf fun k _ hk => hheld k (by omega)
  rw [embedStep, if_neg (Nat.not_lt.mpr hg), if_neg (Nat.not_lt.mpr hn), hloop]
  dsimp only
  rw [← hcount]

/-- EMBED after EMBED and its end is done with nothing changed. -/
theorem embedStep_again {s u : State} (hs : s.memOk = true) (h : embedStep .strict s = .done u) :
    embedStep .strict u.complete = .done u.complete := by
  obtain ⟨-, -, hwf, -⟩ := State.memOk_iff.mp ((embedStep_stepsTo h).memOk hs)
  have hheld := embedStep_done_holdsGroups h
  obtain ⟨hg, hn, m, -, rfl⟩ := embedStep_done h
  exact embedStep_of_holdsGroups hg hn hwf hheld rfl

/-! ### A command that ended with no error -/

/-- A command that leaves ERR clear was done: the error latch sets ERR (R82). -/
theorem exec_done_of_err_clear {i : Instr} {s t : State} (h : exec i s = .next t) (herr : t.err = false) :
    ∃ u, commandBody .strict i s = .done u ∧ t = u.complete := by
  obtain ⟨u, -, hdone | ⟨e, info, -, rfl⟩⟩ := exec_next h
  · exact ⟨u, hdone⟩
  · cases herr

end Sys2Proof.Machine

/-! ### The obligations -/

section

open Sys2Proof Sys2Proof.Machine

/-- Settles O26: the formula is the definition, the traversal is injective into the grid, and the visit that reaches a
word is the traversal of the transposed grid at that word. -/
theorem traversalVisitsEveryPixelOnce : Obligations.TraversalVisitsEveryPixelOnce := by
  unfold Obligations.TraversalVisitsEveryPixelOnce
  refine fun w h => ⟨fun n => rfl, fun n => pixIndex_lt, fun n k => pixIndex_inj, fun a ha => ?_⟩
  have hswap : a < h * w := Nat.mul_comm w h ▸ ha
  exact ⟨pixIndex h w a, Nat.mul_comm h w ▸ pixIndex_lt hswap, pixIndex_pixIndex_swap ha⟩

/-- Settles O13: the two checks in their order, and a grid and groups that are written, whose step is done with every
visited word packed. -/
theorem embedFollowsItsRule : Obligations.EmbedFollowsItsRule := by
  unfold Obligations.EmbedFollowsItsRule
  refine ⟨decode_encode .embed, fun s => ⟨fun hg => ?_, fun hg hn => ?_, fun g hG hg hn hbits hwords => ?_⟩⟩
  · exact exec_of_raised (i := .embed) (embedStep_of_gridOver .strict hg)
  · exact exec_of_raised (i := .embed) (embedStep_of_tooManyBits .strict hg hn)
  · subst hG
    obtain ⟨m, -, hu⟩ := embedStep_of_written Reader.strict_lawful hg hn
      (fun i hi => Option.isSome_iff_exists.mpr (hbits i hi)) (fun n hk => Option.isSome_iff_exists.mpr (hwords n hk))
    obtain ⟨-, -, hframe⟩ := embedStep_writes (.inl hu)
    exact ⟨_, exec_of_done (i := .embed) hu, congrArg State.complete (embedStep_done_eq hu),
      fun n hk => embedStep_done_visit Reader.strict_lawful hu hk, hframe⟩

/-- Settles O27: the count fits its register, the visited words hold their groups, `pack` touches three bits only, and
where the groups are in their words EMBED changes nothing. -/
theorem embedLaws : Obligations.EmbedLaws := by
  unfold Obligations.EmbedLaws
  intro s t hs h herr
  obtain ⟨-, hmem, -⟩ := hs
  obtain ⟨u, hu, rfl⟩ := exec_done_of_err_clear h herr
  have hstep : embedStep .strict s = .done u := hu
  have hmask := embedStep_done_mask hstep
  have hagain : exec .embed u.complete = .next u.complete.complete :=
    exec_of_done (i := .embed) (embedStep_again hmem hstep)
  refine ⟨?_, ?_, hmask, hagain⟩
  · rw [embedStep_done_eq hstep]; exact s.three_embedGroups_toNat
  · have hheld := embedStep_done_holdsGroups hstep
    obtain ⟨-, -, m, -, rfl⟩ := embedStep_done hstep
    exact hheld

end
end

section
/-! SUPPORT. EXTRACT and the round trip (44_extractor R73, R74): the end of each of EXTRACT's checks and what BITMEM
holds after it is done; that EXTRACT gives back the stream where the grid holds its groups, as EMBED leaves it; and that
DECODE of an encoded stream cut at a whole byte gives back the message up to there. -/

namespace Sys2Proof.Machine

open Sys2Proof

/-! ### EXTRACT: its checks and what it leaves (R73) -/

theorem unpack_eq (p : Pixel) : unpack p = (p.getLsbD 0, p.getLsbD 8, p.getLsbD 16) := by
  rw [unpack, lsb_lane, lsb_lane, lsb_lane]

theorem extractStep_of_gridOver (r : Reader) {s : State} (hg : s.cfg.pixWords < s.gridW * s.gridH) :
    extractStep r s = .raised .configError infoGeometry s := if_pos hg

theorem extractStep_of_tooManyBits (r : Reader) {s : State} (hg : s.gridW * s.gridH ≤ s.cfg.pixWords)
    (hn : s.cfg.maxBits < s.totalBits.toNat) : extractStep r s = .raised .configError infoTotalBits s := by
  rw [extractStep, if_neg (Nat.not_lt.mpr hg), if_pos hn]

theorem extractStep_done_eq {r : Reader} {s u : State} (h : extractStep r s = .done u) :
    u = { s with bit := u.bit, bitCount := BitVec.ofNat 32 (3 * s.extractGroups) } := by
  obtain ⟨-, -, bs, -, rfl⟩ := extractStep_done h; rfl

/-- Group `n` of the stream is the R, G and B LSBs of the word of visit `n`. -/
theorem extractStep_done_visit {r : Reader} {s u : State} (h : extractStep r s = .done u) {n : Nat}
    (hn : n < s.extractGroups) :
    ∃ p, r.pix s.pix (pixIndex s.gridW s.gridH n) = some p ∧ u.bit.read? (3 * n) = some (p.getLsbD 0) ∧
      u.bit.read? (3 * n + 1) = some (p.getLsbD 8) ∧ u.bit.read? (3 * n + 2) = some (p.getLsbD 16) := by
  obtain ⟨-, -, bs, hbs, rfl⟩ := extractStep_done h
  obtain ⟨hl, hgroup⟩ := extractLoop_ok hbs
  obtain ⟨p, hp, h0, h1, h2⟩ := hgroup n hn
  rw [unpack_eq] at h0 h1 h2
  rw [Nat.zero_add] at hp
  exact ⟨p, hp, (Mem.read?_writeRun_zero _ (by omega)).trans h0, (Mem.read?_writeRun_zero _ (by omega)).trans h1,
    (Mem.read?_writeRun_zero _ (by omega)).trans h2⟩

/-- `3 * G` is at most TOTAL_BITS, so BIT_COUNT holds it. -/
theorem extractStep_done_bitCount {r : Reader} {s u : State} (h : extractStep r s = .done u) :
    u.bitCount.toNat = 3 * s.extractGroups := by
  have hbits : 3 * s.extractGroups ≤ s.totalBits.toNat := three_groups_le _ _ _
  rw [extractStep_done_eq h, BitVec.toNat_ofNat, Nat.mod_eq_of_lt (by omega)]

/-! ### EXTRACT where EMBED has run (R74) -/

/-- EXTRACT of as many groups as the words of the grid hold leaves BITMEM reading as it was: the bits below `3 * G` are
those of the words, and the others are not written. -/
theorem extractStep_done_of_holdsGroups {s x : State} (h : extractStep .strict s = .done x) (hheld : s.HoldsGroups)
    (hG : s.extractGroups = s.embedGroups) (i : Nat) : x.bit.read? i = s.bit.read? i := by
  by_cases hi : i < 3 * s.extractGroups
  · have hk : i / 3 < s.extractGroups := by omega
    obtain ⟨p, hp, hx0, hx1, hx2⟩ := extractStep_done_visit h hk
    obtain ⟨q, hq, hs0, hs1, hs2⟩ := hheld (i / 3) (hG ▸ hk)
    obtain rfl : p = q := Option.some.inj (hp.symm.trans hq)
    obtain hmod | hmod | hmod : i = 3 * (i / 3) ∨ i = 3 * (i / 3) + 1 ∨ i = 3 * (i / 3) + 2 := by omega
    · rw [hmod, hx0, hs0]
    · rw [hmod, hx1, hs1]
    · rw [hmod, hx2, hs2]
  · obtain ⟨-, -, hframe⟩ := extractStep_writes (.inl h)
    exact hframe i (by omega)

theorem extractStep_of_holdsGroups {s : State} (hg : s.gridW * s.gridH ≤ s.cfg.pixWords)
    (hn : s.totalBits.toNat ≤ s.cfg.maxBits) (hheld : s.HoldsGroups) (hG : s.extractGroups = s.embedGroups) :
    ∃ x, extractStep .strict s = .done x ∧ x.bitCount.toNat = 3 * s.embedGroups ∧ x.cfg = s.cfg ∧
      ∀ i, x.bit.read? i = s.bit.read? i := by
  obtain ⟨bs, -, hx⟩ := extractStep_of_written (r := .strict) hg hn fun n hk => by
    obtain ⟨q, hq, -⟩ := hheld n (hG ▸ hk)
    exact Option.isSome_iff_exists.mpr ⟨q, hq⟩
  exact ⟨_, hx, hG ▸ extractStep_done_bitCount hx, rfl, extractStep_done_of_holdsGroups hx hheld hG⟩

/-- EXTRACT after EMBED, with EMBED's BIT_COUNT as its budget, counts EMBED's groups and gives back its stream. -/
theorem extractStep_of_embedded {s m : State} (h : embedStep .strict s = .done m) :
    ∃ x, extractStep .strict { m.complete with totalBits := s.bitCount } = .done x ∧
      x.bitCount.toNat = 3 * s.embedGroups ∧ x.cfg = s.cfg ∧ ∀ i, x.bit.read? i = s.bit.read? i := by
  have hheld := embedStep_done_holdsGroups h
  obtain ⟨hg, hn, m, -, rfl⟩ := embedStep_done h
  exact extractStep_of_holdsGroups hg hn hheld rfl

/-! ### EMBED after ENCODE (R74) -/

@[simp] theorem State.complete_embedGroups (s : State) : s.complete.embedGroups = s.embedGroups := rfl

/-- Every bit of the encoded stream is written. -/
theorem encodeStep_done_bit_isSome {r : Reader} {s e : State} (h : encodeStep r s = .done e) {i : Nat}
    (hi : i < 8 * s.msgLen.toNat) : (e.bit.read? i).isSome = true := by
  obtain ⟨-, bs, hl, -, -, rfl⟩ := encodeStep_done h
  have hin : i < (textBits bs).length := by rw [textBits_length]; omega
  rw [Mem.read?_writeRun_zero _ hin, List.getElem?_eq_getElem hin]; rfl

theorem encodeStep_done_bitCount {r : Reader} {s e : State} (hwf : s.cfg.wf = true) (h : encodeStep r s = .done e) :
    e.bitCount.toNat = 8 * s.msgLen.toNat := by
  obtain ⟨hL, -⟩ := encodeStep_done h
  rw [encodeStep_done_eq h]; exact eight_msgLen_toNat hwf hL

/-- The groups that EMBED packs of an encoded message. -/
theorem encodeStep_done_embedGroups {r : Reader} {s e : State} (hwf : s.cfg.wf = true) (h : encodeStep r s = .done e) :
    e.embedGroups = s.messageGroups := by
  rw [State.embedGroups, encodeStep_done_bitCount hwf h, encodeStep_done_eq h]; rfl

/-- EMBED of an encoded message is done on a legal grid whose words are all written. -/
theorem embedStep_of_encoded {s e : State} (hwf : s.cfg.wf = true) (hg : s.gridW * s.gridH ≤ s.cfg.pixWords)
    (hgrid : ∀ a, a < s.gridW * s.gridH → (s.pix.read? a).isSome = true) (h : encodeStep .strict s = .done e) :
    ∃ m, embedStep .strict e.complete = .done m := by
  obtain ⟨hL, -⟩ := encodeStep_done h
  have hcount := encodeStep_done_bitCount hwf h
  have hcells : e.embedGroups ≤ e.gridW * e.gridH := groups_le_cells _ _ _
  have hbits : 3 * e.embedGroups ≤ e.bitCount.toNat := three_groups_le _ _ _
  have hframe := encodeStep_done_eq h
  have hcfg : e.cfg = s.cfg := by rw [hframe]
  have hsize : e.gridW * e.gridH = s.gridW * s.gridH := by rw [hframe]; rfl
  have hpix : e.pix = s.pix := by rw [hframe]
  have hmax : e.bitCount.toNat ≤ e.cfg.maxBits := by rw [hcount, hcfg]; exact Nat.mul_le_mul_left 8 hL
  rw [← hsize] at hg hgrid
  rw [← hcfg] at hg
  rw [← hpix] at hgrid
  obtain ⟨_, -, hm⟩ := embedStep_of_written (s := e.complete) Reader.strict_lawful hg hmax
    (fun i hi => encodeStep_done_bit_isSome h (hcount ▸ hi.trans_le hbits))
    (fun n hn => hgrid _ (pixIndex_lt (hn.trans_le hcells)))
  exact ⟨_, hm⟩

/-! ### DECODE of an encoded stream (R74) -/

/-- DECODE of the encoded stream cut at a whole byte is done, and gives back the message up to there. -/
theorem decodeStep_of_encoded {s e x : State} (h : encodeStep .strict s = .done e)
    (hn : x.bitCount.toNat ≤ x.cfg.maxBits) (hle : x.bitCount.toNat ≤ 8 * s.msgLen.toNat)
    (hmod : x.bitCount.toNat % 8 = 0) (hbit : ∀ i, x.bit.read? i = e.bit.read? i) :
    ∃ d, decodeStep .strict x = .done d ∧ ∀ k, k < x.bitCount.toNat / 8 → d.msg.read? k = s.msg.read? k := by
  obtain ⟨d, hd⟩ := decodeStep_of_written (r := .strict) hn hmod fun i hi =>
    (congrArg Option.isSome (hbit i)).trans (encodeStep_done_bit_isSome h (hi.trans_le hle))
  refine ⟨d, hd, fun k hk => ?_⟩
  obtain ⟨b, hb, hchunk⟩ := decodeStep_done_byte hd hk
  have hsame : ∀ j, j < 8 → (s.msg.read? k).map (fun c => c.getLsbD (7 - j)) = some (b.getLsbD (7 - j)) := fun j hj =>
    (encodeStep_done_bit h (by omega) hj).symm.trans ((hbit _).symm.trans (hchunk j hj))
  obtain ⟨c, hc, -⟩ := Option.map_eq_some_iff.mp (hsame 0 (by decide))
  rw [hb, hc]
  refine congrArg some (byte_ext fun j hj => ?_)
  have hbitj := hsame j hj
  rw [hc] at hbitj
  exact (Option.some.inj hbitj).symm

/-- A DECODE of `n` bits of the encoded stream, a whole number of bytes, keeps ERR, counts the bytes in OUT_LEN and
gives back the message up to there. -/
theorem exec_decode_of_encoded {s e x : State} {n : Nat} (h : encodeStep .strict s = .done e)
    (hcount : x.bitCount.toNat = n) (hn : n ≤ x.cfg.maxBits) (hle : n ≤ 8 * s.msgLen.toNat) (hmod : n % 8 = 0)
    (hbit : ∀ i, x.bit.read? i = e.bit.read? i) :
    ∃ d, exec .decode x = .next d ∧ d.err = x.err ∧ d.outLen.toNat = n / 8 ∧
      ∀ k, k < n / 8 → d.msg.read? k = s.msg.read? k := by
  subst hcount
  obtain ⟨d, hd, hmsg⟩ := decodeStep_of_encoded h hn hle hmod hbit
  have hframe := decodeStep_done_eq hd
  have herr : d.err = x.err := by rw [hframe]
  have hlen : d.outLen.toNat = x.bitCount.toNat / 8 := by
    rw [hframe, BitVec.toNat_ofNat, Nat.mod_eq_of_lt (by omega)]
  exact ⟨d.complete, exec_of_done (i := .decode) hd, herr, hlen, hmsg⟩

/-- A DECODE of `n` bits, no whole number of bytes, ends with FormatError and ERR_INFO `n`. -/
theorem exec_decode_of_partialByte {x : State} {n : Nat} (hcount : x.bitCount.toNat = n) (hn : n ≤ x.cfg.maxBits)
    (hmod : n % 8 ≠ 0) :
    exec .decode x = .next { x with engine := .idle, err := true, errCode := 5, errInfo := BitVec.ofNat 32 n } := by
  subst hcount
  rw [BitVec.ofNat_toNat, BitVec.setWidth_eq]
  exact exec_of_raised (i := .decode) (decodeStep_of_partialByte .strict hn hmod)

/-! ### The three commands together (R74) -/

/-- ENCODE, EMBED and EXTRACT with a budget of `8 * L` are done one after another, and the bits extracted are those of
the encoded stream. -/
theorem encode_embed_extract_done {s : State} (hwf : s.cfg.wf = true) (hL : s.msgLen.toNat ≤ s.cfg.maxMsgBytes)
    (hg : s.gridW * s.gridH ≤ s.cfg.pixWords)
    (hascii : ∀ i, i < s.msgLen.toNat → ∃ b, s.msg.read? i = some b ∧ b.toNat < 128)
    (hgrid : ∀ a, a < s.gridW * s.gridH → (s.pix.read? a).isSome = true) :
    ∃ e m x, encodeStep .strict s = .done e ∧ embedStep .strict e.complete = .done m ∧
      extractStep .strict { m.complete with totalBits := BitVec.ofNat 32 (8 * s.msgLen.toNat) } = .done x ∧
      x.bitCount.toNat = 3 * s.messageGroups ∧ x.cfg = s.cfg ∧ ∀ i, x.bit.read? i = e.bit.read? i := by
  obtain ⟨e, he⟩ := encodeStep_of_ascii (r := .strict) hL hascii
  obtain ⟨m, hm⟩ := embedStep_of_encoded hwf hg hgrid he
  obtain ⟨x, hx, hcount, hcfg, hbit⟩ := extractStep_of_embedded hm
  have hbudget : e.bitCount = BitVec.ofNat 32 (8 * s.msgLen.toNat) := by rw [encodeStep_done_eq he]
  have hsame : e.cfg = s.cfg := by rw [encodeStep_done_eq he]
  rw [State.complete_bitCount, hbudget] at hx
  rw [State.complete_embedGroups, encodeStep_done_embedGroups hwf he] at hcount
  exact ⟨e, m, x, he, hm, hx, hcount, hcfg.trans hsame, hbit⟩

end Sys2Proof.Machine

/-! ### The obligations -/

section

open Sys2Proof Sys2Proof.Machine

/-- Settles O14: the two checks in their order, and a grid whose visited words are written, whose step is done with
their LSBs in the stream. -/
theorem extractFollowsItsRule : Obligations.ExtractFollowsItsRule := by
  unfold Obligations.ExtractFollowsItsRule
  refine ⟨decode_encode .extract, fun s => ⟨fun hg => ?_, fun hg hn => ?_, fun g hG hg hn hwords => ?_⟩⟩
  · exact exec_of_raised (i := .extract) (extractStep_of_gridOver .strict hg)
  · exact exec_of_raised (i := .extract) (extractStep_of_tooManyBits .strict hg hn)
  · subst hG
    obtain ⟨bs, -, hu⟩ := extractStep_of_written (r := .strict) hg hn
      fun n hk => Option.isSome_iff_exists.mpr (hwords n hk)
    obtain ⟨-, -, hframe⟩ := extractStep_writes (.inl hu)
    exact ⟨_, exec_of_done (i := .extract) hu, congrArg State.complete (extractStep_done_eq hu),
      fun n hk => extractStep_done_visit hu hk, hframe⟩

/-- Settles O28: the stream extracted is the encoded one up to `3 * min (8L / 3) (W * H)` bits, so DECODE gives back the
message up to there when that is a whole number of bytes, and FormatError when it is not. -/
theorem roundTrip : Obligations.RoundTrip := by
  unfold Obligations.RoundTrip
  intro s hs hL hg hascii hgrid
  obtain ⟨hwf, -⟩ := hs
  obtain ⟨e, m, x, he, hm, hx, hcount, hcfg, hbit⟩ := encode_embed_extract_done hwf hL hg hascii
    fun a ha => Option.isSome_iff_exists.mpr (hgrid a ha)
  have hle : x.bitCount.toNat ≤ 8 * s.msgLen.toNat := hcount.trans_le (three_groups_le _ _ _)
  have hmax : x.bitCount.toNat ≤ x.cfg.maxBits := by
    rw [hcfg]; exact hle.trans (Nat.mul_le_mul_left 8 hL)
  have hfits : 8 * s.msgLen.toNat / 3 ≤ s.width.toNat * s.height.toNat →
      x.bitCount.toNat = 8 * s.msgLen.toNat - 8 * s.msgLen.toNat % 3 := fun h => by
    have hmin : s.messageGroups = 8 * s.msgLen.toNat / 3 := Nat.min_eq_left h
    omega
  have hcut : s.width.toNat * s.height.toNat < 8 * s.msgLen.toNat / 3 →
      x.bitCount.toNat = 3 * (s.width.toNat * s.height.toNat) := fun h =>
    hcount.trans (congrArg (3 * ·) (Nat.min_eq_right h.le))
  refine ⟨e.complete, m.complete, x.complete, exec_of_done (i := .encode) he, exec_of_done (i := .embed) hm,
    exec_of_done (i := .extract) hx, hcount, fun i _ => hbit i, fun hthree h => ?_, fun hthree h => ?_,
    fun h hbyte => ?_, fun h hbyte => ?_⟩
  · have hall : x.bitCount.toNat = 8 * s.msgLen.toNat := by have := hfits h; omega
    obtain ⟨d, hd, herr, hlen, hmsg⟩ :=
      exec_decode_of_encoded (x := x.complete) he hall (hall ▸ hmax) (Nat.le_refl _) (Nat.mul_mod_right 8 _) hbit
    rw [Nat.mul_div_cancel_left _ (by decide)] at hlen hmsg
    exact ⟨d, hd, herr, BitVec.eq_of_toNat_eq hlen, hmsg⟩
  · exact exec_decode_of_partialByte (x := x.complete) (hfits h) (hfits h ▸ hmax) (by omega)
  · exact exec_decode_of_partialByte (x := x.complete) (hcut h) (hcut h ▸ hmax) (by omega)
  · exact exec_decode_of_encoded (x := x.complete) he (hcut h) (hcut h ▸ hmax) (hcut h ▸ hle) (by omega) hbit

end
end

section
/-! SUPPORT. The life of a command (45_orchestration R75, R78): the engine's turn and the step that end the latched
command, and the word that `withFetchWord` places (log 11). -/

namespace Sys2Proof

theorem decodeTableWord_eq_some {nbits w : Nat} {i : Instr} (h : decodeTableWord nbits w = some i) :
    decode (tableWord nbits w) = .ok i := by
  unfold decodeTableWord at h
  split at h
  · split at h
    · cases h; assumption
    · cases h
  · cases h

theorem decodeTableWord_eq_none {nbits w : Nat} (hn : nbits ≤ 32) (h : decodeTableWord nbits w = none) :
    ∃ e, decode (tableWord nbits w) = .error e := by
  rw [decodeTableWord, if_pos hn] at h
  cases hd : decode (tableWord nbits w) with
  | ok i => rw [hd] at h; cases h
  | error e => exact ⟨e, rfl⟩

namespace Machine

theorem endCommand_of_ok {w : Word} {i : Instr} (h : decode w = .ok i) (s : State) : endCommand w s = exec i s := by
  rw [endCommand, h]

theorem engineTurn_of_busy {s : State} {w : Word} (hr : s.rst = false) (he : s.engine = .busy w) :
    engineTurn s = endCommand w s := by
  rw [engineTurn, hr, he]; rfl

/-- A step in the engine's turn ends the latched command on the state with the turn used up. -/
theorem step_of_running {s : State} {w : Word} (hr : s.rst = false) (he : s.engine = .busy w)
    (ht : s.turns = [] ∨ s.turns.head? = some .engine) : step s = endCommand w s.popTurn := by
  have hturn : s.turns.head? = some .engine ∨ (s.turns = [] ∧ s.busy = true ∧ s.rst = false) :=
    ht.symm.imp_right fun hnil => ⟨hnil, (State.busy_eq s).mpr ⟨w, he⟩, hr⟩
  rw [step_of_engine (State.mover_engine hturn)]
  exact engineTurn_of_busy hr he

/-- The step after `withFetchWord` ends the placed word, on the state that its CMD write leaves with RST low. -/
theorem step_withFetchWord (s : State) (nbits w : Nat) :
    step (s.withFetchWord nbits w) =
      endCommand (tableWord nbits w) { s.startCommand (tableWord nbits w) with rst := false } :=
  step_of_running rfl rfl (.inr rfl)

end Machine

end Sys2Proof

/-! ### The obligations -/

section

open Sys2Proof Sys2Proof.Machine

/-- Settles O9: the body of NOP is done with nothing changed. -/
theorem nopCompletes : Obligations.NopCompletes := by
  unfold Obligations.NopCompletes
  exact ⟨decode_encode .nop, fun s => exec_of_done (i := .nop) rfl⟩

/-- Settles O5: the write is the start event, and the engine's turn after it ends the word just latched. -/
theorem commandStartEvent : Obligations.CommandStartEvent := by
  unfold Obligations.CommandStartEvent
  intro s w hr hi
  have hstart : s.busWrite 0x008 w = s.startCommand w := State.busWrite_cmd_idle hr hi w
  rw [hstart, engineTurn_startCommand hr]
  refine ⟨rfl, fun i hd => endCommand_of_ok hd _, fun e hd => ?_⟩
  rw [endCommand_of_error hd]; rfl

/-- Settles O4: both steps end the latched word, which the decoder reads or refuses. -/
theorem stepRunsTheLatchedCommand : Obligations.StepRunsTheLatchedCommand := by
  unfold Obligations.StepRunsTheLatchedCommand
  refine ⟨fun s w hr he ht => ?_, fun s nbits w i h => ?_, fun s nbits w hn h => ?_⟩
  · rw [step_of_running hr he ht]
    refine ⟨fun i hd => endCommand_of_ok hd _, fun e hd => ?_⟩
    rw [endCommand_of_error hd]; rfl
  · have hd := decodeTableWord_eq_some h
    rw [step_withFetchWord, endCommand_of_ok hd, decode_eq_ok_iff.mp hd]; rfl
  · obtain ⟨e, hd⟩ := decodeTableWord_eq_none hn h
    rw [step_withFetchWord, endCommand_of_error hd]; rfl

end
end

section
/-! SUPPORT. ENCRYPT and DECRYPT (45_orchestration R77, R79, R80): the end of each of their checks, that the second step
is done after the first, that a step run as a command of its own after another command has the same effect, and that an
error ends every command but DECRYPT on the state of its start. -/

namespace Sys2Proof.Machine

open Sys2Proof

/-! ### A command after a command -/

/-- A successful end keeps everything the next command reads: it is done with the same effect. -/
theorem exec_complete_of_done {i : Instr} {s u : State} (h : commandBody .strict i s = .done u) :
    exec i s.complete = .next u.complete := by
  have hkeep : s.StepsTo u := by
    have hk := commandBody_keeps .strict i s
    rwa [h] at hk
  have hbody : commandBody .strict i s.complete = .done (u.withControl s.complete.control) :=
    (commandBody_withControl .strict i s.complete.control s).trans (congrArg _ h)
  rw [exec_of_done hbody, hkeep.frame]; rfl

/-! ### The checks (R79, R80) -/

theorem compositeChecks_of_tooLong {s : State} (hL : s.cfg.maxMsgBytes < s.msgLen.toNat) :
    compositeChecks s = .raised .configError infoMsgLen s := if_pos hL

theorem compositeChecks_of_gridOver {s : State} (hL : s.msgLen.toNat ≤ s.cfg.maxMsgBytes)
    (hG : s.cfg.pixWords < s.gridW * s.gridH) : compositeChecks s = .raised .configError infoGeometry s := by
  rw [compositeChecks, if_neg (Nat.not_lt.mpr hL), if_pos hG]

theorem encryptStep_of_checks_raised {r : Reader} {s t : State} {e : CmdError} {info : Word}
    (h : compositeChecks s = .raised e info t) : encryptStep r s = .raised e info t := by
  rw [encryptStep, h]; rfl

theorem decryptStep_of_checks_raised {r : Reader} {s t : State} {e : CmdError} {info : Word}
    (h : compositeChecks s = .raised e info t) : decryptStep r s = .raised e info t := by
  rw [decryptStep, h]; rfl

theorem encryptStep_of_over {r : Reader} {s : State} (hL : s.msgLen.toNat ≤ s.cfg.maxMsgBytes)
    (hG : s.gridW * s.gridH ≤ s.cfg.pixWords) (hC : 3 * s.fileSize.toNat ≤ 8 * s.msgLen.toNat) :
    encryptStep r s = .raised .capacityError 0 s := by
  rw [encryptStep, compositeChecks_done.mpr ⟨rfl, hL, hG⟩, StepResult.andThen, capchkStep_of_over hC]; rfl

/-! ### The second step after the first -/

theorem State.eight_msgLen_le_maxBits {s : State} (hL : s.msgLen.toNat ≤ s.cfg.maxMsgBytes) :
    (BitVec.ofNat 32 (8 * s.msgLen.toNat)).toNat ≤ s.cfg.maxBits := by
  rw [BitVec.toNat_ofNat]
  exact (Nat.mod_le _ _).trans (Nat.mul_le_mul_left 8 hL)

/-- EMBED's two checks pass after ENCODE on a grid that fits PIXMEM: the encoded stream fits BITMEM. -/
theorem encodeStep_done_fits {r : Reader} {s e : State} (hG : s.gridW * s.gridH ≤ s.cfg.pixWords)
    (h : encodeStep r s = .done e) : e.gridW * e.gridH ≤ e.cfg.pixWords ∧ e.bitCount.toNat ≤ e.cfg.maxBits := by
  obtain ⟨hL, bs, -, -, -, rfl⟩ := encodeStep_done h
  exact ⟨hG, State.eight_msgLen_le_maxBits hL⟩

/-- EMBED of an encoded message is done on a legal grid whose visited words are written. -/
theorem embedStep_of_encoded_visits {s e : State} (hwf : s.cfg.wf = true) (hG : s.gridW * s.gridH ≤ s.cfg.pixWords)
    (hvisits : ∀ n, n < s.messageGroups → (s.pix.read? (pixIndex s.gridW s.gridH n)).isSome = true)
    (h : encodeStep .strict s = .done e) : ∃ m, embedStep .strict e = .done m := by
  obtain ⟨hg, hn⟩ := encodeStep_done_fits hG h
  have hgroups := encodeStep_done_embedGroups hwf h
  have hle : 3 * s.messageGroups ≤ 8 * s.msgLen.toNat := three_groups_le _ _ _
  have hwords : ∀ n, n < e.embedGroups → (e.pix.read? (pixIndex e.gridW e.gridH n)).isSome = true := fun n hk => by
    rw [encodeStep_done_eq h]; exact hvisits n (hgroups ▸ hk)
  obtain ⟨m, -, hm⟩ := embedStep_of_written Reader.strict_lawful hg hn
    (fun i hi => encodeStep_done_bit_isSome h (by omega)) hwords
  exact ⟨_, hm⟩

/-- The groups that EXTRACT reads with the message's budget. -/
theorem State.setBudget_extractGroups {s : State} (hwf : s.cfg.wf = true) (hL : s.msgLen.toNat ≤ s.cfg.maxMsgBytes) :
    s.setBudget.extractGroups = s.messageGroups :=
  congrArg (fun bits => groups bits s.gridW s.gridH) (eight_msgLen_toNat hwf hL)

/-- Every bit that EXTRACT counts is written. -/
theorem extractStep_done_bit_isSome {r : Reader} {s x : State} (h : extractStep r s = .done x) {i : Nat}
    (hi : i < x.bitCount.toNat) : (x.bit.read? i).isSome = true := by
  rw [extractStep_done_bitCount h] at hi
  obtain ⟨-, -, bs, hbs, rfl⟩ := extractStep_done h
  obtain ⟨hl, -⟩ := extractLoop_ok hbs
  have hin : i < bs.length := by omega
  rw [Mem.read?_writeRun_zero _ hin, List.getElem?_eq_getElem hin]; rfl

/-- EXTRACT counts no more bits than BITMEM holds. -/
theorem extractStep_done_bitCount_le {r : Reader} {s x : State} (h : extractStep r s = .done x) :
    x.bitCount.toNat ≤ x.cfg.maxBits := by
  have hcount := extractStep_done_bitCount h
  have hle : 3 * s.extractGroups ≤ s.totalBits.toNat := three_groups_le _ _ _
  obtain ⟨-, hn, bs, -, rfl⟩ := extractStep_done h
  exact hcount.trans_le (hle.trans hn)

/-- EXTRACT with the message's budget is done on a legal grid whose visited words are written. -/
theorem extractStep_setBudget_of_visits {s : State} (hwf : s.cfg.wf = true) (hL : s.msgLen.toNat ≤ s.cfg.maxMsgBytes)
    (hG : s.gridW * s.gridH ≤ s.cfg.pixWords)
    (hvisits : ∀ n, n < s.messageGroups → (s.pix.read? (pixIndex s.gridW s.gridH n)).isSome = true) :
    ∃ x, extractStep .strict s.setBudget = .done x := by
  have hgroups := State.setBudget_extractGroups hwf hL
  obtain ⟨bs, -, hx⟩ := extractStep_of_written (r := .strict) (s := s.setBudget) hG
    (State.eight_msgLen_le_maxBits hL) fun n hn => hvisits n (hgroups ▸ hn)
  exact ⟨_, hx⟩

/-- DECODE of an extracted stream of whole bytes is done. -/
theorem decodeStep_of_extracted {r : Reader} {s x : State} (h : extractStep r s = .done x)
    (hmod : x.bitCount.toNat % 8 = 0) : ∃ d, decodeStep .strict x = .done d :=
  decodeStep_of_written (extractStep_done_bitCount_le h) hmod fun _ hi => extractStep_done_bit_isSome h hi

/-! ### Error ends -/

/-- EMBED raises no error after ENCODE on a grid that fits PIXMEM. -/
theorem embedStep_of_encoded_not_raised {r : Reader} {s e t : State} {x : CmdError} {info : Word}
    (hG : s.gridW * s.gridH ≤ s.cfg.pixWords) (h : encodeStep r s = .done e) :
    embedStep r e ≠ .raised x info t := by
  obtain ⟨hg, hn⟩ := encodeStep_done_fits hG h
  intro hraised
  obtain ⟨-, -, ⟨-, hover⟩ | ⟨-, -, hover⟩⟩ := embedStep_raised hraised
  · exact absurd hg (Nat.not_le.mpr hover)
  · exact absurd hn (Nat.not_le.mpr hover)

/-- ENCRYPT raises on the state of its start: in its checks, or in ENCODE. -/
theorem encryptStep_raised_state {r : Reader} {s t : State} {e : CmdError} {info : Word}
    (h : encryptStep r s = .raised e info t) : t = s := by
  rcases encryptStep_cases r s with ⟨_, _, hx⟩ | ⟨hL, hG, hC⟩
  · rw [hx] at h; cases h; rfl
  · rw [encryptStep_eq hL hG hC] at h
    rcases StepResult.andThen_raised.mp h with hencode | ⟨u, hu, hembed⟩
    · exact (encodeStep_raised hencode).1
    · exact absurd hembed (embedStep_of_encoded_not_raised hG hu)

/-- DECRYPT raises ConfigError on the state of its start: past its checks the budget fits BITMEM, and with it the
extracted stream. -/
theorem decryptStep_configError_state {r : Reader} {s t : State} {info : Word}
    (h : decryptStep r s = .raised .configError info t) : t = s := by
  rcases decryptStep_cases r s with ⟨_, _, hx⟩ | ⟨hL, hG⟩
  · rw [hx] at h; cases h; rfl
  · rw [decryptStep_eq hL hG] at h
    rcases StepResult.andThen_raised.mp h with hextract | ⟨u, hu, hdecode⟩
    · obtain ⟨-, -, ⟨-, hover⟩ | ⟨-, -, hover⟩⟩ := extractStep_raised hextract
      · exact absurd hG (Nat.not_le.mpr hover)
      · exact absurd (State.eight_msgLen_le_maxBits hL) (Nat.not_le.mpr hover)
    · obtain ⟨-, ⟨-, -, hover⟩ | ⟨-, he, -⟩⟩ := decodeStep_raised hdecode
      · exact absurd (extractStep_done_bitCount_le hu) (Nat.not_le.mpr hover)
      · cases he

/-- A command raises on the state of its start, but for DECRYPT past its first checks (R77, R82). -/
theorem commandBody_raised_state {r : Reader} {i : Instr} {s t : State} {e : CmdError} {info : Word}
    (h : commandBody r i s = .raised e info t) (hi : i ≠ .decrypt ∨ e = .configError) : t = s := by
  cases i with
  | nop => cases h
  | encode => exact (encodeStep_raised h).1
  | decode => exact (decodeStep_raised h).1
  | capchk => exact (capchkStep_raised h).1
  | embed => exact (embedStep_raised h).1
  | extract => exact (extractStep_raised h).1
  | encrypt => exact encryptStep_raised_state h
  | decrypt =>
    obtain rfl := hi.resolve_left (not_not_intro rfl)
    exact decryptStep_configError_state h

theorem CmdError.eq_configError_of_code {e : CmdError} (h : e.code = 6) : e = .configError := by
  revert h; cases e <;> decide

/-- A command that sets ERR raised: a successful end keeps ERR (R76). -/
theorem exec_raised_of_err_set {i : Instr} {s t : State} (h : exec i s = .next t) (hs : s.err = false)
    (ht : t.err = true) : ∃ u e info, commandBody .strict i s = .raised e info u ∧ t = u.latchError e info := by
  obtain ⟨u, hu, ⟨-, rfl⟩ | ⟨e, info, hraised⟩⟩ := exec_next h
  · have hkeep : u.err = s.err := by rw [hu.frame]
    exact absurd (ht.symm.trans (hkeep.trans hs)) (by decide)
  · exact ⟨u, e, info, hraised⟩

end Sys2Proof.Machine

/-! ### The obligations -/

section

open Sys2Proof Sys2Proof.Machine

/-- Settles O15: the two checks, CAPCHK and ENCODE's own error raise on the start; past them ENCODE is done, and EMBED
is done on what it leaves. -/
theorem encryptFollowsItsRule : Obligations.EncryptFollowsItsRule := by
  unfold Obligations.EncryptFollowsItsRule
  refine ⟨decode_encode .encrypt, fun s hwf => ⟨fun hL => ?_, fun hL hG => ?_, fun hL hG hC => ?_,
    fun i hL hG hC hi hbyte hbefore => ?_, fun g hg hL hG hC hascii hvisits => ?_⟩⟩
  · exact exec_of_raised (i := .encrypt) (encryptStep_of_checks_raised (compositeChecks_of_tooLong hL))
  · exact exec_of_raised (i := .encrypt) (encryptStep_of_checks_raised (compositeChecks_of_gridOver hL hG))
  · exact exec_of_raised (i := .encrypt) (encryptStep_of_over hL hG hC)
  · have hraised := encodeStep_of_nonAscii (r := .strict) hL hi hbyte hbefore
    exact exec_of_raised (i := .encrypt)
      ((encryptStep_eq hL hG hC).trans (StepResult.andThen_raised.mpr (.inl hraised)))
  · subst hg
    obtain ⟨e, he⟩ := encodeStep_of_ascii (r := .strict) hL hascii
    obtain ⟨m, hm⟩ := embedStep_of_encoded_visits hwf hG
      (fun n hn => Option.isSome_iff_exists.mpr (hvisits n hn)) he
    have hboth : encryptStep .strict s = .done m :=
      (encryptStep_eq hL hG hC).trans (StepResult.andThen_done.mpr ⟨e, he, hm⟩)
    refine ⟨e.complete, m.complete, exec_of_done (i := .encode) he, exec_complete_of_done (i := .embed) hm,
      exec_of_done (i := .encrypt) hboth, ?_⟩
    rw [embedStep_done_eq hm, encodeStep_done_embedGroups hwf he, encodeStep_done_eq he]; rfl

/-- Settles O16: the two checks raise on the start; past them EXTRACT is done with the message's budget, and DECODE of
what it counts is done, or raises FormatError on what EXTRACT left. -/
theorem decryptFollowsItsRule : Obligations.DecryptFollowsItsRule := by
  unfold Obligations.DecryptFollowsItsRule
  refine ⟨decode_encode .decrypt, fun s hwf => ⟨fun hL => ?_, fun hL hG => ?_, fun g hg hL hG hvisits => ?_⟩⟩
  · exact exec_of_raised (i := .decrypt) (decryptStep_of_checks_raised (compositeChecks_of_tooLong hL))
  · exact exec_of_raised (i := .decrypt) (decryptStep_of_checks_raised (compositeChecks_of_gridOver hL hG))
  · obtain ⟨x, hx⟩ := extractStep_setBudget_of_visits hwf hL hG
      fun n hn => Option.isSome_iff_exists.mpr (hvisits n (hg ▸ hn))
    have hgroups : s.setBudget.extractGroups = g := (State.setBudget_extractGroups hwf hL).trans hg.symm
    have hcount := extractStep_done_bitCount hx
    have hframe := extractStep_done_eq hx
    rw [hgroups] at hcount hframe
    have hbits : x.bitCount = BitVec.ofNat 32 (3 * g) := by rw [hframe]
    refine ⟨x.complete, exec_of_done (i := .extract) hx, hbits, fun hmod => ?_, fun hmod => ?_⟩
    · have hraised : decryptStep .strict s = .raised .formatError x.bitCount x :=
        (decryptStep_eq hL hG).trans (StepResult.andThen_raised.mpr (.inr ⟨x, hx,
          decodeStep_of_partialByte .strict (extractStep_done_bitCount_le hx) (hcount ▸ hmod)⟩))
      rw [exec_of_raised (i := .decrypt) hraised, hframe]; rfl
    · obtain ⟨d, hd⟩ := decodeStep_of_extracted hx (hcount ▸ hmod)
      have hboth : decryptStep .strict s = .done d :=
        (decryptStep_eq hL hG).trans (StepResult.andThen_done.mpr ⟨x, hx, hd⟩)
      refine ⟨d.complete, exec_complete_of_done (i := .decode) hd, exec_of_done (i := .decrypt) hboth, ?_⟩
      rw [decodeStep_done_eq hd, hcount, hframe]; rfl

/-- Settles O19: a command that sets ERR raised, and it raised on the state of its start. -/
theorem errorEndsWriteNothing : Obligations.ErrorEndsWriteNothing := by
  unfold Obligations.ErrorEndsWriteNothing
  intro i s t h hs ht hi
  obtain ⟨u, e, info, hraised, rfl⟩ := exec_raised_of_err_set h hs ht
  obtain rfl : u = s := commandBody_raised_state hraised (hi.imp_right CmdError.eq_configError_of_code)
  rfl

end
end

section
/-! SUPPORT. Error codes and the interrupt output (60_exceptions R81, R84, R86): which errors each step and each
composite raises, that a command's end keeps IRQ_EN and sets DONE or ERR, and what IRQ is where one of the two is set and
where neither is. -/

namespace Sys2Proof.Machine

open Sys2Proof

/-! ### The errors each command raises (R81, column "raised by") -/

section

variable {r : Reader} {s t : State} {e : CmdError} {info : Word}

theorem encodeStep_raised_error (h : encodeStep r s = .raised e info t) : e = .configError ∨ e = .encodingError := by
  obtain ⟨-, ⟨he, -⟩ | ⟨-, _, he, -⟩⟩ := encodeStep_raised h
  · exact .inl he
  · exact .inr he

theorem decodeStep_raised_error (h : decodeStep r s = .raised e info t) : e = .configError ∨ e = .formatError := by
  obtain ⟨-, ⟨he, -⟩ | ⟨-, he, -⟩⟩ := decodeStep_raised h
  · exact .inl he
  · exact .inr he

theorem capchkStep_raised_error (h : capchkStep s = .raised e info t) : e = .capacityError := by
  obtain ⟨-, he, -⟩ := capchkStep_raised h
  exact he

theorem embedStep_raised_error (h : embedStep r s = .raised e info t) : e = .configError := by
  obtain ⟨-, he, -⟩ := embedStep_raised h
  exact he

theorem extractStep_raised_error (h : extractStep r s = .raised e info t) : e = .configError := by
  obtain ⟨-, he, -⟩ := extractStep_raised h
  exact he

theorem compositeChecks_raised_error (h : compositeChecks s = .raised e info t) : e = .configError := by
  obtain ⟨-, he, -⟩ := compositeChecks_raised h
  exact he

/-- ENCRYPT ends with the error of whichever of its four parts raised (R77, R79). -/
theorem encryptStep_raised_error (h : encryptStep r s = .raised e info t) :
    e = .configError ∨ e = .capacityError ∨ e = .encodingError := by
  simp only [encryptStep, StepResult.andThen_raised] at h
  obtain ((hchecks | ⟨_, -, hcapchk⟩) | ⟨_, -, hencode⟩) | ⟨_, -, hembed⟩ := h
  · exact .inl (compositeChecks_raised_error hchecks)
  · exact .inr (.inl (capchkStep_raised_error hcapchk))
  · exact (encodeStep_raised_error hencode).imp_right .inr
  · exact .inl (embedStep_raised_error hembed)

/-- DECRYPT ends with the error of whichever of its three parts raised (R77, R80). -/
theorem decryptStep_raised_error (h : decryptStep r s = .raised e info t) :
    e = .configError ∨ e = .formatError := by
  simp only [decryptStep, StepResult.andThen_raised] at h
  obtain (hchecks | ⟨_, -, hextract⟩) | ⟨_, -, hdecode⟩ := h
  · exact .inl (compositeChecks_raised_error hchecks)
  · exact .inl (extractStep_raised_error hextract)
  · exact decodeStep_raised_error hdecode

end

/-! ### The interrupt output (R86) -/

theorem State.irq_of_done_or_err {s : State} (h : s.done = true ∨ s.err = true) : s.irq = s.irqEn := by
  rw [State.irq, (Bool.or_eq_true _ _).mpr h, Bool.and_true]

theorem State.irq_of_done_err_clear {s : State} (hd : s.done = false) (he : s.err = false) : s.irq = false := by
  rw [State.irq, hd, he, Bool.or_false, Bool.and_false]

/-- The start event clears DONE and ERR (R75). -/
@[simp] theorem State.startCommand_irq (w : Word) (s : State) : (s.startCommand w).irq = false :=
  State.irq_of_done_err_clear (s.startCommand_done w) (s.startCommand_err w)

/-- A write of 1 to DONE and to ERR clears both (R20). -/
theorem State.w1cStatus_irq {v : Word} (hd : v.getLsbD 1 = true) (he : v.getLsbD 2 = true) (s : State) :
    (s.w1cStatus v).irq = false :=
  State.irq_of_done_err_clear (by simp [hd]) (by simp [he])

theorem exec_irqEn {i : Instr} {s t : State} (h : exec i s = .next t) : t.irqEn = s.irqEn := by
  obtain ⟨u, hu, hend⟩ := exec_next h
  have hkeep : u.irqEn = s.irqEn := by rw [hu.frame]
  obtain ⟨-, rfl⟩ | ⟨e, info, -, rfl⟩ := hend
  · exact (u.complete_irqEn).trans hkeep
  · exact (u.latchError_irqEn e info).trans hkeep

/-- A successful end sets DONE (R76), an error end ERR (R82). -/
theorem exec_done_or_err {i : Instr} {s t : State} (h : exec i s = .next t) : t.done = true ∨ t.err = true := by
  obtain ⟨u, -, ⟨-, rfl⟩ | ⟨e, info, -, rfl⟩⟩ := exec_next h
  · exact .inl u.complete_done
  · exact .inr (u.latchError_err e info)

end Sys2Proof.Machine

/-! ### The obligations -/

section

open Sys2Proof Sys2Proof.Machine

/-- Settles O18: a command that sets ERR raised, and ERR_CODE is the code of the error it raised. -/
theorem errorCodesByCommand : Obligations.ErrorCodesByCommand := by
  unfold Obligations.ErrorCodesByCommand
  intro i s t h hs ht
  obtain ⟨u, e, info, hraised, rfl⟩ := exec_raised_of_err_set h hs ht
  have hcode {c : CmdError} (he : e = c) : (u.latchError e info).errCode = c.code := congrArg CmdError.code he
  cases i with
  | nop => cases hraised
  | encode => exact (encodeStep_raised_error hraised).imp hcode hcode
  | decode => exact (decodeStep_raised_error hraised).imp hcode hcode
  | capchk => exact hcode (capchkStep_raised_error hraised)
  | embed => exact hcode (embedStep_raised_error hraised)
  | extract => exact hcode (extractStep_raised_error hraised)
  | encrypt => exact (encryptStep_raised_error hraised).imp hcode (Or.imp hcode hcode)
  | decrypt => exact (decryptStep_raised_error hraised).imp hcode hcode

/-- Settles O36: every command end keeps IRQ_EN and sets DONE or ERR; a command start and the W1C write clear both. -/
theorem interruptOutput : Obligations.InterruptOutput := by
  unfold Obligations.InterruptOutput
  refine ⟨fun _ => rfl, fun i s t h => ?_, fun s w hr hi => ?_, fun s v hr hd he => ?_⟩
  · exact (State.irq_of_done_or_err (exec_done_or_err h)).trans (exec_irqEn h)
  · exact (congrArg State.irq (State.busWrite_cmd_idle hr hi w)).trans (s.startCommand_irq w)
  · exact (congrArg State.irq (State.busWrite_reg hr .status v)).trans (State.w1cStatus_irq hd he s)

end
end

section
/-! SUPPORT. Reset (70_reset_and_hazards R91, R92), what a location holds before it is written (I1), and that a started
command ends (R102; log 6). -/

namespace Sys2Proof.Machine

open Sys2Proof

/-! ### Soft reset (R92) -/

/-- Bit 1 of a CTRL write is the soft reset of the block, idle or running (R18, R46). -/
theorem State.busWrite_ctrl_softReset {s : State} (hr : s.rst = false) {v : Word} (hv : v.getLsbD 1 = true) :
    s.busWrite RegName.ctrl.offset v = s.softReset :=
  (State.busWrite_reg hr .ctrl v).trans (State.writeCtrl_softReset hv s)

theorem State.softReset_of_idle {s : State} (hi : s.engine = .idle) : s.softReset = s.resetRegs := by
  rw [State.softReset, hi]

theorem State.softReset_of_busy {s : State} {w : Word} (he : s.engine = .busy w) :
    s.softReset = (s.abortMemories w).resetRegs := by
  rw [State.softReset, he]

/-! ### Power-on reset (R91) -/

theorem State.busRead_high {s : State} (hr : s.rst = true) (off : Nat) : s.busRead off = 0 := if_pos hr

/-- The fall of RST is an edge, so a power-on reset (log 8). -/
theorem State.setRst_fall {s : State} (hr : s.rst = true) : s.setRst false = { s.powerOn with rst := false } :=
  if_neg (by rw [hr]; decide)

/-! ### Locations not written since power-on (I1) -/

theorem State.msgByte_of_unwritten {s : State} {k : Nat} (h : s.msg.read? k = none) :
    s.msgByte k = Config.powerOnMsg s.powerOns k := by
  rw [State.msgByte, h]; rfl

theorem State.streamBit_of_unwritten {s : State} {i : Nat} (h : s.bit.read? i = none) :
    s.streamBit i = Config.powerOnBit s.powerOns i := by
  rw [State.streamBit, h]; rfl

theorem State.pixWord_of_unwritten {s : State} {i : Nat} (h : s.pix.read? i = none) :
    s.pixWord i = Config.powerOnPix s.powerOns i := by
  rw [State.pixWord, h]; rfl

/-! ### A started command ends (R102) -/

/-- The outcome leaves no command running: the block is idle, or the model has faulted; it is no refusal. -/
def CommandEnded : Host.Outcome State Fault Refusal → Prop
  | .next t => t.busy = false
  | .fault _ => True
  | .refused _ => False

theorem StepResult.finish_commandEnded (x : StepResult) : CommandEnded x.finish := by
  cases x with
  | done s => exact s.complete_busy
  | raised e info s => exact s.latchError_busy e info
  | fault f => trivial

theorem endCommand_commandEnded (w : Word) (s : State) : CommandEnded (endCommand w s) := by
  cases hd : decode w with
  | ok i => rw [endCommand_of_ok hd, exec_eq_finish]; exact StepResult.finish_commandEnded _
  | error e => rw [endCommand_of_error hd]; exact s.latchError_busy .illegalCommand w

theorem run_succ_of_next {M : Host.Core} {s t : M.State} (h : M.step s = .next t) (k : Nat) :
    M.run (k + 1) s = M.run k t := by
  rw [Host.Core.run, h]

theorem run_one (M : Host.Core) (s : M.State) : M.run 1 s = M.step s := by
  rw [Host.Core.run]
  cases M.step s <;> rfl

/-- In the engine's turn one step ends the command. -/
theorem run_one_commandEnded {s : State} {w : Word} (hr : s.rst = false) (he : s.engine = .busy w)
    (ht : s.turns = [] ∨ s.turns.head? = some .engine) : CommandEnded (core.run 1 s) := by
  have hend : core.run 1 s = endCommand w s.popTurn := (run_one core s).trans (step_of_running hr he ht)
  rw [hend]
  exact endCommand_commandEnded w s.popTurn

/-- Each listed turn of the host is used up, and the first turn of the engine, or the end of the list, ends the
command. -/
theorem run_commandEnded {ts : List Agent} {s : State} {w : Word} (ht : s.turns = ts) (hr : s.rst = false)
    (he : s.engine = .busy w) (hi : s.inputs = []) : ∃ k, k ≤ ts.length + 1 ∧ CommandEnded (core.run k s) := by
  induction ts generalizing s with
  | nil => exact ⟨1, Nat.le_refl 1, run_one_commandEnded hr he (.inl ht)⟩
  | cons a rest ih =>
    cases a with
    | engine => exact ⟨1, Nat.le_add_left 1 _, run_one_commandEnded hr he (.inr (congrArg List.head? ht))⟩
    | host =>
      have hstep : step s = .next s.popTurn :=
        (step_of_host (State.mover_of_turn ht)).trans (hostTurn_of_end (s := s.popTurn) hi)
      obtain ⟨k, hk, hend⟩ := ih (s := s.popTurn) (congrArg List.tail ht) hr he hi
      have hrun : core.run (k + 1) s = core.run k s.popTurn := run_succ_of_next (M := core) hstep k
      exact ⟨k + 1, Nat.succ_le_succ hk, hrun ▸ hend⟩

end Sys2Proof.Machine

/-! ### The obligations -/

section

open Sys2Proof Sys2Proof.Machine

/-- Settles O8, by induction on the turns listed: the host's turns pass, and the engine's turn ends the command. -/
theorem startedCommandEnds : Obligations.StartedCommandEnds := by
  unfold Obligations.StartedCommandEnds
  intro s hr hb hi
  obtain ⟨w, he⟩ := (State.busy_eq s).mp hb
  exact run_commandEnded rfl hr he hi

/-- Settles O44: with its window open a location is read as what it holds, and an unwritten one holds its free value. -/
theorem unwrittenLocationsReadStably : Obligations.UnwrittenLocationsReadStably := by
  unfold Obligations.UnwrittenLocationsReadStably
  intro s hr he
  have hb := (State.not_busy_eq s).mpr he
  refine ⟨fun j t hj ht hin hnone => ?_, fun i hi hin hnone => ?_, fun i hi hin hnone => ?_⟩
  · rw [State.busRead_msg s hj, hr, hb]
    refine (lane_windowWord _ _ _ ht).trans ?_
    rw [if_pos hin, State.msgByte_of_unwritten hnone]
  · rw [State.busRead_bit s (by omega), hr, hb]
    exact (windowWord_bitByte_getLsbD s hin).trans (State.streamBit_of_unwritten hnone)
  · rw [State.busRead_pix s hi, hr, hb, if_pos hin]
    exact State.pixWord_of_unwritten hnone

/-- Settles O49: with no command to abort the soft reset is the register part of a reset. -/
theorem softResetWhileIdle : Obligations.SoftResetWhileIdle := by
  unfold Obligations.SoftResetWhileIdle
  intro s v hr hi hv
  have hreset : s.busWrite 0x004 v = s.resetRegs :=
    (State.busWrite_ctrl_softReset hr hv).trans (State.softReset_of_idle hi)
  rw [hreset, State.resetRegs, ← hi]

/-- Settles O51: RST high gates every access, and the statement that takes it low is a power-on reset. -/
theorem powerOnReset : Obligations.PowerOnReset := by
  unfold Obligations.PowerOnReset
  refine fun s hr => ⟨fun off v => ⟨State.busRead_high hr off, State.busWrite_high hr off v⟩, fun rest hi hm => ?_⟩
  rw [step_statement hm hi, perform, State.setRst_fall (s := { s.popTurn with inputs := rest }) hr]
  rfl

end
end

section
/-! SUPPORT. Every fault of every command (70_reset_and_hazards R94; log 15): the step that stops at its first unwritten
location, and the locations a composite can stop at, whose second step finds the first one's bits written. -/

namespace Sys2Proof.Machine

open Sys2Proof

theorem exec_of_fault {i : Instr} {s : State} {f : Fault} (h : commandBody .strict i s = .fault f) :
    exec i s = .fault f := by
  rw [exec_eq_finish, h]; rfl

/-! ### The step that stops at its first unwritten location -/

theorem isSome_below {α : Type} {f : Nat → Option α} {n : Nat} (h : ∀ k, k < n → ∃ v, f k = some v) :
    ∀ k, k < n → (f k).isSome = true := fun k hk => Option.isSome_iff_exists.mpr (h k hk)

theorem encodeStep_of_unwritten {r : Reader} {s : State} {i : Nat} (hL : s.msgLen.toNat ≤ s.cfg.maxMsgBytes)
    (hi : i < s.msgLen.toNat) (hnone : r.msg s.msg i = none)
    (hbefore : ∀ k, k < i → ∃ b, r.msg s.msg k = some b ∧ b.toNat < 128) :
    encodeStep r s = .fault (.unwrittenMsg i) := by
  have hscan : scanText (r.msg s.msg) 0 s.msgLen.toNat = .unwritten i :=
    scanText_unwritten.mpr ⟨Nat.zero_le i, by omega, hnone, fun k _ hk => hbefore k hk⟩
  rw [encodeStep, if_neg (Nat.not_lt.mpr hL), hscan]

theorem decodeStep_of_unwritten {r : Reader} {s : State} {i : Nat} (hn : s.bitCount.toNat ≤ s.cfg.maxBits)
    (hmod : s.bitCount.toNat % 8 = 0) (hi : i < s.bitCount.toNat) (hnone : r.bit s.bit i = none)
    (hbefore : ∀ k, k < i → (r.bit s.bit k).isSome = true) : decodeStep r s = .fault (.unwrittenBit i) := by
  have hchunks : readChunks (r.bit s.bit) 0 (s.bitCount.toNat / 8) = .error i :=
    readChunks_unwritten hnone (Nat.zero_le i) (by omega) fun k _ hk => hbefore k hk
  rw [decodeStep, if_neg (Nat.not_lt.mpr hn), if_neg (not_not_intro hmod), hchunks]

theorem embedStep_of_unwrittenBit {r : Reader} (hr : r.Lawful) {s : State} {i : Nat}
    (hg : s.gridW * s.gridH ≤ s.cfg.pixWords) (hn : s.bitCount.toNat ≤ s.cfg.maxBits) (hi : i < 3 * s.embedGroups)
    (hnone : r.bit s.bit i = none) (hbits : ∀ k, k < i → (r.bit s.bit k).isSome = true)
    (hwords : ∀ n, n < i / 3 → (r.pix s.pix (pixIndex s.gridW s.gridH n)).isSome = true) :
    embedStep r s = .fault (.unwrittenBit i) := by
  have hloop : embedLoop (r.bit s.bit) r.pix s.gridW s.gridH 0 s.embedGroups s.pix = .error (.unwrittenBit i) :=
    embedLoop_unwrittenBit hr.pix_other (groups_le_cells _ _ _) hnone hi hbits hwords
  rw [embedStep, if_neg (Nat.not_lt.mpr hg), if_neg (Nat.not_lt.mpr hn), hloop]

theorem embedStep_of_unwrittenPix {r : Reader} (hr : r.Lawful) {s : State} {n : Nat}
    (hg : s.gridW * s.gridH ≤ s.cfg.pixWords) (hn : s.bitCount.toNat ≤ s.cfg.maxBits) (hvisit : n < s.embedGroups)
    (hnone : r.pix s.pix (pixIndex s.gridW s.gridH n) = none)
    (hbits : ∀ k, k < 3 * n + 3 → (r.bit s.bit k).isSome = true)
    (hwords : ∀ k, k < n → (r.pix s.pix (pixIndex s.gridW s.gridH k)).isSome = true) :
    embedStep r s = .fault (.unwrittenPix (pixIndex s.gridW s.gridH n)) := by
  have hloop : embedLoop (r.bit s.bit) r.pix s.gridW s.gridH 0 s.embedGroups s.pix =
      .error (.unwrittenPix (pixIndex s.gridW s.gridH n)) :=
    embedLoop_unwrittenPix hr.pix_other (groups_le_cells _ _ _) hvisit hnone hbits hwords
  rw [embedStep, if_neg (Nat.not_lt.mpr hg), if_neg (Nat.not_lt.mpr hn), hloop]

theorem extractStep_of_unwritten {r : Reader} {s : State} {n : Nat} (hg : s.gridW * s.gridH ≤ s.cfg.pixWords)
    (hn : s.totalBits.toNat ≤ s.cfg.maxBits) (hvisit : n < s.extractGroups)
    (hnone : r.pix s.pix (pixIndex s.gridW s.gridH n) = none)
    (hwords : ∀ k, k < n → (r.pix s.pix (pixIndex s.gridW s.gridH k)).isSome = true) :
    extractStep r s = .fault (.unwrittenPix (pixIndex s.gridW s.gridH n)) := by
  have hloop : extractLoop (r.pix s.pix) s.gridW s.gridH 0 s.extractGroups = .error (pixIndex s.gridW s.gridH n) :=
    extractLoop_unwritten hnone (Nat.zero_le n) (by omega) fun k _ hk => hwords k hk
  rw [extractStep, if_neg (Nat.not_lt.mpr hg), if_neg (Nat.not_lt.mpr hn), hloop]

/-! ### The second step of a composite -/

/-- EMBED of an encoded message stops at the first unwritten word of its visits: the bits of its groups are written. -/
theorem embedStep_of_encoded_unwritten {s e : State} {n : Nat} (hwf : s.cfg.wf = true)
    (hG : s.gridW * s.gridH ≤ s.cfg.pixWords) (hvisit : n < s.messageGroups)
    (hnone : s.pix.read? (pixIndex s.gridW s.gridH n) = none)
    (hwords : ∀ k, k < n → (s.pix.read? (pixIndex s.gridW s.gridH k)).isSome = true)
    (h : encodeStep .strict s = .done e) :
    embedStep .strict e = .fault (.unwrittenPix (pixIndex s.gridW s.gridH n)) := by
  obtain ⟨hg, hn⟩ := encodeStep_done_fits hG h
  have hgroups := encodeStep_done_embedGroups hwf h
  have hle : 3 * s.messageGroups ≤ 8 * s.msgLen.toNat := three_groups_le _ _ _
  have hbits : ∀ k, k < 3 * n + 3 → (e.bit.read? k).isSome = true := fun k hk =>
    encodeStep_done_bit_isSome h (by omega)
  have hframe := encodeStep_done_eq h
  have hpix : e.pix = s.pix := by rw [hframe]
  have hw : e.gridW = s.gridW := by rw [hframe]; rfl
  have hh : e.gridH = s.gridH := by rw [hframe]; rfl
  rw [← hpix, ← hw, ← hh] at hnone hwords
  rw [← hw, ← hh]
  exact embedStep_of_unwrittenPix Reader.strict_lawful hg hn (hgroups ▸ hvisit) hnone hbits hwords

/-- EMBED of an encoded message faults on nothing but an unwritten word of a visit. -/
theorem embedStep_of_encoded_fault {s e : State} {f : Fault} (hwf : s.cfg.wf = true)
    (h : encodeStep .strict s = .done e) (hf : embedStep .strict e = .fault f) :
    ∃ n, f = .unwrittenPix (pixIndex s.gridW s.gridH n) ∧ n < s.messageGroups ∧
      s.pix.read? (pixIndex s.gridW s.gridH n) = none := by
  have hgroups := encodeStep_done_embedGroups hwf h
  have hle : 3 * s.messageGroups ≤ 8 * s.msgLen.toNat := three_groups_le _ _ _
  rcases embedStep_fault Reader.strict_lawful hf with ⟨k, -, hk, hnone⟩ | ⟨n, rfl, hn, hnone⟩
  · exact absurd hnone (Option.isSome_iff_ne_none.mp (encodeStep_done_bit_isSome h (by omega)))
  · rw [hgroups] at hn
    rw [encodeStep_done_eq h] at hnone ⊢
    exact ⟨n, rfl, hn, hnone⟩

/-- DECODE of an extracted stream never faults: every bit that EXTRACT counts is written. -/
theorem decodeStep_of_extracted_not_fault {s x : State} {f : Fault} (h : extractStep .strict s = .done x) :
    decodeStep .strict x ≠ .fault f := by
  intro hf
  obtain ⟨i, -, hi, hnone⟩ := decodeStep_fault hf
  exact absurd hnone (Option.isSome_iff_ne_none.mp (extractStep_done_bit_isSome h hi))

/-- ENCRYPT faults where ENCODE does, and on the unwritten words of its visits. -/
theorem encryptStep_fault {s : State} {f : Fault} (hwf : s.cfg.wf = true) (h : encryptStep .strict s = .fault f) :
    (∃ i, f = .unwrittenMsg i ∧ i < s.msgLen.toNat ∧ s.msg.read? i = none) ∨
    (∃ n, f = .unwrittenPix (pixIndex s.gridW s.gridH n) ∧ n < s.messageGroups ∧
      s.pix.read? (pixIndex s.gridW s.gridH n) = none) := by
  rcases encryptStep_cases .strict s with ⟨e, info, hx⟩ | ⟨hL, hG, hC⟩
  · rw [hx] at h; cases h
  · rw [encryptStep_eq hL hG hC] at h
    rcases StepResult.andThen_fault.mp h with hencode | ⟨e, he, hembed⟩
    · exact .inl (encodeStep_fault hencode)
    · exact .inr (embedStep_of_encoded_fault hwf he hembed)

/-- DECRYPT faults on the unwritten words of its visits. -/
theorem decryptStep_fault {s : State} {f : Fault} (hwf : s.cfg.wf = true) (h : decryptStep .strict s = .fault f) :
    ∃ n, f = .unwrittenPix (pixIndex s.gridW s.gridH n) ∧ n < s.messageGroups ∧
      s.pix.read? (pixIndex s.gridW s.gridH n) = none := by
  rcases decryptStep_cases .strict s with ⟨e, info, hx⟩ | ⟨hL, hG⟩
  · rw [hx] at h; cases h
  · rw [decryptStep_eq hL hG] at h
    rcases StepResult.andThen_fault.mp h with hextract | ⟨x, hx, hdecode⟩
    · obtain ⟨n, hf, hn, hnone⟩ := extractStep_fault hextract
      exact ⟨n, hf, State.setBudget_extractGroups hwf hL ▸ hn, hnone⟩
    · exact absurd hdecode (decodeStep_of_extracted_not_fault hx)

end Sys2Proof.Machine

/-! ### The obligations -/

section

open Sys2Proof Sys2Proof.Machine

/-- Settles O20: each step stops at the first location its pseudocode finds unwritten; ENCRYPT and DECRYPT stop in their
first step, or in the EMBED of an encoded message. -/
theorem unwrittenReadsFault : Obligations.UnwrittenReadsFault := by
  unfold Obligations.UnwrittenReadsFault
  refine fun s => ⟨fun i hL hi hnone hbefore => ?_, fun i hn hmod hi hnone hbefore => ?_,
    fun i hg hn hi hnone hbits hwords => ?_, fun n hg hn hvisit hnone hbits hwords => ?_,
    fun n hg hn hvisit hnone hwords => ?_, fun i hL hG hC hi hnone hbefore => ?_,
    fun n hwf hL hG hC hascii hvisit hnone hwords => ?_, fun n hwf hL hG hvisit hnone hwords => ?_⟩
  · exact exec_of_fault (i := .encode) (encodeStep_of_unwritten (r := .strict) hL hi hnone hbefore)
  · exact exec_of_fault (i := .decode) (decodeStep_of_unwritten (r := .strict) hn hmod hi hnone (isSome_below hbefore))
  · exact exec_of_fault (i := .embed)
      (embedStep_of_unwrittenBit Reader.strict_lawful hg hn hi hnone (isSome_below hbits) (isSome_below hwords))
  · exact exec_of_fault (i := .embed)
      (embedStep_of_unwrittenPix Reader.strict_lawful hg hn hvisit hnone (isSome_below hbits) (isSome_below hwords))
  · exact exec_of_fault (i := .extract)
      (extractStep_of_unwritten (r := .strict) hg hn hvisit hnone (isSome_below hwords))
  · have hstop := encodeStep_of_unwritten (r := .strict) hL hi hnone hbefore
    exact exec_of_fault (i := .encrypt)
      ((encryptStep_eq hL hG hC).trans (StepResult.andThen_fault.mpr (.inl hstop)))
  · obtain ⟨e, he⟩ := encodeStep_of_ascii (r := .strict) hL hascii
    have hstop := embedStep_of_encoded_unwritten hwf hG hvisit hnone (isSome_below hwords) he
    exact exec_of_fault (i := .encrypt)
      ((encryptStep_eq hL hG hC).trans (StepResult.andThen_fault.mpr (.inr ⟨e, he, hstop⟩)))
  · have hgroups : n < s.setBudget.extractGroups := (State.setBudget_extractGroups hwf hL).symm ▸ hvisit
    have hstop := extractStep_of_unwritten (r := .strict) (s := s.setBudget) hG (State.eight_msgLen_le_maxBits hL)
      hgroups hnone (isSome_below hwords)
    exact exec_of_fault (i := .decrypt)
      ((decryptStep_eq hL hG).trans (StepResult.andThen_fault.mpr (.inl hstop)))

/-- Settles O21: a command ends by its body's end, which is no refusal, sets the engine idle and DONE or ERR, and faults
where the body does, command by command. -/
theorem commandsFaultOnlyOnUnwrittenReads : Obligations.CommandsFaultOnlyOnUnwrittenReads := by
  unfold Obligations.CommandsFaultOnlyOnUnwrittenReads
  refine fun i s hwf => ⟨fun r => ?_, fun t h => ⟨exec_idle h, exec_done_or_err h⟩, fun f h => ?_⟩
  · rw [exec_eq_finish]; exact StepResult.finish_not_refused
  · rw [exec_eq_finish, StepResult.finish_fault] at h
    cases i with
    | nop => cases h
    | encode =>
      obtain ⟨k, hf, hk, hnone⟩ := encodeStep_fault h
      exact .inl ⟨k, hf, .inl rfl, hk, hnone⟩
    | decode =>
      obtain ⟨k, hf, hk, hnone⟩ := decodeStep_fault h
      exact .inr (.inl ⟨k, hf, hnone, .inl ⟨rfl, hk⟩⟩)
    | capchk => exact absurd h capchkStep_fault
    | embed =>
      rcases embedStep_fault Reader.strict_lawful h with ⟨k, hf, hk, hnone⟩ | ⟨n, hf, hn, hnone⟩
      · exact .inr (.inl ⟨k, hf, hnone, .inr ⟨rfl, hk⟩⟩)
      · exact .inr (.inr ⟨n, hf, hnone, .inl ⟨rfl, hn⟩⟩)
    | extract =>
      obtain ⟨n, hf, hn, hnone⟩ := extractStep_fault h
      exact .inr (.inr ⟨n, hf, hnone, .inr (.inl ⟨rfl, hn⟩)⟩)
    | encrypt =>
      rcases encryptStep_fault hwf h with ⟨k, hf, hk, hnone⟩ | ⟨n, hf, hn, hnone⟩
      · exact .inl ⟨k, hf, .inr rfl, hk, hnone⟩
      · exact .inr (.inr ⟨n, hf, hnone, .inr (.inr ⟨.inl rfl, hn⟩)⟩)
    | decrypt =>
      obtain ⟨n, hf, hn, hnone⟩ := decryptStep_fault hwf h
      exact .inr (.inr ⟨n, hf, hnone, .inr (.inr ⟨.inr rfl, hn⟩)⟩)

end
end

section
/-! SUPPORT. The abort of a running command (70_reset_and_hazards R93; log 5): which locations it can change, and what
the aborted command would have written, read with the free values of unwritten locations. -/

namespace Sys2Proof.Machine

open Sys2Proof

/-! ### The locations a command can write (R53) -/

section

variable {r : Reader} {i : Instr} {s t : State}

theorem commandBody_msg_outside (hwf : s.cfg.wf = true) (h : (commandBody r i s).At t) {k : Nat}
    (hdecode : ¬(i = .decode ∧ k < s.bitCount.toNat / 8)) (hdecrypt : ¬(i = .decrypt ∧ k < 3 * s.messageGroups / 8)) :
    t.msg.read? k = s.msg.read? k := by
  by_cases hi : i ≠ .decode ∧ i ≠ .decrypt
  · rw [commandBody_frame h, (State.overwrittenBy_msg hi s t).1]
  · have hcases : i = .decode ∨ i = .decrypt := by tauto
    rcases hcases with rfl | rfl
    · obtain ⟨-, -, hmsg⟩ := decodeStep_writes h
      exact hmsg k (Nat.not_lt.mp fun hk => hdecode ⟨rfl, hk⟩)
    · obtain ⟨-, -, hmsg⟩ := decryptStep_writes hwf h
      exact hmsg k (Nat.not_lt.mp fun hk => hdecrypt ⟨rfl, hk⟩)

theorem commandBody_bit_outside (hwf : s.cfg.wf = true) (h : (commandBody r i s).At t) {k : Nat}
    (hencode : ¬((i = .encode ∨ i = .encrypt) ∧ k < 8 * s.msgLen.toNat))
    (hextract : ¬(i = .extract ∧ k < 3 * s.extractGroups)) (hdecrypt : ¬(i = .decrypt ∧ k < 3 * s.messageGroups)) :
    t.bit.read? k = s.bit.read? k := by
  by_cases hi : i ≠ .encode ∧ i ≠ .extract ∧ i ≠ .encrypt ∧ i ≠ .decrypt
  · rw [commandBody_frame h, (State.overwrittenBy_bit hi s t).1]
  · have hcases : i = .encode ∨ i = .extract ∨ i = .encrypt ∨ i = .decrypt := by tauto
    rcases hcases with rfl | rfl | rfl | rfl
    · obtain ⟨-, -, hbit⟩ := encodeStep_writes h
      exact hbit k (Nat.not_lt.mp fun hk => hencode ⟨.inl rfl, hk⟩)
    · obtain ⟨-, -, hbit⟩ := extractStep_writes h
      exact hbit k (Nat.not_lt.mp fun hk => hextract ⟨rfl, hk⟩)
    · obtain ⟨-, hbit, -⟩ := encryptStep_writes hwf h
      exact hbit k (Nat.not_lt.mp fun hk => hencode ⟨.inr rfl, hk⟩)
    · obtain ⟨-, hbit, -⟩ := decryptStep_writes hwf h
      exact hbit k (Nat.not_lt.mp fun hk => hdecrypt ⟨rfl, hk⟩)

theorem commandBody_pix_unvisited (hwf : s.cfg.wf = true) (h : (commandBody r i s).At t) {a : Nat}
    (hembed : ¬(i = .embed ∧ ∃ n, n < s.embedGroups ∧ pixIndex s.gridW s.gridH n = a))
    (hencrypt : ¬(i = .encrypt ∧ ∃ n, n < s.messageGroups ∧ pixIndex s.gridW s.gridH n = a)) :
    t.pix.read? a = s.pix.read? a := by
  by_cases hi : i ≠ .embed ∧ i ≠ .encrypt
  · rw [commandBody_frame h, (State.overwrittenBy_pix hi s t).1]
  · have hcases : i = .embed ∨ i = .encrypt := by tauto
    rcases hcases with rfl | rfl
    · obtain ⟨-, -, hpix⟩ := embedStep_writes h
      exact hpix a fun n hn e => hembed ⟨rfl, n, hn, e⟩
    · obtain ⟨-, -, hpix⟩ := encryptStep_writes hwf h
      exact hpix a fun n hn e => hencrypt ⟨rfl, n, hn, e⟩

end

/-! ### The state the aborted command would have left -/

/-- An illegal word writes nothing (R56). -/
theorem State.wouldWrite_of_error {w : Word} {e : DecodeError} (hd : decode w = .error e) (s : State) :
    s.wouldWrite w = s := by
  rw [State.wouldWrite, hd]

theorem State.wouldWrite_encode_word (i : Instr) (s : State) :
    s.wouldWrite (encode i) = (commandBody (.settled s.powerOns) i s).written s := by
  rw [State.wouldWrite, decode_encode]

theorem State.wouldWrite_of_done {i : Instr} {s t : State} (h : commandBody (.settled s.powerOns) i s = .done t) :
    s.wouldWrite (encode i) = t := by
  rw [State.wouldWrite_encode_word, h]; rfl

theorem State.wouldWrite_of_raised {i : Instr} {s t : State} {e : CmdError} {info : Word}
    (h : commandBody (.settled s.powerOns) i s = .raised e info t) : s.wouldWrite (encode i) = t := by
  rw [State.wouldWrite_encode_word, h]; rfl

/-- What every end of the command's body satisfies, and its start too, holds of the state it would have left. -/
theorem State.wouldWrite_induction {w : Word} {i : Instr} {s : State} {P : State → Prop} (hd : decode w = .ok i)
    (hend : ∀ t, (commandBody (.settled s.powerOns) i s).At t → P t) (hstart : P s) : P (s.wouldWrite w) := by
  rcases State.wouldWrite_at hd s with h | h
  · exact hend _ h
  · rw [h]; exact hstart

/-! ### A reader of free values never stops -/

theorem encodeStep_settled_goes (p : Nat) (s : State) : (encodeStep (.settled p) s).Goes := fun _ h => by
  obtain ⟨i, -, -, hnone⟩ := encodeStep_fault h
  cases hnone

theorem embedStep_settled_goes (p : Nat) (s : State) : (embedStep (.settled p) s).Goes := fun _ h => by
  rcases embedStep_fault (Reader.settled_lawful p) h with ⟨k, -, -, hnone⟩ | ⟨n, -, -, hnone⟩
  · cases hnone
  · cases hnone

theorem decodeStep_settled_goes (p : Nat) (s : State) : (decodeStep (.settled p) s).Goes := fun _ h => by
  obtain ⟨i, -, -, hnone⟩ := decodeStep_fault h
  cases hnone

/-- Where the answer is no fault, what it would have written does not depend on the start. -/
theorem StepResult.Goes.written_eq {x : StepResult} (h : x.Goes) (s t : State) : x.written s = x.written t := by
  cases x with
  | done u => rfl
  | raised e info u => rfl
  | fault f => exact absurd rfl (h f)

/-! ### The single steps -/

/-- ENCODE of bytes below 128, unwritten ones with their free values, is done. -/
theorem encodeStep_settled_of_ascii {s : State} (hL : s.msgLen.toNat ≤ s.cfg.maxMsgBytes)
    (hascii : ∀ k, k < s.msgLen.toNat → (s.msgByte k).toNat < 128) :
    ∃ e, encodeStep (.settled s.powerOns) s = .done e :=
  encodeStep_of_ascii hL fun i hi => ⟨s.msgByte i, rfl, hascii i hi⟩

/-- ENCODE of a text with a byte at or above 128 raises at the lowest such byte. -/
theorem encodeStep_settled_of_nonAscii {s : State} {k : Nat} (hL : s.msgLen.toNat ≤ s.cfg.maxMsgBytes)
    (hk : k < s.msgLen.toNat) (hbyte : 128 ≤ (s.msgByte k).toNat) :
    ∃ i, encodeStep (.settled s.powerOns) s = .raised .encodingError (BitVec.ofNat 32 i) s := by
  have hex : ∃ i, i < s.msgLen.toNat ∧ 128 ≤ (s.msgByte i).toNat := ⟨k, hk, hbyte⟩
  obtain ⟨hi, hge⟩ := Nat.find_spec hex
  refine ⟨Nat.find hex, encodeStep_of_nonAscii hL hi ⟨_, rfl, hge⟩ fun j hj => ⟨s.msgByte j, rfl, ?_⟩⟩
  exact Nat.not_le.mp fun hge' => Nat.find_min hex hj ⟨hj.trans hi, hge'⟩

theorem State.wouldWrite_encode_of_nonAscii {s : State} {k : Nat} (hL : s.msgLen.toNat ≤ s.cfg.maxMsgBytes)
    (hk : k < s.msgLen.toNat) (hbyte : 128 ≤ (s.msgByte k).toNat) : s.wouldWrite 1 = s := by
  obtain ⟨i, hi⟩ := encodeStep_settled_of_nonAscii hL hk hbyte
  exact State.wouldWrite_of_raised (i := .encode) hi

theorem State.wouldWrite_encode_bit {s : State} (hL : s.msgLen.toNat ≤ s.cfg.maxMsgBytes)
    (hascii : ∀ k, k < s.msgLen.toNat → (s.msgByte k).toNat < 128) {i j : Nat} (hi : i < s.msgLen.toNat) (hj : j < 8) :
    (s.wouldWrite 1).bit.read? (8 * i + j) = some ((s.msgByte i).getLsbD (7 - j)) := by
  obtain ⟨e, he⟩ := encodeStep_settled_of_ascii hL hascii
  have hw : s.wouldWrite 1 = e := State.wouldWrite_of_done (i := .encode) he
  rw [hw]
  exact encodeStep_done_bit he hi hj

theorem State.wouldWrite_decode_byte {s : State} (hn : s.bitCount.toNat ≤ s.cfg.maxBits)
    (hmod : s.bitCount.toNat % 8 = 0) {k : Nat} (hk : k < s.bitCount.toNat / 8) :
    ∃ b, (s.wouldWrite 2).msg.read? k = some b ∧ ∀ j, j < 8 → b.getLsbD (7 - j) = s.streamBit (8 * k + j) := by
  obtain ⟨d, hd⟩ := decodeStep_of_written (r := .settled s.powerOns) hn hmod fun _ _ => rfl
  have hw : s.wouldWrite 2 = d := State.wouldWrite_of_done (i := .decode) hd
  obtain ⟨b, hb, hbits⟩ := decodeStep_done_byte hd hk
  exact ⟨b, hw ▸ hb, fun j hj => (Option.some.inj (hbits j hj)).symm⟩

theorem embedStep_settled_done {s : State} (hg : s.gridW * s.gridH ≤ s.cfg.pixWords)
    (hn : s.bitCount.toNat ≤ s.cfg.maxBits) : ∃ m, embedStep (.settled s.powerOns) s = .done m := by
  obtain ⟨m, -, hm⟩ := embedStep_of_written (Reader.settled_lawful s.powerOns) hg hn (fun _ _ => rfl) (fun _ _ => rfl)
  exact ⟨_, hm⟩

theorem State.wouldWrite_embed_visit {s : State} (hg : s.gridW * s.gridH ≤ s.cfg.pixWords)
    (hn : s.bitCount.toNat ≤ s.cfg.maxBits) {n : Nat} (hvisit : n < s.embedGroups) :
    (s.wouldWrite 4).pix.read? (pixIndex s.gridW s.gridH n) =
      some (pack (s.pixWord (pixIndex s.gridW s.gridH n)) (s.streamBit (3 * n)) (s.streamBit (3 * n + 1))
        (s.streamBit (3 * n + 2))) := by
  obtain ⟨m, hm⟩ := embedStep_settled_done hg hn
  have hw : s.wouldWrite 4 = m := State.wouldWrite_of_done (i := .embed) hm
  obtain ⟨b0, b1, b2, p, h0, h1, h2, hp, hword⟩ := embedStep_done_visit (Reader.settled_lawful s.powerOns) hm hvisit
  cases h0; cases h1; cases h2; cases hp
  rw [hw]
  exact hword

theorem extractStep_settled_done {s : State} (hg : s.gridW * s.gridH ≤ s.cfg.pixWords)
    (hn : s.totalBits.toNat ≤ s.cfg.maxBits) : ∃ x, extractStep (.settled s.powerOns) s = .done x := by
  obtain ⟨bs, -, hx⟩ := extractStep_of_written (r := .settled s.powerOns) hg hn fun _ _ => rfl
  exact ⟨_, hx⟩

theorem State.wouldWrite_extract_visit {s : State} (hg : s.gridW * s.gridH ≤ s.cfg.pixWords)
    (hn : s.totalBits.toNat ≤ s.cfg.maxBits) {n : Nat} (hvisit : n < s.extractGroups) :
    (s.wouldWrite 5).bit.read? (3 * n) = some ((s.pixWord (pixIndex s.gridW s.gridH n)).getLsbD 0) ∧
    (s.wouldWrite 5).bit.read? (3 * n + 1) = some ((s.pixWord (pixIndex s.gridW s.gridH n)).getLsbD 8) ∧
    (s.wouldWrite 5).bit.read? (3 * n + 2) = some ((s.pixWord (pixIndex s.gridW s.gridH n)).getLsbD 16) := by
  obtain ⟨x, hx⟩ := extractStep_settled_done hg hn
  have hw : s.wouldWrite 5 = x := State.wouldWrite_of_done (i := .extract) hx
  obtain ⟨p, hp, hbits⟩ := extractStep_done_visit hx hvisit
  cases hp
  rw [hw]
  exact hbits

/-- DECODE that fails a check writes nothing. -/
theorem State.wouldWrite_decode_of_check {s : State}
    (h : s.cfg.maxBits < s.bitCount.toNat ∨ s.bitCount.toNat % 8 ≠ 0) : s.wouldWrite 2 = s := by
  by_cases hn : s.bitCount.toNat ≤ s.cfg.maxBits
  · have hmod := h.resolve_left (Nat.not_lt.mpr hn)
    exact State.wouldWrite_of_raised (i := .decode) (decodeStep_of_partialByte _ hn hmod)
  · exact State.wouldWrite_of_raised (i := .decode) (decodeStep_of_tooLong _ (Nat.not_le.mp hn))

/-- EMBED that fails a check writes nothing. -/
theorem State.wouldWrite_embed_of_check {s : State}
    (h : s.cfg.pixWords < s.gridW * s.gridH ∨ s.cfg.maxBits < s.bitCount.toNat) : s.wouldWrite 4 = s := by
  by_cases hg : s.gridW * s.gridH ≤ s.cfg.pixWords
  · have hn := h.resolve_left (Nat.not_lt.mpr hg)
    exact State.wouldWrite_of_raised (i := .embed) (embedStep_of_tooManyBits _ hg hn)
  · exact State.wouldWrite_of_raised (i := .embed) (embedStep_of_gridOver _ (Nat.not_le.mp hg))

/-- EXTRACT that fails a check writes nothing. -/
theorem State.wouldWrite_extract_of_check {s : State}
    (h : s.cfg.pixWords < s.gridW * s.gridH ∨ s.cfg.maxBits < s.totalBits.toNat) : s.wouldWrite 5 = s := by
  by_cases hg : s.gridW * s.gridH ≤ s.cfg.pixWords
  · have hn := h.resolve_left (Nat.not_lt.mpr hg)
    exact State.wouldWrite_of_raised (i := .extract) (extractStep_of_tooManyBits _ hg hn)
  · exact State.wouldWrite_of_raised (i := .extract) (extractStep_of_gridOver _ (Nat.not_le.mp hg))

theorem State.wouldWrite_nop (s : State) : s.wouldWrite 0 = s := State.wouldWrite_of_done (i := .nop) rfl

theorem State.wouldWrite_capchk (s : State) : s.wouldWrite 3 = s :=
  State.wouldWrite_induction (P := fun t => t = s) (decode_encode .capchk) (fun _ h => capchkStep_frame h) rfl

/-! ### The composites -/

/-- ENCRYPT that fails a check, or CAPCHK, writes nothing. -/
theorem State.wouldWrite_encrypt_of_check {s : State}
    (h : ¬(s.msgLen.toNat ≤ s.cfg.maxMsgBytes ∧ s.gridW * s.gridH ≤ s.cfg.pixWords ∧
      8 * s.msgLen.toNat < 3 * s.fileSize.toNat)) : s.wouldWrite 6 = s := by
  obtain ⟨e, info, hx⟩ := (encryptStep_cases (.settled s.powerOns) s).resolve_right h
  exact State.wouldWrite_of_raised (i := .encrypt) hx

/-- DECRYPT that fails a check writes nothing. -/
theorem State.wouldWrite_decrypt_of_check {s : State}
    (h : ¬(s.msgLen.toNat ≤ s.cfg.maxMsgBytes ∧ s.gridW * s.gridH ≤ s.cfg.pixWords)) : s.wouldWrite 7 = s := by
  obtain ⟨e, info, hx⟩ := (decryptStep_cases (.settled s.powerOns) s).resolve_right h
  exact State.wouldWrite_of_raised (i := .decrypt) hx

section

variable {s : State} (hL : s.msgLen.toNat ≤ s.cfg.maxMsgBytes) (hG : s.gridW * s.gridH ≤ s.cfg.pixWords)
include hL hG

/-- ENCRYPT of a text writes what ENCODE does, and then EMBED. -/
theorem State.wouldWrite_encrypt_of_ascii (hC : 8 * s.msgLen.toNat < 3 * s.fileSize.toNat)
    (hascii : ∀ k, k < s.msgLen.toNat → (s.msgByte k).toNat < 128) :
    s.wouldWrite 6 = (s.wouldWrite 1).wouldWrite 4 := by
  obtain ⟨e, he⟩ := encodeStep_settled_of_ascii hL hascii
  have hencode : s.wouldWrite 1 = e := State.wouldWrite_of_done (i := .encode) he
  have hpower : e.powerOns = s.powerOns := by rw [encodeStep_done_eq he]
  have hgoes := embedStep_settled_goes s.powerOns e
  calc s.wouldWrite 6
      = (encryptStep (.settled s.powerOns) s).written s := s.wouldWrite_encode_word .encrypt
    _ = (embedStep (.settled s.powerOns) e).written s := by rw [encryptStep_eq hL hG hC, he]; rfl
    _ = (embedStep (.settled e.powerOns) e).written e := by rw [hpower]; exact hgoes.written_eq s e
    _ = (s.wouldWrite 1).wouldWrite 4 := by rw [hencode]; exact (e.wouldWrite_encode_word .embed).symm

/-- ENCRYPT of a byte at or above 128 writes nothing. -/
theorem State.wouldWrite_encrypt_of_nonAscii (hC : 8 * s.msgLen.toNat < 3 * s.fileSize.toNat) {k : Nat}
    (hk : k < s.msgLen.toNat) (hbyte : 128 ≤ (s.msgByte k).toNat) : s.wouldWrite 6 = s := by
  obtain ⟨i, hi⟩ := encodeStep_settled_of_nonAscii hL hk hbyte
  exact State.wouldWrite_of_raised (i := .encrypt)
    ((encryptStep_eq hL hG hC).trans (StepResult.andThen_raised.mpr (.inl hi)))

/-- EMBED leaves BITMEM as ENCODE would have left it, and a byte at or above 128 stops both commands. -/
theorem State.wouldWrite_encrypt_bit (hC : 8 * s.msgLen.toNat < 3 * s.fileSize.toNat) :
    (s.wouldWrite 6).bit = (s.wouldWrite 1).bit := by
  by_cases hascii : ∀ k, k < s.msgLen.toNat → (s.msgByte k).toNat < 128
  · rw [State.wouldWrite_encrypt_of_ascii hL hG hC hascii]
    refine State.wouldWrite_induction (P := fun t => t.bit = (s.wouldWrite 1).bit) (decode_encode .embed)
      (fun t h => ?_) rfl
    rw [embedStep_frame h]
  · push Not at hascii
    obtain ⟨k, hk, hbyte⟩ := hascii
    rw [State.wouldWrite_encrypt_of_nonAscii hL hG hC hk hbyte, State.wouldWrite_encode_of_nonAscii hL hk hbyte]

/-- DECRYPT writes what EXTRACT does with the message's budget, and then DECODE. -/
theorem State.wouldWrite_decrypt : s.wouldWrite 7 = (s.setBudget.wouldWrite 5).wouldWrite 2 := by
  obtain ⟨x, hx⟩ := extractStep_settled_done (s := s.setBudget) hG (State.eight_msgLen_le_maxBits hL)
  have hextract : s.setBudget.wouldWrite 5 = x := State.wouldWrite_of_done (i := .extract) hx
  have hpower : x.powerOns = s.powerOns := by rw [extractStep_done_eq hx]; rfl
  have hstep : extractStep (.settled s.powerOns) s.setBudget = .done x := hx
  have hgoes := decodeStep_settled_goes s.powerOns x
  calc s.wouldWrite 7
      = (decryptStep (.settled s.powerOns) s).written s := s.wouldWrite_encode_word .decrypt
    _ = (decodeStep (.settled s.powerOns) x).written s := by rw [decryptStep_eq hL hG, hstep]; rfl
    _ = (decodeStep (.settled x.powerOns) x).written x := by rw [hpower]; exact hgoes.written_eq s x
    _ = (s.setBudget.wouldWrite 5).wouldWrite 2 := by rw [hextract]; exact (x.wouldWrite_encode_word .decode).symm

/-- DECODE leaves BITMEM as EXTRACT would have left it. -/
theorem State.wouldWrite_decrypt_bit : (s.wouldWrite 7).bit = (s.setBudget.wouldWrite 5).bit := by
  rw [State.wouldWrite_decrypt hL hG]
  refine State.wouldWrite_induction (P := fun t => t.bit = (s.setBudget.wouldWrite 5).bit) (decode_encode .decode)
    (fun t h => ?_) rfl
  rw [decodeStep_frame h]

end

end Sys2Proof.Machine

/-! ### The obligations -/

section

open Sys2Proof Sys2Proof.Machine

/-- Settles O50: the soft reset blends the memories with those of `wouldWrite`, which are the command's end's where it
has one, and differ from the start's in the command's writes only. -/
theorem softResetAborts : Obligations.SoftResetAborts := by
  unfold Obligations.SoftResetAborts
  intro s w v hs hr he hv
  obtain ⟨hwf, hmem, -⟩ := hs
  have hreset : s.busWrite 0x004 v = (s.abortMemories w).resetRegs :=
    (State.busWrite_ctrl_softReset hr hv).trans (State.softReset_of_busy he)
  have hblend := State.abortMemories_read? w hmem
  refine ⟨_, hreset, rfl, hblend, fun i u hd hu => State.wouldWrite_of_exec hd hu, fun e hd k => ?_,
    fun i hd => ⟨fun k hdecode hdecrypt => ?_, fun k hencode hextract hdecrypt => ?_, fun a hembed hencrypt => ?_⟩⟩
  · obtain ⟨hmsg, hbit, hpix⟩ := hblend k
    rw [State.wouldWrite_of_error hd, ite_self] at hmsg hbit hpix
    exact ⟨hmsg, hbit, hpix⟩
  · have hsame : (s.wouldWrite w).msg.read? k = s.msg.read? k :=
      State.wouldWrite_induction (P := fun t => t.msg.read? k = s.msg.read? k) hd
        (fun t h => commandBody_msg_outside hwf h hdecode hdecrypt) rfl
    obtain ⟨hmsg, -, -⟩ := hblend k
    rwa [hsame, ite_self] at hmsg
  · have hsame : (s.wouldWrite w).bit.read? k = s.bit.read? k :=
      State.wouldWrite_induction (P := fun t => t.bit.read? k = s.bit.read? k) hd
        (fun t h => commandBody_bit_outside hwf h hencode hextract hdecrypt) rfl
    obtain ⟨-, hbit, -⟩ := hblend k
    rwa [hsame, ite_self] at hbit
  · have hsame : (s.wouldWrite w).pix.read? a = s.pix.read? a :=
      State.wouldWrite_induction (P := fun t => t.pix.read? a = s.pix.read? a) hd
        (fun t h => commandBody_pix_unvisited hwf h hembed hencrypt) rfl
    obtain ⟨-, -, hpix⟩ := hblend a
    rwa [hsame, ite_self] at hpix

/-- Settles O55: read with free values a step past its checks is done, with what its spec lemma says it leaves; a check
that fails raises on the start; and a composite is its two steps one after the other. -/
theorem abortedCommandWouldHaveWritten : Obligations.AbortedCommandWouldHaveWritten := by
  unfold Obligations.AbortedCommandWouldHaveWritten
  refine fun s _ => ⟨fun i j hL hascii => State.wouldWrite_encode_bit hL hascii,
    fun k hL => State.wouldWrite_encode_of_nonAscii hL, fun hL => ⟨?_, ?_, ?_⟩,
    fun k hn hmod => State.wouldWrite_decode_byte hn hmod, State.wouldWrite_decode_of_check,
    fun n hg hn => State.wouldWrite_embed_visit hg hn, fun n hg hn => State.wouldWrite_extract_visit hg hn,
    fun hg => ⟨State.wouldWrite_embed_of_check (.inl hg), State.wouldWrite_extract_of_check (.inl hg), ?_, ?_⟩,
    fun hn => State.wouldWrite_embed_of_check (.inr hn), fun hn => State.wouldWrite_extract_of_check (.inr hn),
    ⟨s.wouldWrite_nop, s.wouldWrite_capchk⟩,
    fun hL hG => ⟨fun hC => ?_, fun hC => ⟨State.wouldWrite_encrypt_bit hL hG hC, fun hascii => ?_,
      fun k => State.wouldWrite_encrypt_of_nonAscii hL hG hC⟩, State.wouldWrite_decrypt_bit hL hG, ?_⟩⟩
  · exact State.wouldWrite_of_raised (i := .encode) (encodeStep_of_tooLong _ hL)
  · exact State.wouldWrite_encrypt_of_check fun ⟨hle, _, _⟩ => Nat.not_le.mpr hL hle
  · exact State.wouldWrite_decrypt_of_check fun ⟨hle, _⟩ => Nat.not_le.mpr hL hle
  · exact State.wouldWrite_encrypt_of_check fun ⟨_, hle, _⟩ => Nat.not_le.mpr hg hle
  · exact State.wouldWrite_decrypt_of_check fun ⟨_, hle⟩ => Nat.not_le.mpr hg hle
  · exact State.wouldWrite_encrypt_of_check fun ⟨_, _, hlt⟩ => Nat.not_lt.mpr hC hlt
  · rw [State.wouldWrite_encrypt_of_ascii hL hG hC hascii]
  · exact congrArg State.msg (State.wouldWrite_decrypt hL hG)

end
end
